-- ==== Sys2Proof/Word.lean ====
section
/-! DEFINITION. The two word types of the QTC codec block: a 32-bit register word (spec/10_state.md R20) and an
8-bit byte of external memory (spec/20_memory.md R60). -/

namespace Sys2Proof

/-- A 32-bit register word: every register of the MMIO window is 32 bits wide (R20). -/
abbrev Word := BitVec 32

/-- One byte of external memory, and one colour channel (R60, R10). -/
abbrev Byte := BitVec 8

end Sys2Proof
end

