-- ==== Sys2Proof/Machine/Bits.lean ====
section
/-! DEFINITION. Bytes and bits of the container: `ceil8`, `packbits`, the big-endian fields and the bit of a byte
(spec/30_encoding.md R98, R99, spec/20_memory.md R68, R69). -/

namespace Sys2Proof.Machine

/-- `ceil8(n)` (spec/00_scope.md R8). -/
def ceil8 (n : Nat) : Nat := (n + 7) / 8

/-- Byte i of a packed bit string: bit s[8i+j] stands at bit position 7 − j, positions past the end are 0 (R99). -/
def packByte (bits : List Bool) (i : Nat) : Byte :=
  BitVec.ofNat 8 ((List.range 8).map fun j => if bits.getD (8 * i + j) false then 2 ^ (7 - j) else 0).sum

/-- `packbits(s)` (R99). -/
def packBits (bits : List Bool) : List Byte := (List.range (ceil8 bits.length)).map (packByte bits)

/-- Bit j of a byte, counted from its most significant bit (R69). -/
def bitOfByte (b : Byte) (j : Nat) : Bool := b.getLsbD (7 - j)

/-- The first `n` bits of a byte list, MSB first (spec/43_bitstream.md R222). -/
def unpackBits (bytes : List Byte) (n : Nat) : List Bool :=
  (List.range n).map fun i => bitOfByte (bytes.getD (i / 8) 0) (i % 8)

/-- `s32be(v)`: four bytes, most significant first (R98). -/
def s32be (v : Word) : List Byte :=
  [v.extractLsb' 24 8, v.extractLsb' 16 8, v.extractLsb' 8 8, v.extractLsb' 0 8]

/-- `u16be(v)` of a length: two bytes, most significant first (R98). -/
def u16be (n : Nat) : List Byte := [BitVec.ofNat 8 (n / 256), BitVec.ofNat 8 n]

/-- The 32-bit word of four bytes, most significant first; it is read as two's complement (R98). -/
def wordOfBytes (b0 b1 b2 b3 : Byte) : Word := b0 ++ b1 ++ b2 ++ b3

end Sys2Proof.Machine
end

