-- ==== Sys2Proof/Records.lean ====
section
/-! DEFINITION. The records the internal memories hold (spec/10_state.md R50 to R56) and the colour, channel and
rectangle notation of spec/00_scope.md R10. Types only: what is computed from them stands under Machine/. -/

namespace Sys2Proof

/-- A colour channel; the channel index c is 0 for R, 1 for G and 2 for B (R10). -/
inductive Chan where
  | r | g | b
deriving DecidableEq, Repr, Inhabited

/-- One value per colour channel. -/
structure Rgb (α : Type) where
  r : α
  g : α
  b : α
deriving DecidableEq, Repr, Inhabited

/-- A colour: a triple of 8-bit unsigned values (R10). -/
abbrev Color := Rgb Byte

/-- One cell of the SAT store: three 32-bit two's complement accumulators (R50). -/
abbrev SatCell := Rgb Word

/-- A rectangle: column of its left edge, row of its top edge, width, height (R10). -/
structure Rect where
  x : Nat
  y : Nat
  w : Nat
  h : Nat
deriving DecidableEq, Repr, Inhabited

/-- The tag of a node record; the colour is meaningful only for a LEAF, so only a LEAF carries one (R52). -/
inductive NodeKind where
  | leaf (color : Color)
  | internal
deriving DecidableEq, Repr, Inhabited

/-- A node record (R52): kind, depth and the rectangle as four unsigned 32-bit values in absolute coordinates. -/
structure NodeRec where
  kind : NodeKind
  depth : Nat
  x : Word
  y : Word
  w : Word
  h : Word
deriving DecidableEq, Repr, Inhabited

/-- A symbol-table entry (R54). The field `len` of R54 is the length of `code`, which is empty while CODE_V = 0. -/
structure SymEntry where
  color : Color
  freq : Word
  code : List Bool
deriving DecidableEq, Repr, Inhabited

/-- A node of the decoder trie (R55): an optional left child (bit 0), right child (bit 1) and colour; children are
indices into the arena. -/
structure TrieNode where
  left : Option Nat
  right : Option Nat
  color : Option Color
deriving DecidableEq, Repr, Inhabited

/-- A rectangle that a build has still to test: how many levels may follow below it (MAX_DEPTH − depth), its depth and
the rectangle (spec/41_quadtree.md R162). -/
structure Frame where
  left : Nat
  depth : Nat
  rect : Rect
deriving DecidableEq, Repr, Inhabited

/-- A task of the worker pool (R57, spec/41_quadtree.md R170). -/
inductive Task where
  /-- A task in the queue: no worker has taken it. -/
  | queued (top : Frame)
  /-- A worker builds: the rectangle it tests next, the rest of its recursion stack, and the records it has appended, in
  pre-order. -/
  | running (top : Frame) (stack : List Frame) (nodes : List NodeRec)
  /-- A worker has appended a LEAF and has still to count its colour: the colour, the rest of its recursion stack, and the
  records it has appended (spec/41_quadtree.md R162). -/
  | counting (color : Color) (stack : List Frame) (nodes : List NodeRec)
  /-- An INTERNAL node that waits at the join for its four children. -/
  | joining (depth : Nat) (rect : Rect) (c0 c1 c2 c3 : Task)
  /-- A task that has ended, with the records of its subtree. -/
  | ended (nodes : List NodeRec)
deriving DecidableEq, Repr, Inhabited

/-- The Huffman work tree (R56): a leaf names its symbol by its index. It exists only inside HUF_BUILD. -/
inductive HufTree where
  | leaf (sym : Nat)
  | node (left right : HufTree)
deriving DecidableEq, Repr, Inhabited

end Sys2Proof
end

