-- ==== Sys2Proof/Config.lean ====
section
/-! DEFINITION. What an implementation fixes (the parameters of spec/00_scope.md R6 and the OPEN parameters of
spec/92_eei_decisions.md) and the free values of the model: opaque constants without a body. -/

namespace Sys2Proof

/-- The two kinds of an external access, of `BusOK(addr, kind)` (spec/20_memory.md R66). -/
inductive AccessKind where
  | read | write
deriving DecidableEq, Repr

/-- External addresses `lo ≤ a < hi` that do not answer an access of this kind. -/
structure BusHole where
  lo : Nat
  hi : Nat
  kind : AccessKind
deriving DecidableEq, Repr

/-- The implementation and platform parameters (R6, R66, R70, R295). `BusOK(addr, kind)` is held as plain data: the
list of the address ranges for which it is false, so every predicate on the 2^32 addresses can be given. -/
structure Params where
  maxPixels : Nat
  maxTreeDepth : Nat
  maxNodes : Nat
  maxSymbols : Nat
  maxCodeLen : Nat
  maxTrieNodes : Nat
  numWorkers : Nat
  mmioBase : Nat
  busHoles : List BusHole
  /-- `P_MMIO_BAD_ACCESS_ERROR`: true for bus_error, false for none (R70). -/
  badAccessError : Bool
  /-- `P_IRQ_ROUTE`: the number of the platform's interrupt input the line goes to (R295,
  notes/assumptions/17.md). -/
  irqRoute : Nat
deriving DecidableEq, Repr

/-- The test configuration TC of spec/95_test_vectors.md: the parameters of the machine that `State.reset` starts
(DESIGN CHOICE, unsafe, notes/assumptions/1.md). Every statement is about every value of the parameters. -/
def Params.tc : Params where
  maxPixels := 65536
  maxTreeDepth := 16
  maxNodes := 65536
  maxSymbols := 4096
  maxCodeLen := 32
  maxTrieNodes := 8191
  numWorkers := 4
  mmioBase := 0
  busHoles := []
  badAccessError := false
  irqRoute := 0

namespace Config

/-- The n-th unspecified choice of the block (R66, R67, R262, R290): no body, so nothing constrains it
(DESIGN CHOICE, safe, notes/assumptions/3.md). -/
opaque freeNat : Nat → Nat

/-- The n-th unspecified choice of what a host's read returns while a command runs (R75, R325): no body either, and a
supply of its own, so that a read has no part in what the block chooses (DESIGN CHOICE, safe, notes/assumptions/3.md). -/
opaque freeRead : Nat → Nat

/-- What the SAT store holds at an index it was not written at (R49: unspecified; DESIGN CHOICE, safe,
notes/assumptions/4.md). -/
opaque unspecSat : Nat → SatCell

/-- What the node table holds at an index it was not written at (R49: unspecified; DESIGN CHOICE, safe,
notes/assumptions/4.md). -/
opaque unspecNode : Nat → NodeRec

/-- What the symbol table holds at an index it was not written at (R49: unspecified; DESIGN CHOICE, safe,
notes/assumptions/4.md). -/
opaque unspecSym : Nat → SymEntry

/-- The code of a colour that no symbol-table entry has (R213: such a leaf does not exist; no reachable state asks;
DEDUCED, safe, notes/assumptions/5.md). -/
opaque unspecCode : Color → List Bool

end Config

end Sys2Proof
end

