-- ==== Sys2Proof/Syntax.lean ====
section
/-! DEFINITION. The command set (spec/30_encoding.md R92), the register names of the MMIO window
(spec/10_state.md R20), the parts of a command word (R91) and the operations a host program is written in
(R95, R96). Commands carry no operands: they take them from registers (R94). -/

namespace Sys2Proof

/-- The sixteen commands of the opcode map (R92), one constructor per row of spec/opcode_table.json. -/
inductive Instr where
  | nop
  | satBuild
  | regionAvg
  | regionHomog
  | qtBuild
  | hufBuild
  | encode
  | decode
  | reconstruct
  | compress
  | decompress
  | inspectSat
  | inspectNode
  | inspectSym
  | abort
  | softReset
deriving DecidableEq, Repr

/-- The registers of the MMIO window, in the order of R20's table. -/
inductive Reg where
  | id | ctrl | status | cmd
  | imgW | imgH | minDepth | maxDepth | lossPercent | maxConcDepth
  | pixBase | outBase | outCap | cntBase | cntLen
  | qX | qY | qW | qH | qColor | qIndex
  | res0 | res1 | res2 | res3 | res4 | res5
  | valid | satW | satH | treeW | treeH
  | nodeCount | leafCount | symCount | outLen | payloadBits | errInfo
  | cap0 | cap1 | cap2 | cap3 | cap4
deriving DecidableEq, Repr

/-- The two fields of format `CMD` (R91): OPCODE in bits [7:0], RSVD in bits [31:8]. -/
structure CommandWord where
  opcode : BitVec 8
  rsvd : BitVec 24
deriving DecidableEq, Repr

/-- One operation of a host program (R95) or one of its pseudo-instructions (R96). `EXPECT` is test notation with
no encoding and has no constructor. -/
inductive HostStmt where
  /-- `WR <REG>, <value>`. -/
  | wr (r : Reg) (v : Word)
  /-- `RD <REG>`; the program records the value. -/
  | rd (r : Reg)
  /-- `MEM <addr>: <b0> <b1> ...`. -/
  | mem (addr : Nat) (bytes : List Byte)
  /-- `CMD <MNEMONIC>`. -/
  | cmd (i : Instr)
  /-- `WAIT`: read STATUS until BUSY reads 0. -/
  | wait
  /-- `RUN <MNEMONIC>`. -/
  | run (i : Instr)
  /-- `ACK`: write 0x0000000A to STATUS. -/
  | ack
deriving DecidableEq, Repr

end Sys2Proof
end

