-- ==== Sys2Proof/WellFormed.lean ====
section
/-! DEFINITION. What is well formed: a command word (spec/30_encoding.md R91, R93) and the parameters of an
implementation (spec/00_scope.md R6). A command has no operand fields, so a command is well formed when its word is. -/

namespace Sys2Proof

/-- Every defined command has bits [31:8] zero (R91, R93). -/
def CommandWord.rsvdOk (c : CommandWord) : Bool := c.rsvd == 0

/-- The opcodes of the map: 0x00 to 0x0E and 0xFF; 0x0F to 0xFE are reserved (R92, R93). -/
def CommandWord.opcodeOk (c : CommandWord) : Bool := c.opcode.toNat ≤ 0x0E || c.opcode == 0xFF

/-- A legal command word (R91 to R93). -/
def CommandWord.wellFormed (c : CommandWord) : Bool := c.rsvdOk && c.opcodeOk

/-- The two fields of a 32-bit command word (R91). -/
def CommandWord.ofWord (v : Word) : CommandWord := ⟨v.extractLsb' 0 8, v.extractLsb' 8 24⟩

/-- The image capacity keeps every SAT entry inside a 32-bit signed accumulator (R6). -/
def Params.pixelsOk (p : Params) : Bool := 1 ≤ p.maxPixels && p.maxPixels ≤ 8421504

/-- `1 ≤ P_MAX_TREE_DEPTH ≤ 255` (R6). -/
def Params.depthOk (p : Params) : Bool := 1 ≤ p.maxTreeDepth && p.maxTreeDepth ≤ 255

/-- `1 ≤ P_MAX_NODES ≤ 2^26` (R6). -/
def Params.nodesOk (p : Params) : Bool := 1 ≤ p.maxNodes && p.maxNodes ≤ 2 ^ 26

/-- `1 ≤ P_MAX_SYMBOLS ≤ 2^24` (R6). -/
def Params.symbolsOk (p : Params) : Bool := 1 ≤ p.maxSymbols && p.maxSymbols ≤ 2 ^ 24

/-- `1 ≤ P_MAX_CODE_LEN ≤ 64` (R6). -/
def Params.codeLenOk (p : Params) : Bool := 1 ≤ p.maxCodeLen && p.maxCodeLen ≤ 64

/-- `2·P_MAX_SYMBOLS − 1 ≤ P_MAX_TRIE_NODES ≤ 2^31` (R6). -/
def Params.trieOk (p : Params) : Bool := 2 * p.maxSymbols - 1 ≤ p.maxTrieNodes && p.maxTrieNodes ≤ 2 ^ 31

/-- `P_NUM_WORKERS ≥ 1` (R6). -/
def Params.workersOk (p : Params) : Bool := 1 ≤ p.numWorkers

/-- MMIO_BASE is 4 KiB aligned (R6). -/
def Params.mmioOk (p : Params) : Bool := p.mmioBase % 4096 == 0

/-- The constraint column of R6's table, all rows together. -/
def Params.wellFormed (p : Params) : Bool :=
  p.pixelsOk && p.depthOk && p.nodesOk && p.symbolsOk && p.codeLenOk && p.trieOk && p.workersOk && p.mmioOk

end Sys2Proof
end

