-- ==== Sys2Proof/Decode.lean ====
section
/-! DEFINITION. The command decoder (spec/30_encoding.md R90 to R93), total on every 32-bit word and rejecting by
name, and the encoder, both from the opcode map R92. -/

namespace Sys2Proof

/-- Why a word is not a legal command (R93). -/
inductive DecodeError where
  /-- Bits [31:8] are not zero. -/
  | reservedBits
  /-- OPCODE is in 0x0F .. 0xFE. -/
  | reservedOpcode
deriving DecidableEq, Repr

/-- The command of an opcode byte (R92); `none` for a reserved opcode. -/
def opcodeCommand (o : BitVec 8) : Option Instr :=
  match o.toNat with
  | 0x00 => some .nop
  | 0x01 => some .satBuild
  | 0x02 => some .regionAvg
  | 0x03 => some .regionHomog
  | 0x04 => some .qtBuild
  | 0x05 => some .hufBuild
  | 0x06 => some .encode
  | 0x07 => some .decode
  | 0x08 => some .reconstruct
  | 0x09 => some .compress
  | 0x0A => some .decompress
  | 0x0B => some .inspectSat
  | 0x0C => some .inspectNode
  | 0x0D => some .inspectSym
  | 0x0E => some .abort
  | 0xFF => some .softReset
  | _ => none

/-- Decode a command word: RSVD must be 0 and OPCODE must be in the opcode map (R91 to R93). -/
def decode (v : Word) : Except DecodeError Instr :=
  let c := CommandWord.ofWord v
  if c.rsvdOk then
    match opcodeCommand c.opcode with
    | some i => .ok i
    | none => .error .reservedOpcode
  else .error .reservedBits

/-- The OPCODE byte of a command (R92). -/
def opcodeOf : Instr → BitVec 8
  | .nop => 0x00
  | .satBuild => 0x01
  | .regionAvg => 0x02
  | .regionHomog => 0x03
  | .qtBuild => 0x04
  | .hufBuild => 0x05
  | .encode => 0x06
  | .decode => 0x07
  | .reconstruct => 0x08
  | .compress => 0x09
  | .decompress => 0x0A
  | .inspectSat => 0x0B
  | .inspectNode => 0x0C
  | .inspectSym => 0x0D
  | .abort => 0x0E
  | .softReset => 0xFF

/-- The one exact word of a command: 24 zero bits, then OPCODE (R91). -/
def encode (i : Instr) : Word := (0 : BitVec 24) ++ opcodeOf i

/-- The instruction the decoder reads from an opcode-table word of `nbits` bits; the bits above are 0. -/
def decodeTableWord (nbits w : Nat) : Option Instr :=
  match decode (BitVec.ofNat 32 (w % 2 ^ nbits)) with
  | .ok i => some i
  | .error _ => none

end Sys2Proof
end

