-- ==== Sys2Proof/Machine/State.lean ====
section
/-! DEFINITION. The state of the QTC codec block, with the host's side of the interface: every register of
spec/10_state.md R20 that holds a value, the internal memories R50 to R55, the in-flight state R57, external memory
(spec/20_memory.md R60), and, as the model's own fields, the agenda of what moves next, the values the host read and
the counter of the free values. Plain data only. -/

namespace Sys2Proof.Machine

/-- The RW configuration and operand registers (R26 to R35): exactly the registers a command samples when it is
accepted (spec/60_exceptions.md R283). The narrow ones hold exactly their field's bits (R43). -/
structure Operands where
  imgW : Word
  imgH : Word
  minDepth : BitVec 8
  maxDepth : BitVec 8
  lossPercent : BitVec 8
  maxConcDepth : BitVec 8
  pixBase : Word
  outBase : Word
  outCap : Word
  cntBase : Word
  cntLen : Word
  qX : Word
  qY : Word
  qW : Word
  qH : Word
  qColor : BitVec 24
  qIndex : Word
deriving DecidableEq, Repr

/-- STATUS (R23) without ERR, which always equals `ERR_CODE != 0` and is computed when STATUS is read. -/
structure Status where
  busy : Bool
  done : Bool
  ovr : Bool
  stage : BitVec 4
  errCode : BitVec 8
deriving DecidableEq, Repr

/-- VALID (R37). -/
structure Valid where
  satV : Bool
  treeV : Bool
  freqV : Bool
  codeV : Bool
  treeDec : Bool
deriving DecidableEq, Repr

/-- RES0 to RES5 (R36). -/
structure Results where
  res0 : Word
  res1 : Word
  res2 : Word
  res3 : Word
  res4 : Word
  res5 : Word
deriving DecidableEq, Repr

/-- The dimension and count registers (R38 to R41). -/
structure Counters where
  satW : Word
  satH : Word
  treeW : Word
  treeH : Word
  nodeCount : Word
  leafCount : Word
  symCount : Word
  outLen : Word
  payloadBits : Word
deriving DecidableEq, Repr

/-- External memory: the bytes that differ from what an unlisted address reads as, by rising address (R60). -/
abbrev Memory := List Host.Cell

/-- The error kinds (spec/60_exceptions.md R281). -/
inductive ErrCode where
  | ioFailure | aborted | malformed | badConfig | badSequence | capacity | illegalCommand | badQuery
deriving DecidableEq, Repr

/-- An error with its information word (R281). -/
structure Err where
  code : ErrCode
  info : Word
deriving DecidableEq, Repr

/-- A build of QT_BUILD in flight (R57, spec/41_quadtree.md R161, R170, R171): the tasks, the node count, the shared
frequency table, and the error that stopped the dispatching. -/
structure BuildRun where
  task : Task
  count : Nat
  freq : List SymEntry
  failure : Option Err
deriving DecidableEq, Repr

/-- A move of the host, of the platform or of the engine. The agenda lists the moves in the order in which the
interconnect and the engine make them (spec/00_scope.md R12: host and engine interleave freely; DESIGN CHOICE,
notes/assumptions/6.md and 7.md). -/
inductive Event where
  /-- A write access of `size` bytes at a bus address: a register write when it is a 32-bit aligned access of the
  window (R20, spec/20_memory.md R70). -/
  | write (addr size : Nat) (v : Word)
  /-- A read access; the host records the value. -/
  | read (addr size : Nat)
  /-- The host stores bytes in external memory from `addr` upward (spec/30_encoding.md R95 `MEM`). -/
  | store (addr : Nat) (bytes : List Byte)
  /-- The host loads one byte of external memory and records it. -/
  | load (addr : Nat)
  /-- The host's `WAIT` loop (spec/30_encoding.md R96). -/
  | wait
  /-- The engine's turn. -/
  | engine
  /-- The platform asserts the reset input `rst` (spec/70_reset_and_hazards.md R320). -/
  | rst
deriving DecidableEq, Repr

/-- The whole machine. -/
structure State where
  /-- The parameters of this implementation (spec/00_scope.md R6); no step changes them. -/
  par : Params
  /-- CTRL.IRQ_EN (R22). -/
  irqEn : Bool
  /-- STATUS (R23, R24). -/
  status : Status
  /-- CMD: the last accepted or SOFT_RESET word (R25). -/
  cmd : Word
  /-- The RW configuration and operand registers (R26 to R35). -/
  cfg : Operands
  /-- RES0 to RES5 (R36). -/
  res : Results
  /-- VALID (R37). -/
  valid : Valid
  /-- SAT_W to PAYLOAD_BITS (R38 to R41). -/
  cnt : Counters
  /-- ERR_INFO (R42). -/
  errInfo : Word
  /-- The hidden snapshot `S[...]` of the running command (R57, spec/60_exceptions.md R283). -/
  snap : Operands
  /-- The hidden pending-abort flag (R57, spec/60_exceptions.md R288). -/
  pendingAbort : Bool
  /-- The bit cursor of ENCODE or DECODE (R57, spec/43_bitstream.md R212). -/
  cursor : Nat
  /-- The task queue, the recursion stacks and the joins of the build workers (R57); none where no QT_BUILD is running. -/
  pool : Option BuildRun
  /-- STAGE as it was before the running command was accepted: what a STATUS read while BUSY may still return
  (spec/70_reset_and_hazards.md R325). The model's own field. -/
  stageBefore : BitVec 4
  /-- The SAT store, row-major (R50); empty while its contents are unspecified. -/
  sat : List SatCell
  /-- The node table, in pre-order (R51); empty while its contents are unspecified. -/
  nodes : List NodeRec
  /-- The symbol table (R53); empty while its contents are unspecified. -/
  syms : List SymEntry
  /-- The arena of the decoder trie, which exists only during DECODE (R55). -/
  trie : List TrieNode
  /-- External memory (spec/20_memory.md R60). -/
  mem : Memory
  /-- What moves next, and in which order. The model's own field. -/
  agenda : List Event
  /-- The values the host recorded by its reads, newest first (spec/30_encoding.md R95 `RD`). The model's own field. -/
  reads : List Word
  /-- How many free values the block has drawn. The model's own field. -/
  freeIx : Nat
  /-- How many free values the host's reads have drawn. The model's own field. -/
  readIx : Nat
deriving DecidableEq, Repr

/-- Why the machine stops with a fault. No command of the block ever does: its errors are completions. -/
inductive Fault where
  /-- The host stores or loads at an external address at or above 2^32, which does not exist (R60). Raised by a host
  `store` or `load` event. Safe: the machine stops where no hardware access exists. -/
  | noSuchAddress (addr : Nat)
deriving DecidableEq, Repr

/-- Why a step is refused. -/
inductive Refusal where
  /-- The arm of an instruction that has no meaning yet; no arm answers with it. Safe. -/
  | notModelled (mnemonic : String)
  /-- The host made an MMIO access that is not 32 bits wide or not aligned; the spec asks a model to refuse such a
  program (spec/20_memory.md R70, spec/93_implementation_defined.md item 17). `busError` is whether the interconnect
  also signals a bus error (`P_MMIO_BAD_ACCESS_ERROR`). Safe: the machine stops where the hardware goes on. -/
  | badMmioAccess (busError : Bool)
  /-- The host made an MMIO access outside the block's 4 KiB window: another device's (R20). Safe. -/
  | outsideWindow (addr : Nat)
  /-- The host wrote a byte of a buffer of the running command; a model's host has no such move (R76,
  spec/93_implementation_defined.md item 5). Safe for the model; programs must respect it. -/
  | bufferWriteWhileBusy (addr : Nat)
deriving DecidableEq, Repr

/-- The reset values of the configuration and operand registers (R20's table): all 0 but MAX_CONC_DEPTH = 1. -/
def Operands.reset : Operands where
  imgW := 0
  imgH := 0
  minDepth := 0
  maxDepth := 0
  lossPercent := 0
  maxConcDepth := 1
  pixBase := 0
  outBase := 0
  outCap := 0
  cntBase := 0
  cntLen := 0
  qX := 0
  qY := 0
  qW := 0
  qH := 0
  qColor := 0
  qIndex := 0

/-- STATUS after reset: 0. -/
def Status.reset : Status := ⟨false, false, false, 0, 0⟩

/-- VALID after reset: 0. -/
def Valid.reset : Valid := ⟨false, false, false, false, false⟩

/-- RES0 to RES5 after reset: 0. -/
def Results.reset : Results := ⟨0, 0, 0, 0, 0, 0⟩

/-- The dimension and count registers after reset: 0. -/
def Counters.reset : Counters := ⟨0, 0, 0, 0, 0, 0, 0, 0, 0⟩

/-- The block right after reset with the parameters `p` (spec/70_reset_and_hazards.md R320): every register at its
table value, no in-flight state, internal memories unspecified, idle; external memory with nothing listed and nothing
on the agenda. -/
def State.resetWith (p : Params) : State where
  par := p
  irqEn := false
  status := .reset
  cmd := 0
  cfg := .reset
  res := .reset
  valid := .reset
  cnt := .reset
  errInfo := 0
  snap := .reset
  pendingAbort := false
  cursor := 0
  pool := none
  stageBefore := 0
  sat := []
  nodes := []
  syms := []
  trie := []
  mem := []
  agenda := []
  reads := []
  freeIx := 0
  readIx := 0

/-- The machine right after reset, with the parameters of the spec's test configuration. -/
def State.reset : State := .resetWith .tc

end Sys2Proof.Machine
end

