-- ==== Sys2Proof/Machine/Flags.lean ====
section
/-! DEFINITION. The flag words: STATUS and VALID as the host reads them, the STAGE codes, the write-1-to-clear rule,
which VALID bits a stage clears and sets (spec/10_state.md R23, R24, R37, spec/60_exceptions.md R285) and the interrupt
line (R295). -/

namespace Sys2Proof.Machine

/-- The units a command runs, in the order of spec/30_encoding.md R92's stage column; the query commands each have
a stage of their own with the one code QUERY. -/
inductive StageId where
  | sat | qt | huf | enc | dec | recon
  | regionAvg | regionHomog | inspectSat | inspectNode | inspectSym
deriving DecidableEq, Repr

/-- The STAGE codes (R24). -/
def StageId.code : StageId → BitVec 4
  | .sat => 1
  | .qt => 2
  | .huf => 3
  | .enc => 4
  | .dec => 5
  | .recon => 6
  | .regionAvg => 7
  | .regionHomog => 7
  | .inspectSat => 7
  | .inspectNode => 7
  | .inspectSym => 7

/-- The stages of a command, in order (R92, spec/44_reconstruct_control.md R260, R261). NOP, ABORT and SOFT_RESET have
none. -/
def plan : Instr → List StageId
  | .nop => []
  | .satBuild => [.sat]
  | .regionAvg => [.regionAvg]
  | .regionHomog => [.regionHomog]
  | .qtBuild => [.qt]
  | .hufBuild => [.huf]
  | .encode => [.enc]
  | .decode => [.dec]
  | .reconstruct => [.recon]
  | .compress => [.sat, .qt, .huf, .enc]
  | .decompress => [.dec, .recon]
  | .inspectSat => [.inspectSat]
  | .inspectNode => [.inspectNode]
  | .inspectSym => [.inspectSym]
  | .abort => []
  | .softReset => []

/-- The STAGE code of a plan's first stage; 0 where there is none (R24). -/
def firstCode : List StageId → BitVec 4
  | [] => 0
  | k :: _ => k.code

/-- The plan of a command word; a word that is no legal command has no stage. -/
def wordPlan (v : Word) : List StageId :=
  match decode v with
  | .ok i => plan i
  | .error _ => []

/-- STATUS.ERR is always `ERR_CODE != 0` (R23). -/
def Status.err (t : Status) : Bool := t.errCode != 0

/-- STATUS as a word: [0] BUSY, [1] DONE, [2] ERR, [3] OVR, [7:4] STAGE, [15:8] ERR_CODE (R23). -/
def Status.word (t : Status) : Word :=
  (0 : BitVec 16) ++ t.errCode ++ t.stage ++ BitVec.ofBool t.ovr ++ BitVec.ofBool t.err ++ BitVec.ofBool t.done ++
    BitVec.ofBool t.busy

/-- A write to STATUS: writing 1 clears DONE (bit 1) and OVR (bit 3), writing 0 leaves them; nothing else changes
(R23). -/
def Status.w1c (t : Status) (v : Word) : Status :=
  { t with done := t.done && !v.getLsbD 1, ovr := t.ovr && !v.getLsbD 3 }

/-- VALID as a word: [0] SAT_V, [1] TREE_V, [2] FREQ_V, [3] CODE_V, [4] TREE_DEC (R37). -/
def Valid.word (f : Valid) : Word :=
  (0 : BitVec 27) ++ BitVec.ofBool f.treeDec ++ BitVec.ofBool f.codeV ++ BitVec.ofBool f.freqV ++
    BitVec.ofBool f.treeV ++ BitVec.ofBool f.satV

/-- The VALID bits a stage clears when it starts (spec/60_exceptions.md R285). -/
def StageId.clearValid : StageId → Valid → Valid
  | .sat, f => { f with satV := false }
  | .qt, f => { f with treeV := false, freqV := false, codeV := false, treeDec := false }
  | .huf, f => { f with codeV := false }
  | .dec, f => { f with treeV := false, freqV := false, codeV := false, treeDec := false }
  | .enc, f => f
  | .recon, f => f
  | .regionAvg, f => f
  | .regionHomog, f => f
  | .inspectSat, f => f
  | .inspectNode, f => f
  | .inspectSym, f => f

/-- The VALID bits a stage sets at its success (spec/60_exceptions.md R285). -/
def StageId.setValid : StageId → Valid → Valid
  | .sat, f => { f with satV := true }
  | .qt, f => { f with treeV := true, freqV := true }
  | .huf, f => { f with codeV := true }
  | .dec, f => { f with treeV := true, codeV := true, treeDec := true }
  | .enc, f => f
  | .recon, f => f
  | .regionAvg, f => f
  | .regionHomog, f => f
  | .inspectSat, f => f
  | .inspectNode, f => f
  | .inspectSym, f => f

/-- The prerequisite mask of ENCODE (spec/43_bitstream.md R214): 0x02 for TREE_V = 0, 0x08 for CODE_V = 0, 0x10 for
TREE_DEC = 1. -/
def Valid.encodeMask (f : Valid) : Word :=
  (if f.treeV then 0 else 0x02) ||| (if f.codeV then 0 else 0x08) ||| (if f.treeDec then 0x10 else 0)

/-- The interrupt line: `irq = CTRL.IRQ_EN & STATUS.DONE` (spec/60_exceptions.md R295). -/
def State.irq (s : State) : Bool := s.irqEn && s.status.done

/-- The interrupt output as the platform sees it: the input it is routed to (`P_IRQ_ROUTE`) and its level (R295). -/
def State.irqOut (s : State) : Nat × Bool := (s.par.irqRoute, s.irq)

end Sys2Proof.Machine
end

