-- ==== Sys2Proof/Machine/Ops.lean ====
section
/-! DEFINITION. The named operations: external memory (spec/20_memory.md R60 to R67), the free choices, acceptance of
a command, completion with an error (the block's trap entry, spec/60_exceptions.md R286, R291), completion with
success (R287), acknowledgement (R292), the reset (spec/70_reset_and_hazards.md R320), and a stage's start. -/

namespace Sys2Proof.Machine

/-! ## External memory -/

/-- What an unlisted address reads as: 0x00, as in the programs of spec/95_test_vectors.md section 3 (DESIGN CHOICE,
unsafe, notes/assumptions/2.md). -/
def Memory.unlisted : Byte := 0

/-- One byte of external memory. -/
def Memory.read : Memory → Nat → Byte
  | [], _ => Memory.unlisted
  | (b, v) :: m, a => if a = b then v else Memory.read m a

/-- Store one byte, keeping the canonical form: a byte equal to what an unlisted address reads as is not listed. -/
def Memory.write : Memory → Nat → Byte → Memory
  | [], a, v => if v = Memory.unlisted then [] else [(a, v)]
  | (b, w) :: m, a, v =>
    if a < b then (if v = Memory.unlisted then (b, w) :: m else (a, v) :: (b, w) :: m)
    else if a = b then (if v = Memory.unlisted then m else (a, v) :: m)
    else (b, w) :: Memory.write m a v

/-- The canonical form: addresses strictly rising, and no entry equal to what an unlisted address reads as. -/
def Memory.wf : Memory → Bool
  | [] => true
  | (a, v) :: m => v != Memory.unlisted && m.all (fun c => a < c.1) && Memory.wf m

/-- Store a list of (address, byte) pairs, first to last. -/
def Memory.writeAll (m : Memory) (ws : List Host.Cell) : Memory :=
  ws.foldl (fun m c => m.write c.1 c.2) m

/-- The (address, byte) pairs of `MemWrite(a, n, bytes)`: `bytes[i]` goes to address a + i (R64). -/
def cellsAt (a : Nat) : List Byte → List Host.Cell
  | [] => []
  | v :: vs => (a, v) :: cellsAt (a + 1) vs

/-- The size of the external address space in bytes: ADDR_WIDTH = 32 (R60, spec/00_scope.md R6). -/
def addressSpace : Nat := 2 ^ 32

end Sys2Proof.Machine

/-- `BusOK(addr, kind)` (spec/20_memory.md R66): whether an external access is answered. -/
def Sys2Proof.Params.busOK (p : Params) (a : Nat) (k : AccessKind) : Bool :=
  !p.busHoles.any (fun h => h.kind == k && h.lo ≤ a && a < h.hi)

namespace Sys2Proof.Machine

/-! ## Free choices -/

/-- Draw the block's next free value and advance the counter. -/
def draw (s : State) : Nat × State := (Config.freeNat s.freeIx, { s with freeIx := s.freeIx + 1 })

/-- The candidate of `x` and `xs` that a free value names; every one of them can be. -/
def pick {α : Type} (x : α) (xs : List α) (n : Nat) : α :=
  match xs with
  | [] => x
  | _ :: _ => (x :: xs).getD (n % (xs.length + 1)) x

/-- An unspecified choice among `x` and `xs`. Where there is only one candidate nothing is drawn. -/
def choose {α : Type} (x : α) (xs : List α) (s : State) : α × State :=
  match xs with
  | [] => (x, s)
  | _ :: _ => (pick x xs (draw s).1, (draw s).2)

/-- An unspecified choice of what a host's read returns, from the supply of the reads. -/
def chooseRead {α : Type} (x : α) (xs : List α) (s : State) : α × State :=
  match xs with
  | [] => (x, s)
  | _ :: _ => (pick x xs (Config.freeRead s.readIx), { s with readIx := s.readIx + 1 })

/-- Each of these bytes is stored or left as it was, an unspecified choice per byte (spec/20_memory.md R67;
DESIGN CHOICE, safe, notes/assumptions/12.md). -/
def scramble : List Host.Cell → State → State
  | [], s => s
  | (a, v) :: ws, s =>
    let s' := (draw s).2
    scramble ws (if (draw s).1 % 2 = 1 then { s' with mem := s'.mem.write a v } else s')

/-! ## Errors and completion -/

/-- STATUS.ERR_CODE of an error kind (R281). -/
def ErrCode.code : ErrCode → BitVec 8
  | .ioFailure => 1
  | .aborted => 2
  | .malformed => 3
  | .badConfig => 4
  | .badSequence => 5
  | .capacity => 6
  | .illegalCommand => 7
  | .badQuery => 8

/-- IO_FAILURE with an address or a size, of which the information word holds the low 32 bits. -/
def Err.io (n : Nat) : Err := ⟨.ioFailure, BitVec.ofNat 32 n⟩

/-- IO_FAILURE with a size, saturated: `min(size, 0xFFFFFFFF)` (R281). -/
def Err.ioSize (n : Nat) : Err := .io (min n 0xFFFFFFFF)

/-- CAPACITY with the number of the limit (R281). -/
def Err.capacity (n : Nat) : Err := ⟨.capacity, BitVec.ofNat 32 n⟩

/-- MALFORMED with a container byte offset (R281). -/
def Err.malformed (off : Nat) : Err := ⟨.malformed, BitVec.ofNat 32 off⟩

/-- The completion every command ends with (R286, R287): ERR_INFO, ERR_CODE, BUSY and DONE in one atomic step; STAGE
keeps its code. The in-flight state of the command is discarded: the abort request, the bit cursor (spec/43_bitstream.md
R210), the trie (spec/10_state.md R55) and the worker pool (R57; DEDUCED, safe, notes/assumptions/8.md). -/
def completeWith (code : BitVec 8) (info : Word) (s : State) : State :=
  { s with
    errInfo := info
    status := { s.status with errCode := code, busy := false, done := true }
    pendingAbort := false
    cursor := 0
    trie := []
    pool := none }

/-- `raise Error(CODE, info)` (R286): an abort accepted while BUSY turns every error into ABORTED(0). -/
def raiseError (e : Err) (s : State) : State :=
  if s.pendingAbort then completeWith ErrCode.aborted.code 0 s else completeWith e.code.code e.info s

/-- Completion with success (R287); an abort accepted while BUSY makes it ABORTED(0) instead. -/
def completeOk (s : State) : State :=
  if s.pendingAbort then completeWith ErrCode.aborted.code 0 s else completeWith 0 0 s

/-- The host's acknowledgement and every other write to STATUS (R292, spec/10_state.md R23): ERR_CODE and ERR_INFO
stay. -/
def writeStatus (v : Word) (s : State) : State := { s with status := s.status.w1c v }

/-! ## Acceptance and reset -/

/-- Acceptance of a CMD write of word `v` (R282), with the configuration snapshot (R283), in one atomic step. -/
def accept (v : Word) (s : State) : State :=
  { s with
    cmd := v
    status := { s.status with busy := true, done := false, errCode := 0, stage := firstCode (wordPlan v) }
    stageBefore := s.status.stage
    snap := s.cfg
    pendingAbort := false }

/-- The reset of spec/70_reset_and_hazards.md R320. External memory, the agenda, the host's records and the supplies of
free values are no part of the block and stay. -/
def resetBlock (s : State) : State :=
  { State.resetWith s.par with
    mem := s.mem
    agenda := s.agenda
    reads := s.reads
    freeIx := s.freeIx
    readIx := s.readIx }

/-! ## A stage's start -/

/-- What a stage's start leaves of the internal memory whose VALID bit it clears: nothing that is specified (R285,
R289). The trie begins as its root alone (spec/43_bitstream.md R220). -/
def StageId.forget : StageId → State → State
  | .sat, s => { s with sat := [] }
  | .qt, s => { s with nodes := [], syms := [] }
  | .huf, s => { s with syms := s.syms.map (fun e => { e with code := [] }) }
  | .dec, s => { s with nodes := [], syms := [], trie := [⟨none, none, none⟩] }
  | .enc, s => s
  | .recon, s => s
  | .regionAvg, s => s
  | .regionHomog, s => s
  | .inspectSat, s => s
  | .inspectNode, s => s
  | .inspectSym, s => s

/-- A stage starts: STAGE takes its code (spec/10_state.md R24) and its VALID bits are cleared (R284 step 2). Its bit
cursor is 0, and the trie and the pool of an earlier stage are no more (spec/43_bitstream.md R210, spec/10_state.md R55,
R57). -/
def startStage (k : StageId) (s : State) : State :=
  k.forget { s with
    status := { s.status with stage := k.code }
    valid := k.clearValid s.valid
    cursor := 0
    trie := []
    pool := none }

/-- What a stage's body ends with: the state after its success writes, or an error in the state it leaves. -/
inductive StageOut where
  | ok (s : State)
  | err (e : Err) (s : State)
deriving DecidableEq, Repr

/-- The first failing check of an ordered list (R284): a check is the condition that fails it, with its error. -/
def firstFailure : List (Bool × Err) → Option Err
  | [] => none
  | (bad, e) :: cs => if bad then some e else firstFailure cs

/-- A command ends: success or error, by the one completion operation. -/
def finish : StageOut → State
  | .ok s => completeOk s
  | .err e s => raiseError e s

/-- Write RES0 to RES5 at a successful completion; the ones a command defines no value for are written 0 (R36). -/
def writeResults (r : Results) (s : State) : State := { s with res := r }

end Sys2Proof.Machine
end

