-- ==== Sys2Proof/Machine/Operands.lean ====
section
/-! DEFINITION. The operands: colours and pixels in external memory (spec/00_scope.md R10, spec/20_memory.md R61),
rectangles and their quadrants (spec/41_quadtree.md R163), the internal memories by index, and the ordered start
checks that several commands share (spec/60_exceptions.md R284). -/

namespace Sys2Proof

/-- The value of a channel. -/
def Rgb.get {α : Type} (v : Rgb α) : Chan → α
  | .r => v.r
  | .g => v.g
  | .b => v.b

/-- One value per channel, computed per channel. -/
def Rgb.ofFn {α : Type} (f : Chan → α) : Rgb α := ⟨f .r, f .g, f .b⟩

/-- The channel index c (R10). -/
def Chan.index : Chan → Nat
  | .r => 0
  | .g => 1
  | .b => 2

/-- `pack(col)`: the 24-bit number 0xRRGGBB (R10). -/
def Rgb.pack (c : Color) : BitVec 24 := c.r ++ c.g ++ c.b

/-- The colour in a 24-bit field 0xRRGGBB (spec/10_state.md R34). -/
def Rgb.unpack (v : BitVec 24) : Color := ⟨v.extractLsb' 16 8, v.extractLsb' 8 8, v.extractLsb' 0 8⟩

/-- Black, (0, 0, 0). -/
def Rgb.black : Color := ⟨0, 0, 0⟩

/-- The pixels of a rectangle, row by row: `x ≤ px < x+w` and `y ≤ py < y+h` (R10). -/
def Rect.pixels (r : Rect) : List (Nat × Nat) :=
  (List.range r.h).flatMap fun j => (List.range r.w).map fun i => (r.x + i, r.y + j)

/-- The number of pixels of a rectangle. -/
def Rect.area (r : Rect) : Nat := r.w * r.h

/-- The four quadrants in their fixed order; the remainder goes to the right and bottom children
(spec/41_quadtree.md R163). -/
def Rect.child0 (r : Rect) : Rect := ⟨r.x, r.y, r.w / 2, r.h / 2⟩

/-- See `Rect.child0`. -/
def Rect.child1 (r : Rect) : Rect := ⟨r.x + r.w / 2, r.y, r.w - r.w / 2, r.h / 2⟩

/-- See `Rect.child0`. -/
def Rect.child2 (r : Rect) : Rect := ⟨r.x, r.y + r.h / 2, r.w / 2, r.h - r.h / 2⟩

/-- See `Rect.child0`. -/
def Rect.child3 (r : Rect) : Rect := ⟨r.x + r.w / 2, r.y + r.h / 2, r.w - r.w / 2, r.h - r.h / 2⟩

/-- The node record of a rectangle at a depth (spec/10_state.md R52). -/
def NodeRec.ofRect (k : NodeKind) (d : Nat) (r : Rect) : NodeRec :=
  ⟨k, d, BitVec.ofNat 32 r.x, BitVec.ofNat 32 r.y, BitVec.ofNat 32 r.w, BitVec.ofNat 32 r.h⟩

/-- The rectangle of a node record. -/
def NodeRec.rect (n : NodeRec) : Rect := ⟨n.x.toNat, n.y.toNat, n.w.toNat, n.h.toNat⟩

/-- The colour of a LEAF record. -/
def NodeRec.leafColor? (n : NodeRec) : Option Color :=
  match n.kind with
  | .leaf c => some c
  | .internal => none

end Sys2Proof

namespace Sys2Proof.Machine

/-- The byte address of channel 0 of pixel (x, y) in a buffer of row width `W` at `B` (spec/20_memory.md R61). -/
def pixAddr (B W x y : Nat) : Nat := B + 3 * (y * W + x)

/-- `pix(B, W, x, y)` (R61). -/
def pix (m : Memory) (B W x y : Nat) : Color :=
  Rgb.ofFn fun c => m.read (pixAddr B W x y + c.index)

/-- The byte addresses a scan of a rectangle reads. -/
def pixelAddrs (B W : Nat) (r : Rect) : List Nat :=
  r.pixels.flatMap fun p => [pixAddr B W p.1 p.2, pixAddr B W p.1 p.2 + 1, pixAddr B W p.1 p.2 + 2]

/-- The addresses of a list that do not answer an access (R66). -/
def busErrors (p : Params) (k : AccessKind) (as : List Nat) : List Nat := as.filter fun a => !p.busOK a k

/-- The node record at an index (spec/10_state.md R51). -/
def State.nodeAt (s : State) (i : Nat) : NodeRec := s.nodes.getD i (Config.unspecNode i)

/-- The symbol-table entry at an index (spec/10_state.md R53). -/
def State.symAt (s : State) (i : Nat) : SymEntry := s.syms.getD i (Config.unspecSym i)

/-- The range check of spec/20_memory.md R65: a buffer must not cross 2^32. -/
def rangeCheck (B : Word) (n : Nat) : Bool × Err :=
  (decide (addressSpace < B.toNat + n), ⟨.ioFailure, B⟩)

/-- BAD_CONFIG with the register's offset (R281). -/
def badConfig (bad : Bool) (off : Word) : Bool × Err := (bad, ⟨.badConfig, off⟩)

/-- BAD_SEQUENCE with the mask of the missing VALID bits (R281). -/
def badSequence (bad : Bool) (mask : Word) : Bool × Err := (bad, ⟨.badSequence, mask⟩)

/-- BAD_QUERY with the register's offset (R281). -/
def badQuery (bad : Bool) (off : Word) : Bool × Err := (bad, ⟨.badQuery, off⟩)

/-- The image size checks SAT_BUILD and REGION_HOMOG begin with (spec/10_state.md R26, spec/60_exceptions.md R284). -/
def imageChecks (p : Params) (o : Operands) : List (Bool × Err) :=
  [ badConfig (o.imgW == 0) 0x010,
    badConfig (o.imgH == 0) 0x014,
    (decide (p.maxPixels < o.imgW.toNat * o.imgH.toNat), .capacity 6) ]

/-- The range check of the input image (spec/20_memory.md R73). -/
def imageRange (o : Operands) : Bool × Err := rangeCheck o.pixBase (3 * (o.imgW.toNat * o.imgH.toNat))

/-- A word from a 24-bit packed colour. -/
def packWord (c : Color) : Word := (0 : BitVec 8) ++ c.pack

end Sys2Proof.Machine
end

