-- ==== Sys2Proof/Machine/Engine.lean ====
section
/-! DEFINITION. The engine sequencer: a stage, running a command's stages one after another
(spec/60_exceptions.md R280, R284, spec/44_reconstruct_control.md R260, R261), and ending an aborted command (R262,
R288). A command runs in one step of the machine; every point at which an ABORT may stop it is an element of
`stopPoints`. -/

namespace Sys2Proof.Machine

/-- What the engine knows of a stage: its identity, its start checks in order (R284), its body, what the work its body
has done leaves when an ABORT stops it part of the way (spec/44_reconstruct_control.md R262), the bytes its body stores
(spec/20_memory.md R67) and the external buffers it touches as (base, size) pairs (R73). -/
structure Stage where
  id : StageId
  checks : State → List (Bool × Err)
  body : State → StageOut
  halt : State → State
  writes : State → List Host.Cell
  buffers : State → List (Nat × Nat)

/-- Run one stage: its start, its checks, its body. The first check that fails raises its error and the body does not
run (R284). -/
def runStage (k : Stage) (s : State) : StageOut :=
  let s1 := startStage k.id s
  match firstFailure (k.checks s1) with
  | some e => .err e s1
  | none => k.body s1

/-- Run the stages of a command in order; the first error ends the command and the effects of the earlier stages
remain (R260). -/
def runStages : List Stage → State → StageOut
  | [], s => .ok s
  | k :: ks, s =>
    match runStage k s with
    | .ok s' => runStages ks s'
    | .err e s' => .err e s'

/-- The points inside the stages of a command at which it can be stopped: each stage that starts, in the state its
start leaves. -/
def stopPoints : List Stage → State → List (Stage × State)
  | [], _ => []
  | k :: ks, s =>
    (k, startStage k.id s) ::
      (match runStage k s with
      | .ok s' => stopPoints ks s'
      | .err _ _ => [])

/-- The bytes the stage may have stored when it is stopped at this point: none where a start check fails. -/
def pendingWrites (p : Stage × State) : List Host.Cell :=
  if (firstFailure (p.1.checks p.2)).isNone then p.1.writes p.2 else []

/-- A stage stopped at a stop point: the VALID bits that its start cleared stay 0; where its checks have passed, its body
has done a part of its work, and each destination byte is stored or not (R262, spec/20_memory.md R67; DEDUCED, safe,
notes/assumptions/8.md). -/
def stoppedAt (p : Stage × State) : State :=
  scramble (pendingWrites p) (if (firstFailure (p.1.checks p.2)).isNone then p.1.halt p.2 else p.2)

/-- An aborted command: it stops at an unspecified point of one of its stages and completes with ABORTED(0) (R262,
R288). -/
def abortRun (ks : List Stage) (s : State) : State :=
  match stopPoints ks (draw s).2 with
  | [] => raiseError ⟨.aborted, 0⟩ s
  | p :: ps => raiseError ⟨.aborted, 0⟩ (stoppedAt (pick p ps (draw s).1))

/-- A command from its acceptance to its completion. -/
def runCommand (ks : List Stage) (s : State) : State :=
  if s.pendingAbort then abortRun ks s else finish (runStages ks s)

/-- A bus error among the failing addresses `a` and `as`: ERR_INFO holds one of them, unspecified which
(spec/20_memory.md R66). -/
def failBus (a : Nat) (as : List Nat) (s : State) : StageOut :=
  .err (.io (choose a as s).1) (choose a as s).2

/-- Store bytes to external memory, or fail with a bus error, after which each of them is stored or not
(spec/20_memory.md R64, R67); `ok` is what the stage does when all of them are stored. -/
def storeAll (ws : List Host.Cell) (s : State) (ok : State → State) : StageOut :=
  match busErrors s.par .write (ws.map (·.1)) with
  | [] => .ok (ok { s with mem := s.mem.writeAll ws })
  | a :: as => .err (.io (choose a as s).1) (scramble ws (choose a as s).2)

end Sys2Proof.Machine
end

