-- ==== Sys2Proof/Machine/Bitstream.lean ====
section
/-! DEFINITION. The bitstream encoder and decoder (spec/43_bitstream.md) over the container format
(spec/30_encoding.md R97 to R110): ENCODE and DECODE. -/

namespace Sys2Proof.Machine

/-! ## Encoding -/

/-- `code(col)`: the code of the symbol-table entry of a colour (R213). -/
def codeFor (es : List SymEntry) (c : Color) : List Bool :=
  match es.find? (fun e => e.color == c) with
  | some e => e.code
  | none => Config.unspecCode c

/-- The payload bits of one node: "0" for INTERNAL, "1" and the leaf's code for LEAF (R215). -/
def nodeBits (es : List SymEntry) (n : NodeRec) : List Bool :=
  match n.kind with
  | .internal => [false]
  | .leaf c => true :: codeFor es c

/-- The payload bit string P: a single pass over the node table in index order (R215). -/
def payload (es : List SymEntry) (ns : List NodeRec) : List Bool := ns.flatMap (nodeBits es)

/-- One code-table entry (spec/30_encoding.md R100). -/
def entryBytes (e : SymEntry) : List Byte :=
  [e.color.r, e.color.g, e.color.b] ++ u16be e.code.length ++ packBits e.code

/-- The container (R100, R214). -/
def container (w h n : Word) (es : List SymEntry) (ns : List NodeRec) : List Byte :=
  s32be w ++ s32be h ++ s32be n ++ es.flatMap entryBytes ++ packBits (payload es ns)

/-- The length of the payload in bits: `NODE_COUNT + Σ len(code)` over the leaves (R106). -/
def payloadLength (es : List SymEntry) (ns : List NodeRec) : Nat :=
  (ns.map fun n => match n.kind with
    | .internal => 1
    | .leaf c => 1 + (codeFor es c).length).sum

/-- The size of the container in bytes (R106). -/
def containerSize (es : List SymEntry) (ns : List NodeRec) : Nat :=
  12 + (es.map fun e => 5 + ceil8 e.code.length).sum + ceil8 (payloadLength es ns)

/-- The bytes ENCODE stores, from CNT_BASE upward (R214). -/
def encodeWrites (s : State) : List Host.Cell :=
  cellsAt s.snap.cntBase.toNat (container s.cnt.treeW s.cnt.treeH s.cnt.symCount s.syms s.nodes)

/-- The success writes of ENCODE (R214); the bit writer's cursor ends at the length of the payload (R212), and the
completion discards it (R210). -/
def encodeDone (s : State) : State :=
  { s with
    cnt := { s.cnt with
      outLen := BitVec.ofNat 32 (containerSize s.syms s.nodes)
      payloadBits := BitVec.ofNat 32 (payloadLength s.syms s.nodes) }
    cursor := payloadLength s.syms s.nodes }

/-- The start checks of ENCODE, the size check last (R214, spec/60_exceptions.md R284). -/
def encodeChecks (s : State) : List (Bool × Err) :=
  [ badSequence (s.valid.encodeMask != 0) s.valid.encodeMask,
    rangeCheck s.snap.cntBase s.snap.cntLen.toNat,
    (decide (s.snap.cntLen.toNat < containerSize s.syms s.nodes), .ioSize (containerSize s.syms s.nodes)) ]

/-- The stage ENC. A host store is refused on the whole container buffer (DESIGN CHOICE, notes/assumptions/13.md). -/
def encStage : Stage where
  id := .enc
  checks := encodeChecks
  body := fun s => storeAll (encodeWrites s) s encodeDone
  halt := id
  writes := encodeWrites
  buffers := fun s => [(s.snap.cntBase.toNat, s.snap.cntLen.toNat)]

/-- ENCODE (R214): write the container of the tree and its codes at CNT_BASE. -/
def execEncode (s : State) : Host.Outcome State Fault Refusal := .next (runCommand [encStage] s)

/-! ## Decoding -/

/-- What DECODE reads: the bytes `C[k]`, `k < len`, at `base` (R220, spec/20_memory.md R62). -/
structure DecEnv where
  par : Params
  mem : Memory
  base : Nat
  len : Nat

/-- Why a decode stops: an error, or a bus error at a container offset. -/
inductive DecErr where
  | err (e : Err)
  | bus (k : Nat)
deriving DecidableEq, Repr

/-- MALFORMED with a container offset. -/
def DecErr.malformed (off : Nat) : DecErr := .err (Err.malformed off)

/-- CAPACITY with the number of the limit. -/
def DecErr.capacity (n : Nat) : DecErr := .err (Err.capacity n)

/-- `byteAt(k)` (R211). -/
def DecEnv.byteAt (e : DecEnv) (k : Nat) : Except DecErr Byte :=
  if e.len ≤ k then .error (.malformed e.len)
  else if e.par.busOK (e.base + k) .read then .ok (e.mem.read (e.base + k))
  else .error (.bus k)

/-- The bytes `C[k .. k+n−1]`, in order. -/
def DecEnv.bytesAt (e : DecEnv) (k : Nat) : Nat → Except DecErr (List Byte)
  | 0 => .ok []
  | n + 1 => do
    let b ← e.byteAt k
    let bs ← e.bytesAt (k + 1) n
    pure (b :: bs)

/-- `readBit()` at cursor `pos`: MSB first (R211). -/
def DecEnv.readBit (e : DecEnv) (pos : Nat) : Except DecErr Bool := do
  let b ← e.byteAt (pos / 8)
  pure (bitOfByte b (pos % 8))

/-- `s32be(byteAt(k .. k+3))` as a word (R221). -/
def DecEnv.wordAt (e : DecEnv) (k : Nat) : Except DecErr Word := do
  let b0 ← e.byteAt k
  let b1 ← e.byteAt (k + 1)
  let b2 ← e.byteAt (k + 2)
  let b3 ← e.byteAt (k + 3)
  pure (wordOfBytes b0 b1 b2 b3)

/-- The header: width, height and table size, with their checks (R221). -/
def DecEnv.parseHeader (e : DecEnv) : Except DecErr (Word × Word × Nat) := do
  let w ← e.wordAt 0
  if w.toInt ≤ 0 then .error (.malformed 0)
  else
    let h ← e.wordAt 4
    if h.toInt ≤ 0 then .error (.malformed 4)
    else
      let n ← e.wordAt 8
      if n.toInt < 0 then .error (.malformed 8)
      else if e.par.maxSymbols < n.toNat then .error (.capacity 2)
      else pure (w, h, n.toNat)

/-- The node of the trie at an index. -/
def trieAt (t : List TrieNode) (i : Nat) : TrieNode := t.getD i ⟨none, none, none⟩

/-- The child of a trie node for a bit (R55). -/
def trieChild (n : TrieNode) : Bool → Option Nat
  | false => n.left
  | true => n.right

/-- The node with its child for a bit set. -/
def trieWithChild (n : TrieNode) (b : Bool) (i : Nat) : TrieNode :=
  match b with
  | false => { n with left := some i }
  | true => { n with right := some i }

/-- Walk the remaining bits of a code from trie node `t`, creating nodes as needed, and plant the colour at the
terminal node (R222). `off` is the offset of the entry. -/
def plant (p : Params) (off : Nat) (col : Color) : List Bool → Nat → List TrieNode → Except DecErr (List TrieNode)
  | [], t, trie =>
    let n := trieAt trie t
    if n.color.isSome || n.left.isSome || n.right.isSome then .error (.malformed off)
    else .ok (trie.set t { n with color := some col })
  | b :: bs, t, trie =>
    let n := trieAt trie t
    if n.color.isSome then .error (.malformed off)
    else
      match trieChild n b with
      | some u => plant p off col bs u trie
      | none =>
        if p.maxTrieNodes ≤ trie.length then .error (.capacity 4)
        else plant p off col bs trie.length (trie.set t (trieWithChild n b trie.length) ++ [⟨none, none, none⟩])

/-- `parseEntry(k, off)`: the entry's symbol, the trie with its code planted and the next offset (R222). -/
def DecEnv.parseEntry (e : DecEnv) (off : Nat) (trie : List TrieNode) :
    Except DecErr (SymEntry × List TrieNode × Nat) := do
  let r ← e.byteAt off
  let g ← e.byteAt (off + 1)
  let b ← e.byteAt (off + 2)
  let l1 ← e.byteAt (off + 3)
  let l0 ← e.byteAt (off + 4)
  let len := l1.toNat * 256 + l0.toNat
  if len = 0 then .error (.malformed off)
  else if e.par.maxCodeLen < len then .error (.capacity 3)
  else
    let bytes ← e.bytesAt (off + 5) (ceil8 len)
    let code := unpackBits bytes len
    let trie' ← plant e.par off ⟨r, g, b⟩ code 0 trie
    pure (⟨⟨r, g, b⟩, 0, code⟩, trie', off + 5 + ceil8 len)

/-- The N entries of the code table (R220). -/
def DecEnv.parseEntries (e : DecEnv) : Nat → Nat → List TrieNode → Except DecErr (List SymEntry × List TrieNode × Nat)
  | 0, off, trie => .ok ([], trie, off)
  | n + 1, off, trie => do
    let (sym, trie', off') ← e.parseEntry off trie
    let (syms, trie'', off'') ← e.parseEntries n off' trie'
    pure (sym :: syms, trie'', off'')

/-- Walk the trie bit by bit from node `t` until a coloured node is reached (R225). The first argument is the number
of bits left in the container: at 0 the next `readBit` is past the available bytes (R211). -/
def DecEnv.walk (e : DecEnv) (trie : List TrieNode) : Nat → Nat → Nat → Except DecErr (Color × Nat)
  | 0, _, _ => .error (.malformed e.len)
  | n + 1, pos, t => do
    let b ← e.readBit pos
    match trieChild (trieAt trie t) b with
    | none => .error (.malformed (pos / 8))
    | some u =>
      match (trieAt trie u).color with
      | some c => pure (c, pos + 1)
      | none => e.walk trie n (pos + 1) u

/-- The LEAF of `decodeNode` after its shape bit: the walk to a colour, then the record (R225). -/
def DecEnv.decodeLeaf (e : DecEnv) (trie : List TrieNode) (d : Nat) (r : Rect) (pos cnt : Nat) :
    Except DecErr (List NodeRec × Nat) := do
  let (c, pos') ← e.walk trie (8 * e.len - pos) pos 0
  if e.par.maxNodes < cnt + 1 then .error (.capacity 1)
  else pure ([NodeRec.ofRect (.leaf c) d r], pos')

/-- `decodeNode(x, y, w, h, d)` at cursor `pos`, with `cnt` records appended so far: its records in pre-order and the
cursor after it (R225). The first argument is `P_MAX_TREE_DEPTH − d`: at 0 the children would be too deep. -/
def DecEnv.decodeNode (e : DecEnv) (trie : List TrieNode) :
    Nat → Nat → Rect → Nat → Nat → Except DecErr (List NodeRec × Nat)
  | 0, d, r, pos, cnt => do
    let shape ← e.readBit pos
    if shape then e.decodeLeaf trie d r (pos + 1) cnt else .error (.capacity 5)
  | f + 1, d, r, pos, cnt => do
    let shape ← e.readBit pos
    if shape then e.decodeLeaf trie d r (pos + 1) cnt
    else if e.par.maxNodes < cnt + 1 then .error (.capacity 1)
    else
      let (n0, p0) ← e.decodeNode trie f (d + 1) r.child0 (pos + 1) (cnt + 1)
      let (n1, p1) ← e.decodeNode trie f (d + 1) r.child1 p0 (cnt + 1 + n0.length)
      let (n2, p2) ← e.decodeNode trie f (d + 1) r.child2 p1 (cnt + 1 + n0.length + n1.length)
      let (n3, p3) ← e.decodeNode trie f (d + 1) r.child3 p2 (cnt + 1 + n0.length + n1.length + n2.length)
      pure (NodeRec.ofRect .internal d r :: (n0 ++ n1 ++ n2 ++ n3), p3)

/-- What a decode gives. -/
structure Decoded where
  w : Word
  h : Word
  syms : List SymEntry
  trie : List TrieNode
  nodes : List NodeRec
  start : Nat
  pos : Nat
deriving DecidableEq, Repr

/-- The whole decode (R220). -/
def DecEnv.decodeAll (e : DecEnv) : Except DecErr Decoded := do
  let (w, h, n) ← e.parseHeader
  let (syms, trie, off) ← e.parseEntries n 12 [⟨none, none, none⟩]
  let (nodes, pos) ← e.decodeNode trie e.par.maxTreeDepth 0 ⟨0, 0, w.toNat, h.toNat⟩ (8 * off) 0
  pure ⟨w, h, syms, trie, nodes, 8 * off, pos⟩

/-- The environment of DECODE (R220). -/
def decEnv (s : State) : DecEnv := ⟨s.par, s.mem, s.snap.cntBase.toNat, s.snap.cntLen.toNat⟩

/-- The success writes of DECODE (R220, R226). -/
def decodeDone (d : Decoded) (s : State) : State :=
  { s with
    nodes := d.nodes
    syms := d.syms
    trie := d.trie
    cursor := d.pos
    cnt := { s.cnt with
      nodeCount := BitVec.ofNat 32 d.nodes.length
      leafCount := BitVec.ofNat 32 (d.nodes.filterMap NodeRec.leafColor?).length
      symCount := BitVec.ofNat 32 d.syms.length
      treeW := d.w
      treeH := d.h
      payloadBits := BitVec.ofNat 32 (d.pos - d.start)
      outLen := BitVec.ofNat 32 (ceil8 d.pos) }
    valid := StageId.dec.setValid s.valid }

/-- The decode reads the byte at offset `k`: it meets a bus error there when no other byte fails. A byte past the payload
is never read, nor one past an error of the contents (R224, spec/30_encoding.md R107). -/
def DecEnv.reads (e : DecEnv) (k : Nat) : Bool :=
  match ({ e with par := { e.par with busHoles := [⟨e.base + k, e.base + k + 1, .read⟩] } } : DecEnv).decodeAll with
  | .error (.bus j) => j == k
  | _ => false

/-- The addresses of the bytes from offset `k` on that the decode reads and that do not answer. -/
def DecEnv.busErrorsFrom (e : DecEnv) (k : Nat) : List Nat :=
  busErrors e.par .read (((List.range (e.len - k)).filter fun j => e.reads (k + j)).map fun j => e.base + (k + j))

/-- The body of DECODE (R220). A bus error may be reported for any failing byte that the decode reads (spec/20_memory.md
R66, spec/60_exceptions.md R290; which bytes it reads past the first failing one is DESIGN CHOICE, safe,
notes/assumptions/11.md). -/
def decodeBody (s : State) : StageOut :=
  match (decEnv s).decodeAll with
  | .ok d => .ok (decodeDone d s)
  | .error (.err e) => .err e s
  | .error (.bus k) => failBus (s.snap.cntBase.toNat + k) ((decEnv s).busErrorsFrom (k + 1)) s

/-- The stage DEC. A host store is refused on the whole container buffer, though parsing may read fewer of its bytes
(DESIGN CHOICE, notes/assumptions/13.md). -/
def decStage : Stage where
  id := .dec
  checks := fun s => [rangeCheck s.snap.cntBase s.snap.cntLen.toNat]
  body := decodeBody
  halt := id
  writes := fun _ => []
  buffers := fun s => [(s.snap.cntBase.toNat, s.snap.cntLen.toNat)]

/-- DECODE (R220): parse the container at CNT_BASE into the node and symbol tables. -/
def execDecode (s : State) : Host.Outcome State Fault Refusal := .next (runCommand [decStage] s)

end Sys2Proof.Machine
end

