-- ==== Sys2Proof/Machine/Huffman.lean ====
section
/-! DEFINITION. The Huffman code-table constructor (spec/42_huffman.md): HUF_BUILD and INSPECT_SYM. -/

namespace Sys2Proof.Machine

/-- An item of the min-priority queue: `(freq, seq, node)` (R191). -/
structure HufItem where
  freq : Nat
  seq : Nat
  tree : HufTree
deriving DecidableEq, Repr

/-- The order of the queue: lexicographic by `(freq, seq)` (R191). -/
def HufItem.before (a b : HufItem) : Bool := decide (a.freq < b.freq) || (a.freq == b.freq && decide (a.seq < b.seq))

/-- Insert an item into a queue kept in order, so that `popMin` takes its head. -/
def hufInsert (a : HufItem) : List HufItem → List HufItem
  | [] => [a]
  | b :: bs => if a.before b then a :: b :: bs else b :: hufInsert a bs

/-- The queue of the leaves: leaf i has frequency f_i and seq i (R191). -/
def hufLeaves : Nat → List Nat → List HufItem
  | _, [] => []
  | i, f :: fs => hufInsert ⟨f, i, .leaf i⟩ (hufLeaves (i + 1) fs)

/-- Merge the two lowest items until one is left: the first popped is the left child, the second the right, and the
new item's seq is its creation number (R191). The first argument bounds the merges. -/
def hufMerge : Nat → Nat → List HufItem → List HufItem
  | n + 1, next, a :: b :: q =>
    hufMerge n (next + 1) (hufInsert ⟨a.freq + b.freq, next, .node a.tree b.tree⟩ q)
  | _, _, q => q

/-- The labels on the path from the root to a leaf: "0" for each left edge, "1" for each right edge (R191). -/
def hufPath : HufTree → Nat → Option (List Bool)
  | .leaf j, i => if i = j then some [] else none
  | .node l r, i =>
    match hufPath l i with
    | some p => some (false :: p)
    | none => (hufPath r i).map (true :: ·)

/-- The work tree of a list of frequencies: what is left in the queue (R191). -/
def hufTree (fs : List Nat) : HufTree :=
  match hufMerge fs.length fs.length (hufLeaves 0 fs) with
  | a :: _ => a.tree
  | [] => .leaf 0

/-- The codes of a list of frequencies: the tree walk (R191), or the one code "0" for a single symbol (R192). -/
def hufCodes (fs : List Nat) : List (List Bool) :=
  if fs.length = 1 then [[false]]
  else (List.range fs.length).map fun i => (hufPath (hufTree fs) i).getD []

/-- The frequencies of a symbol table, in symbol order. -/
def symFreqs (es : List SymEntry) : List Nat := es.map (·.freq.toNat)

/-- The symbol table with its codes: colours and frequencies are unchanged (R190). -/
def withCodes (es : List SymEntry) : List SymEntry :=
  List.zipWith (fun e c => { e with code := c }) es (hufCodes (symFreqs es))

/-- The longest code length. -/
def maxCodeLen (es : List SymEntry) : Nat := es.foldl (fun m e => max m e.code.length) 0

/-- `Σ SYM[i].freq · SYM[i].len` (R190). -/
def codeBits (es : List SymEntry) : Nat := (es.map fun e => e.freq.toNat * e.code.length).sum

/-- The success writes of HUF_BUILD (R190). -/
def hufDone (s : State) : State :=
  let es := withCodes s.syms
  writeResults
    { res0 := BitVec.ofNat 32 (maxCodeLen es)
      res1 := BitVec.ofNat 32 (codeBits es)
      res2 := s.cnt.symCount
      res3 := 0
      res4 := 0
      res5 := 0 }
    { s with syms := es, valid := StageId.huf.setValid s.valid }

/-- The body of HUF_BUILD (R190): a code longer than P_MAX_CODE_LEN is CAPACITY(3) (R194). -/
def hufBody (s : State) : StageOut :=
  if s.par.maxCodeLen < maxCodeLen (withCodes s.syms) then .err (.capacity 3) s else .ok (hufDone s)

/-- The stage HUF. -/
def hufStage : Stage where
  id := .huf
  checks := fun s => [badSequence (!s.valid.freqV) 0x04]
  body := hufBody
  halt := id
  writes := fun _ => []
  buffers := fun _ => []

/-- HUF_BUILD (R190): give every symbol its Huffman code. -/
def execHufBuild (s : State) : Host.Outcome State Fault Refusal := .next (runCommand [hufStage] s)

/-! ## INSPECT_SYM -/

/-- The start checks of INSPECT_SYM (R196). -/
def inspectSymChecks (s : State) : List (Bool × Err) :=
  [ badSequence (!s.valid.freqV && !s.valid.codeV) 0x0C,
    badQuery (decide (s.cnt.symCount.toNat ≤ s.snap.qIndex.toNat)) 0x050 ]

/-- 32 code bits from bit `from` on, the first in bit 31; bits past the code's end are 0 (R196). -/
def codeWord (code : List Bool) (start : Nat) : Word :=
  BitVec.ofNat 32 ((List.range 32).map fun j => if code.getD (start + j) false then 2 ^ (31 - j) else 0).sum

/-- The results of INSPECT_SYM (R196); with CODE_V = 0 the length and code words are 0. -/
def symResults (codeV : Bool) (e : SymEntry) : Results :=
  let code := if codeV then e.code else []
  { res0 := packWord e.color
    res1 := e.freq
    res2 := BitVec.ofNat 32 code.length
    res3 := codeWord code 0
    res4 := codeWord code 32
    res5 := 0 }

/-- The stage of INSPECT_SYM. -/
def inspectSymStage : Stage where
  id := .inspectSym
  checks := inspectSymChecks
  body := fun s => .ok (writeResults (symResults s.valid.codeV (s.symAt s.snap.qIndex.toNat)) s)
  halt := id
  writes := fun _ => []
  buffers := fun _ => []

/-- INSPECT_SYM (R196): read one symbol-table entry. -/
def execInspectSym (s : State) : Host.Outcome State Fault Refusal := .next (runCommand [inspectSymStage] s)

end Sys2Proof.Machine
end

