-- ==== Sys2Proof/Machine/Sat.lean ====
section
/-! DEFINITION. The SAT builder and region statistics (spec/40_sat_region.md): SAT_BUILD, REGION_AVG, REGION_HOMOG and
INSPECT_SAT, with the functions `T`, `rectSum`, `averageColor` and `isHomogeneous`. -/

namespace Sys2Proof.Machine

/-! ## Functions -/

/-- One accumulator by the SAT recurrence (R131), computed exactly and stored as 32-bit two's complement (R132). -/
def satAcc (p : Byte) (left up diag : Word) : Word :=
  BitVec.ofInt 32 (p.toNat + left.toInt + up.toInt - diag.toInt)

/-- One cell by the recurrence, channel by channel. -/
def satCell (p : Color) (left up diag : SatCell) : SatCell :=
  Rgb.ofFn fun c => satAcc (p.get c) (left.get c) (up.get c) (diag.get c)

/-- An out-of-range predecessor term is zero (R131). -/
def satZero : SatCell := ⟨0, 0, 0⟩

/-- The cells of one row, given the row above, the cell to the left and the one diagonally before. -/
def satRow : List Color → List SatCell → SatCell → SatCell → List SatCell
  | [], _, _, _ => []
  | p :: ps, up, left, diag =>
    let u := up.headD satZero
    let c := satCell p left u diag
    c :: satRow ps up.tail c u

/-- The rows of the table, each from the one above it. -/
def satRows : List (List Color) → List SatCell → List (List SatCell)
  | [], _ => []
  | row :: rows, up =>
    let r := satRow row up satZero satZero
    r :: satRows rows r

/-- The pixel rows of a buffer (spec/20_memory.md R61). -/
def pixelRows (m : Memory) (B W H : Nat) : List (List Color) :=
  (List.range H).map fun y => (List.range W).map fun x => pix m B W x y

/-- The summed-area table of the image at `B`, row-major (R131). -/
def satTable (m : Memory) (B W H : Nat) : List SatCell := (satRows (pixelRows m B W H) []).flatten

/-- `SAT[x][y]` in a store of row width `W` (spec/10_state.md R50). -/
def satAt (t : List SatCell) (W x y : Nat) : SatCell := t.getD (y * W + x) (Config.unspecSat (y * W + x))

/-- `T(i−1, j−1, c)` of R131: zero where i or j is 0, the stored accumulator otherwise. -/
def satT (t : List SatCell) (W i j : Nat) (c : Chan) : Int :=
  if i = 0 ∨ j = 0 then 0 else ((satAt t W (i - 1) (j - 1)).get c).toInt

/-- The sum of a channel over a rectangle by four corner lookups (R133). -/
def rectSum (t : List SatCell) (W : Nat) (r : Rect) (c : Chan) : Int :=
  satT t W (r.x + r.w) (r.y + r.h) c - satT t W r.x (r.y + r.h) c - satT t W (r.x + r.w) r.y c + satT t W r.x r.y c

/-- Clamp to 0 .. 255 (R134). -/
def clampByte (v : Int) : Byte := BitVec.ofInt 8 (max 0 (min v 255))

/-- `averageColor(x, y, w, h)` (R134): black for a zero-area rectangle, else the truncated mean of each channel. -/
def averageColor (t : List SatCell) (W : Nat) (r : Rect) : Color :=
  if r.w = 0 ∨ r.h = 0 then Rgb.black else Rgb.ofFn fun c => clampByte ((rectSum t W r c).tdiv r.area)

/-- The squared difference of one channel. -/
def sqDiff (a b : Byte) : Int := ((a.toNat : Int) - b.toNat) * ((a.toNat : Int) - b.toNat)

/-- The squared Euclidean RGB distance `d2` (R135). -/
def distSq (p q : Color) : Int := sqDiff p.r q.r + sqDiff p.g q.g + sqDiff p.b q.b

/-- A pixel lies within the tolerance: `10000·d2 ≤ 65025·L²`, exactly (R135). -/
def withinLoss (L : Nat) (p avg : Color) : Bool := decide (10000 * distSq p avg ≤ 65025 * L * L)

/-- The `count` of isHomogeneous (R135). -/
def homogCount (m : Memory) (B Wb : Nat) (r : Rect) (avg : Color) (L : Nat) : Nat :=
  (r.pixels.filter fun p => withinLoss L (pix m B Wb p.1 p.2) avg).length

/-- The verdict of isHomogeneous: `10·count ≥ 9·n` (R135). -/
def homogVerdict (count n : Nat) : Bool := decide (9 * n ≤ 10 * count)

/-! ## SAT_BUILD -/

/-- The bytes of the input image. -/
def imageAddrs (o : Operands) : List Nat :=
  pixelAddrs o.pixBase.toNat o.imgW.toNat ⟨0, 0, o.imgW.toNat, o.imgH.toNat⟩

/-- The success writes of SAT_BUILD (R130). -/
def satDone (s : State) : State :=
  { s with
    sat := satTable s.mem s.snap.pixBase.toNat s.snap.imgW.toNat s.snap.imgH.toNat
    cnt := { s.cnt with satW := s.snap.imgW, satH := s.snap.imgH }
    valid := StageId.sat.setValid s.valid }

/-- The body of SAT_BUILD (R130). -/
def satBody (s : State) : StageOut :=
  match busErrors s.par .read (imageAddrs s.snap) with
  | [] => .ok (satDone s)
  | a :: as => failBus a as s

/-- The stage SAT. -/
def satStage : Stage where
  id := .sat
  checks := fun s => imageChecks s.par s.snap ++ [imageRange s.snap]
  body := satBody
  halt := id
  writes := fun _ => []
  buffers := fun s => [(s.snap.pixBase.toNat, 3 * (s.snap.imgW.toNat * s.snap.imgH.toNat))]

/-- SAT_BUILD (R130): build the summed-area table of the image at PIX_BASE. -/
def execSatBuild (s : State) : Host.Outcome State Fault Refusal := .next (runCommand [satStage] s)

/-! ## REGION_AVG -/

/-- The query rectangle `(Q_X, Q_Y, Q_W, Q_H)` (spec/10_state.md R33). -/
def queryRect (o : Operands) : Rect := ⟨o.qX.toNat, o.qY.toNat, o.qW.toNat, o.qH.toNat⟩

/-- The start checks of REGION_AVG (R136). -/
def regionAvgChecks (s : State) : List (Bool × Err) :=
  [ badSequence (!s.valid.satV) 0x01,
    badQuery (decide (s.cnt.satW.toNat < s.snap.qX.toNat + s.snap.qW.toNat)) 0x03C,
    badQuery (decide (s.cnt.satH.toNat < s.snap.qY.toNat + s.snap.qH.toNat)) 0x040 ]

/-- The results of REGION_AVG (R136). -/
def regionAvgResults (s : State) : Results :=
  let col := averageColor s.sat s.cnt.satW.toNat (queryRect s.snap)
  { res0 := col.r.setWidth 32
    res1 := col.g.setWidth 32
    res2 := col.b.setWidth 32
    res3 := packWord col
    res4 := BitVec.ofNat 32 (queryRect s.snap).area
    res5 := 0 }

/-- The stage of REGION_AVG. -/
def regionAvgStage : Stage where
  id := .regionAvg
  checks := regionAvgChecks
  body := fun s => .ok (writeResults (regionAvgResults s) s)
  halt := id
  writes := fun _ => []
  buffers := fun _ => []

/-- REGION_AVG (R136): the average colour of the query rectangle, from the SAT. -/
def execRegionAvg (s : State) : Host.Outcome State Fault Refusal := .next (runCommand [regionAvgStage] s)

/-! ## REGION_HOMOG -/

/-- The start checks of REGION_HOMOG (R140). -/
def regionHomogChecks (s : State) : List (Bool × Err) :=
  imageChecks s.par s.snap ++
  [ badConfig (decide (100 < s.snap.lossPercent.toNat)) 0x020,
    badQuery (decide (s.snap.imgW.toNat < s.snap.qX.toNat + s.snap.qW.toNat)) 0x03C,
    badQuery (decide (s.snap.imgH.toNat < s.snap.qY.toNat + s.snap.qH.toNat)) 0x040,
    imageRange s.snap ]

/-- The results of REGION_HOMOG (R140): count, n and verdict. -/
def regionHomogResults (s : State) : Results :=
  let r := queryRect s.snap
  let count := homogCount s.mem s.snap.pixBase.toNat s.snap.imgW.toNat r (.unpack s.snap.qColor) s.snap.lossPercent.toNat
  { res0 := BitVec.ofNat 32 count
    res1 := BitVec.ofNat 32 r.area
    res2 := if homogVerdict count r.area then 1 else 0
    res3 := 0
    res4 := 0
    res5 := 0 }

/-- The body of REGION_HOMOG: it reads the pixels of the query rectangle only (spec/20_memory.md R73). -/
def regionHomogBody (s : State) : StageOut :=
  match busErrors s.par .read (pixelAddrs s.snap.pixBase.toNat s.snap.imgW.toNat (queryRect s.snap)) with
  | [] => .ok (writeResults (regionHomogResults s) s)
  | a :: as => failBus a as s

/-- The stage of REGION_HOMOG. It reads the pixels of the query rectangle only, but a host store is refused on the whole
IMG_W × IMG_H image, the range R73 checks (DESIGN CHOICE, notes/assumptions/13.md). -/
def regionHomogStage : Stage where
  id := .regionHomog
  checks := regionHomogChecks
  body := regionHomogBody
  halt := id
  writes := fun _ => []
  buffers := fun s => [(s.snap.pixBase.toNat, 3 * (s.snap.imgW.toNat * s.snap.imgH.toNat))]

/-- REGION_HOMOG (R140): the homogeneity test of the query rectangle against Q_COLOR, from the raw pixels. -/
def execRegionHomog (s : State) : Host.Outcome State Fault Refusal := .next (runCommand [regionHomogStage] s)

/-! ## INSPECT_SAT -/

/-- The start checks of INSPECT_SAT (R145). -/
def inspectSatChecks (s : State) : List (Bool × Err) :=
  [ badSequence (!s.valid.satV) 0x01,
    badQuery (decide (s.cnt.satW.toNat ≤ s.snap.qX.toNat)) 0x03C,
    badQuery (decide (s.cnt.satH.toNat ≤ s.snap.qY.toNat)) 0x040 ]

/-- The results of INSPECT_SAT (R145): one SAT cell. -/
def inspectSatResults (s : State) : Results :=
  let c := satAt s.sat s.cnt.satW.toNat s.snap.qX.toNat s.snap.qY.toNat
  ⟨c.r, c.g, c.b, 0, 0, 0⟩

/-- The stage of INSPECT_SAT. -/
def inspectSatStage : Stage where
  id := .inspectSat
  checks := inspectSatChecks
  body := fun s => .ok (writeResults (inspectSatResults s) s)
  halt := id
  writes := fun _ => []
  buffers := fun _ => []

/-- INSPECT_SAT (R145): read one SAT cell. -/
def execInspectSat (s : State) : Host.Outcome State Fault Refusal := .next (runCommand [inspectSatStage] s)

end Sys2Proof.Machine
end

