-- ==== Sys2Proof/Machine/Policy.lean ====
section
/-! DEFINITION. The stopping policy of the quadtree partitioner (spec/41_quadtree.md R162), the sequential build it
defines, and the frequency and symbol tables (R165, R166). -/

namespace Sys2Proof.Machine

/-- What a build reads (R161, R162): the pixels at `base` with row width `satW`, the SAT, the three policy values and
m = S[MAX_CONC_DEPTH] (R170). All of it is fixed for the whole build (spec/20_memory.md R77). -/
structure QtEnv where
  par : Params
  mem : Memory
  sat : List SatCell
  satW : Nat
  base : Nat
  minD : Nat
  maxD : Nat
  loss : Nat
  conc : Nat

/-- What a build gives: node records in pre-order, and the pixel addresses at which a scan met a bus error. -/
structure BuildOut where
  nodes : List NodeRec
  bad : List Nat
deriving DecidableEq, Repr

/-- The leaf colour of a rectangle, its SAT average (R162). -/
def QtEnv.avg (e : QtEnv) (r : Rect) : Color := averageColor e.sat e.satW r

/-- The verdict of isHomogeneous for a rectangle against its own average (R162). -/
def QtEnv.homog (e : QtEnv) (r : Rect) : Bool :=
  homogVerdict (homogCount e.mem e.base e.satW r (e.avg r) e.loss) r.area

/-- The addresses of a rectangle's scan that do not answer (R172). -/
def QtEnv.scanErrors (e : QtEnv) (r : Rect) : List Nat := busErrors e.par .read (pixelAddrs e.base e.satW r)

/-- The LEAF record of a rectangle. -/
def QtEnv.leaf (e : QtEnv) (d : Nat) (r : Rect) : BuildOut := ⟨[NodeRec.ofRect (.leaf (e.avg r)) d r], []⟩

/-- An INTERNAL record followed by the four subtrees in the fixed quadrant order (R163, spec/10_state.md R51). -/
def assemble (d : Nat) (r : Rect) (o0 o1 o2 o3 : BuildOut) : BuildOut :=
  ⟨NodeRec.ofRect .internal d r :: (o0.nodes ++ o1.nodes ++ o2.nodes ++ o3.nodes), o0.bad ++ o1.bad ++ o2.bad ++ o3.bad⟩

/-- What the stopping policy says of a node below the maximal depth (R162). -/
inductive Verdict where
  | split
  | leaf
  | busError (a : Nat) (as : List Nat)
deriving DecidableEq, Repr

/-- The stopping policy at depth `d < maxD` (R162): a forced split below minD; else the homogeneity test, whose scan
may meet bus errors. -/
def QtEnv.verdict (e : QtEnv) (d : Nat) (r : Rect) : Verdict :=
  if d < e.minD then .split
  else
    match e.scanErrors r with
    | a :: as => .busError a as
    | [] => if e.homog r then .leaf else .split

/-- `build(x, y, w, h, d)` (R162), executed sequentially: what every schedule of the workers must come to (R170). The
first argument is `maxD − d`: at 0 the node is at the maximal depth and is a LEAF without a test. -/
def QtEnv.build (e : QtEnv) : Nat → Nat → Rect → BuildOut
  | 0, d, r => e.leaf d r
  | f + 1, d, r =>
    match e.verdict d r with
    | .leaf => e.leaf d r
    | .busError a as => ⟨[], a :: as⟩
    | .split =>
      assemble d r (e.build f (d + 1) r.child0) (e.build f (d + 1) r.child1) (e.build f (d + 1) r.child2)
        (e.build f (d + 1) r.child3)

/-- The colours of the LEAF records, in order. -/
def leafColors (ns : List NodeRec) : List Color := ns.filterMap NodeRec.leafColor?

/-- `freqIncrement(col)` on a table kept sorted by ascending `pack(color)` (R165, R166). -/
def freqIncrement (c : Color) : List SymEntry → List SymEntry
  | [] => [⟨c, 1, []⟩]
  | e :: es =>
    if c = e.color then { e with freq := e.freq + 1 } :: es
    else if c.pack < e.color.pack then ⟨c, 1, []⟩ :: e :: es
    else e :: freqIncrement c es

/-- The symbol table of a build: one entry per distinct leaf colour, ascending, with its count and no code (R166). -/
def symbolTable (cs : List Color) : List SymEntry := cs.foldl (fun t c => freqIncrement c t) []

/-- The environment of QT_BUILD: the operands are sampled, the SAT and its width are the built table's (R161). -/
def qtEnv (s : State) : QtEnv where
  par := s.par
  mem := s.mem
  sat := s.sat
  satW := s.cnt.satW.toNat
  base := s.snap.pixBase.toNat
  minD := s.snap.minDepth.toNat
  maxD := s.snap.maxDepth.toNat
  loss := s.snap.lossPercent.toNat
  conc := s.snap.maxConcDepth.toNat

end Sys2Proof.Machine
end

