-- ==== Sys2Proof/Machine/Workers.lean ====
section
/-! DEFINITION. The worker pool of QT_BUILD (spec/41_quadtree.md R161, R167, R170, R171, spec/20_memory.md R77): tasks in a
queue, the recursion stacks of the workers, joins, the shared node count and frequency table, and the moves of the pool.
QT_BUILD runs them in an unspecified order: in every state of the pool a free value names the next move (DESIGN CHOICE,
safe, notes/assumptions/14.md). -/

namespace Sys2Proof

/-! ## Tasks -/

/-- The build of a rectangle `c` of a frame's node, one level deeper. -/
def Frame.below (t : Frame) (c : Rect) : Frame := ⟨t.left - 1, t.depth + 1, c⟩

/-- A worker that has handled a node goes on with its recursion stack, or its task ends. -/
def Task.resume (nodes : List NodeRec) : List Frame → Task
  | [] => .ended nodes
  | t :: stack => .running t stack nodes

/-- The records made so far, in pre-order: a join assembles its four subtrees in the fixed quadrant order, whatever order
they end in (R170, spec/20_memory.md R77). -/
def Task.records : Task → List NodeRec
  | .queued _ => []
  | .running _ _ nodes => nodes
  | .counting _ _ nodes => nodes
  | .joining d r c0 c1 c2 c3 => NodeRec.ofRect .internal d r :: (c0.records ++ c1.records ++ c2.records ++ c3.records)
  | .ended nodes => nodes

/-- How many workers hold a task. A task that waits at a join holds none (notes/assumptions/14.md). -/
def Task.active : Task → Nat
  | .queued _ => 0
  | .running _ _ _ => 1
  | .counting _ _ _ => 1
  | .joining _ _ c0 c1 c2 c3 => c0.active + c1.active + c2.active + c3.active
  | .ended _ => 0

/-- Places in a task seen from a task around it. -/
def focusUnder (g : Task → Task) (fs : List (Task × (Task → Task))) : List (Task × (Task → Task)) :=
  fs.map fun p => (p.1, fun x => g (p.2 x))

/-- The outstanding tasks, queued and running, each with what the whole becomes when another task takes its place. -/
def Task.foci : Task → List (Task × (Task → Task))
  | .queued t => [(.queued t, id)]
  | .running t stack nodes => [(.running t stack nodes, id)]
  | .counting c stack nodes => [(.counting c stack nodes, id)]
  | .joining d r c0 c1 c2 c3 =>
    focusUnder (fun x => .joining d r x c1 c2 c3) c0.foci ++
      focusUnder (fun x => .joining d r c0 x c2 c3) c1.foci ++
      focusUnder (fun x => .joining d r c0 c1 x c3) c2.foci ++
      focusUnder (fun x => .joining d r c0 c1 c2 x) c3.foci
  | .ended _ => []

/-- The pool drained (R171): every outstanding task has ended, and its partial records are discarded. -/
def Task.drained : Task → Task
  | .queued _ => .ended []
  | .running _ _ _ => .ended []
  | .counting _ _ _ => .ended []
  | .joining d r c0 c1 c2 c3 => .joining d r c0.drained c1.drained c2.drained c3.drained
  | .ended nodes => .ended nodes

end Sys2Proof

namespace Sys2Proof.Machine

/-! ## The moves of the pool -/

/-- The stopping policy at a frame: a node at the maximal depth is a LEAF without a test (R162). -/
def QtEnv.test (e : QtEnv) (t : Frame) : Verdict := if t.left = 0 then .leaf else e.verdict t.depth t.rect

/-- A task has failed: the build stops dispatching (R171). -/
def BuildRun.fail (b : BuildRun) (err : Err) : BuildRun := { b with failure := some err }

/-- A worker appends a node, after which the pool is `after`; a count that would exceed P_MAX_NODES stops the build
(R161, R162, R167). -/
def BuildRun.append (e : QtEnv) (b : BuildRun) (after : Task) : BuildRun :=
  if e.par.maxNodes < b.count + 1 then b.fail (.capacity 1) else { b with task := after, count := b.count + 1 }

/-- A worker counts a colour, one atomic read-modify-write of its counter (R165, spec/20_memory.md R77), after which the
pool is `after`; more colours than P_MAX_SYMBOLS stop the build (R161, R167). -/
def BuildRun.countColor (e : QtEnv) (b : BuildRun) (c : Color) (after : Task) : BuildRun :=
  let freq := freqIncrement c b.freq
  if e.par.maxSymbols < freq.length then b.fail (.capacity 2) else { b with task := after, freq := freq }

/-- What an appended LEAF leaves in the worker's place: its colour is still to be counted (R162). -/
def QtEnv.emit (e : QtEnv) (t : Frame) (stack : List Frame) (nodes : List NodeRec) : Task :=
  .counting (e.avg t.rect) stack (nodes ++ [NodeRec.ofRect (.leaf (e.avg t.rect)) t.depth t.rect])

/-- What a split leaves in the worker's place (R170). At a depth below m the four children are dispatched as tasks and the
node waits at the join; such a node is the first of its task. At m and below, the worker builds the children itself. -/
def QtEnv.descend (e : QtEnv) (t : Frame) (stack : List Frame) (nodes : List NodeRec) : Task :=
  if t.depth < e.conc ∧ stack = [] ∧ nodes = [] then
    .joining t.depth t.rect (.queued (t.below t.rect.child0)) (.queued (t.below t.rect.child1))
      (.queued (t.below t.rect.child2)) (.queued (t.below t.rect.child3))
  else
    .running (t.below t.rect.child0)
      (t.below t.rect.child1 :: t.below t.rect.child2 :: t.below t.rect.child3 :: stack)
      (nodes ++ [NodeRec.ofRect .internal t.depth t.rect])

/-- What may come next at one outstanding task. A free worker takes a queued task. A worker handles the node on top of its
stack: it appends a LEAF or an INTERNAL node, or a scan that meets bus errors fails with any one of the failing bytes
(spec/20_memory.md R66). A worker that has appended a LEAF counts its colour, a move of its own: between the two, other
workers may move (R162, spec/20_memory.md R77). -/
def BuildRun.movesAt (e : QtEnv) (b : BuildRun) : Task × (Task → Task) → List BuildRun
  | (.queued t, put) =>
    if b.task.active = 0 ∨ b.task.active < e.par.numWorkers then [{ b with task := put (.running t [] []) }] else []
  | (.running t stack nodes, put) =>
    match e.test t with
    | .leaf => [b.append e (put (e.emit t stack nodes))]
    | .split => [b.append e (put (e.descend t stack nodes))]
    | .busError a as => (a :: as).map fun x => b.fail (.io x)
  | (.counting c stack nodes, put) => [b.countColor e c (put (.resume nodes stack))]
  | _ => []

/-- What may come next in the pool; nothing once a task has failed (R171), and nothing once no task is outstanding. -/
def BuildRun.nexts (e : QtEnv) (b : BuildRun) : List BuildRun :=
  if b.failure.isSome then [] else b.task.foci.flatMap (b.movesAt e)

/-- A schedule: each number names the next move among those that may come next. -/
def BuildRun.follow (e : QtEnv) (b : BuildRun) : List Nat → BuildRun
  | [] => b
  | k :: ks =>
    match b.nexts e with
    | [] => b
    | x :: xs => (pick x xs k).follow e ks

/-- A build that has not begun: the root is the one task, in the queue; no node is counted and the frequency table is clear
(R161). -/
def BuildRun.start (maxD : Nat) (root : Rect) : BuildRun := ⟨.queued ⟨maxD, 0, root⟩, 0, [], none⟩

/-! ## The pool of the running command -/

/-- The build in the pool. -/
def State.build (s : State) : BuildRun := s.pool.getD (.start 0 ⟨0, 0, 0, 0⟩)

/-- Run the pool of `s` by an unspecified schedule, for at most `n` moves. -/
def runPool (e : QtEnv) : Nat → State → State
  | 0, s => s
  | n + 1, s =>
    match s.build.nexts e with
    | [] => s
    | x :: xs => runPool e n { (choose x xs s).2 with pool := some (choose x xs s).1 }

/-- The engine dispatches the root of the build (R160, R161). -/
def startPool (s : State) : State :=
  { s with pool := some (.start s.snap.maxDepth.toNat ⟨0, 0, s.cnt.satW.toNat, s.cnt.satH.toNat⟩) }

/-- More moves than any schedule has: a node is one move and, with the start of its task and the counting of its colour,
at most three, and no more than P_MAX_NODES nodes are counted (spec/70_reset_and_hazards.md R335). -/
def poolMoves (p : Params) : Nat := 5 * (p.maxNodes + 2)

/-- The pool is drained before the command goes on (R171, spec/60_exceptions.md R286). -/
def drainPool (s : State) : State := { s with pool := s.pool.map fun b => { b with task := b.task.drained } }

end Sys2Proof.Machine
end

