-- ==== Sys2Proof/Machine/Quadtree.lean ====
section
/-! DEFINITION. The commands of the quadtree partitioner (spec/41_quadtree.md): QT_BUILD, which runs the worker pool of
Machine/Workers.lean, and INSPECT_NODE. -/

namespace Sys2Proof.Machine

/-- The success writes of QT_BUILD (R161): the assembled node table, the symbol table, the counts and the dimensions. -/
def qtDone (b : BuildRun) (s : State) : State :=
  { s with
    nodes := b.task.records
    syms := b.freq
    pool := none
    cnt := { s.cnt with
      nodeCount := BitVec.ofNat 32 b.count
      leafCount := BitVec.ofNat 32 (leafColors b.task.records).length
      symCount := BitVec.ofNat 32 b.freq.length
      treeW := s.cnt.satW
      treeH := s.cnt.satH }
    valid := StageId.qt.setValid s.valid }

/-- The body of QT_BUILD (R161): the pool runs until no move is left. Where a task has failed, the pool is drained and the
error the schedule reached is reported (R171, spec/60_exceptions.md R290; DESIGN CHOICE, safe, notes/assumptions/10.md). -/
def qtBody (s : State) : StageOut :=
  let t := runPool (qtEnv s) (poolMoves s.par) (startPool s)
  match t.build.failure with
  | none => .ok (qtDone t.build t)
  | some e => .err e (drainPool t)

/-- QT_BUILD stopped by ABORT: after an unspecified number of moves, the dispatching stops and the pool is drained
(R171, spec/44_reconstruct_control.md R262). -/
def qtHalt (s : State) : State :=
  drainPool (runPool (qtEnv s) (draw s).1 (startPool (draw s).2))

/-- The start checks of QT_BUILD (R161). -/
def qtChecks (s : State) : List (Bool × Err) :=
  [ badConfig (decide (s.snap.maxDepth.toNat < s.snap.minDepth.toNat)) 0x018,
    badConfig (decide (s.par.maxTreeDepth < s.snap.maxDepth.toNat)) 0x01C,
    badConfig (decide (100 < s.snap.lossPercent.toNat)) 0x020,
    badSequence (!s.valid.satV) 0x01,
    rangeCheck s.snap.pixBase (3 * (s.cnt.satW.toNat * s.cnt.satH.toNat)) ]

/-- The stage QT. A host store is refused on the whole image, though a build may read fewer of its pixels (R172; DESIGN
CHOICE, notes/assumptions/13.md). -/
def qtStage : Stage where
  id := .qt
  checks := qtChecks
  body := qtBody
  halt := qtHalt
  writes := fun _ => []
  buffers := fun s => [(s.snap.pixBase.toNat, 3 * (s.cnt.satW.toNat * s.cnt.satH.toNat))]

/-- QT_BUILD (R161): build the quadtree and the symbol table of the image whose SAT is valid. -/
def execQtBuild (s : State) : Host.Outcome State Fault Refusal := .next (runCommand [qtStage] s)

/-! ## INSPECT_NODE -/

/-- The start checks of INSPECT_NODE (R175). -/
def inspectNodeChecks (s : State) : List (Bool × Err) :=
  [ badSequence (!s.valid.treeV) 0x02,
    badQuery (decide (s.cnt.nodeCount.toNat ≤ s.snap.qIndex.toNat)) 0x050 ]

/-- The results of INSPECT_NODE (R175): `[15:8]` depth and `[0]` kind, the rectangle, the colour of a LEAF. -/
def nodeResults (n : NodeRec) : Results :=
  { res0 := (0 : BitVec 16) ++ BitVec.ofNat 8 n.depth ++ (0 : BitVec 7) ++ BitVec.ofBool n.leafColor?.isSome
    res1 := n.x
    res2 := n.y
    res3 := n.w
    res4 := n.h
    res5 := match n.kind with
      | .leaf c => packWord c
      | .internal => 0 }

/-- The stage of INSPECT_NODE. -/
def inspectNodeStage : Stage where
  id := .inspectNode
  checks := inspectNodeChecks
  body := fun s => .ok (writeResults (nodeResults (s.nodeAt s.snap.qIndex.toNat)) s)
  halt := id
  writes := fun _ => []
  buffers := fun _ => []

/-- INSPECT_NODE (R175): read one node record. -/
def execInspectNode (s : State) : Host.Outcome State Fault Refusal := .next (runCommand [inspectNodeStage] s)

end Sys2Proof.Machine
end

