-- ==== Sys2Proof/Machine/Reconstruct.lean ====
section
/-! DEFINITION. The image reconstructor (spec/44_reconstruct_control.md section 1): RECONSTRUCT. -/

namespace Sys2Proof.Machine

/-- The pixels of a rectangle inside a W × H buffer: the clamp to buffer bounds (R251). -/
def clampedPixels (W H : Nat) (r : Rect) : List (Nat × Nat) :=
  r.pixels.filter fun p => decide (p.1 < W) && decide (p.2 < H)

/-- The bytes that painting one record stores: nothing for INTERNAL, the colour at every pixel for LEAF (R251). -/
def paintNode (B W H : Nat) (n : NodeRec) : List Host.Cell :=
  match n.kind with
  | .internal => []
  | .leaf c => (clampedPixels W H n.rect).flatMap fun p => cellsAt (pixAddr B W p.1 p.2) [c.r, c.g, c.b]

/-- The bytes RECONSTRUCT stores: every LEAF of the node table painted (R251). -/
def paintWrites (B W H : Nat) (ns : List NodeRec) : List Host.Cell := ns.flatMap (paintNode B W H)

/-- The bytes RECONSTRUCT stores in a state (R250). -/
def reconWrites (s : State) : List Host.Cell :=
  paintWrites s.snap.outBase.toNat s.cnt.treeW.toNat s.cnt.treeH.toNat s.nodes

/-- `need = 3 · TREE_W · TREE_H`, exact (R250). -/
def reconNeed (s : State) : Nat := 3 * (s.cnt.treeW.toNat * s.cnt.treeH.toNat)

/-- The start checks of RECONSTRUCT (R250). -/
def reconChecks (s : State) : List (Bool × Err) :=
  [ badSequence (!s.valid.treeV) 0x02,
    (decide (s.snap.outCap.toNat < reconNeed s), .ioSize (reconNeed s)),
    rangeCheck s.snap.outBase (reconNeed s) ]

/-- The stage REC. -/
def reconStage : Stage where
  id := .recon
  checks := reconChecks
  body := fun s => storeAll (reconWrites s) s id
  halt := id
  writes := reconWrites
  buffers := fun s => [(s.snap.outBase.toNat, reconNeed s)]

/-- RECONSTRUCT (R250): paint the tree into the output buffer. -/
def execReconstruct (s : State) : Host.Outcome State Fault Refusal := .next (runCommand [reconStage] s)

end Sys2Proof.Machine
end

