-- ==== Sys2Proof/Machine/Control.lean ====
section
/-! DEFINITION. The macro commands COMPRESS and DECOMPRESS, the control commands NOP, ABORT and SOFT_RESET
(spec/44_reconstruct_control.md sections 2 and 3), and the completion of an illegal command word
(spec/30_encoding.md R93). -/

namespace Sys2Proof.Machine

/-- The stage of a name. -/
def StageId.stage : StageId → Stage
  | .sat => satStage
  | .qt => qtStage
  | .huf => hufStage
  | .enc => encStage
  | .dec => decStage
  | .recon => reconStage
  | .regionAvg => regionAvgStage
  | .regionHomog => regionHomogStage
  | .inspectSat => inspectSatStage
  | .inspectNode => inspectNodeStage
  | .inspectSym => inspectSymStage

/-- COMPRESS (R260): SAT_BUILD, QT_BUILD, HUF_BUILD and ENCODE, each with its checks, in one command. -/
def execCompress (s : State) : Host.Outcome State Fault Refusal :=
  .next (runCommand [satStage, qtStage, hufStage, encStage] s)

/-- DECOMPRESS (R261): DECODE and RECONSTRUCT in one command. -/
def execDecompress (s : State) : Host.Outcome State Fault Refusal := .next (runCommand [decStage, reconStage] s)

/-- NOP (R264): complete with success without touching any other state. -/
def execNop (s : State) : Host.Outcome State Fault Refusal := .next (runCommand [] s)

/-- The stages of the running command. -/
def runningStages (s : State) : List Stage := (wordPlan s.cmd).map StageId.stage

/-- The bytes the running command may have stored by now, over all points it can be stopped at. -/
def runningWrites (s : State) : List Host.Cell := (stopPoints (runningStages s) s).flatMap pendingWrites

/-- A reset discards a running command without completing it; the bytes of its destination are each as they were or
as it would have written them (R263, spec/70_reset_and_hazards.md R320). -/
def discardRunning (s : State) : State := if s.status.busy then scramble (runningWrites s) s else s

/-- ABORT (R262, spec/60_exceptions.md R288): while a command runs, the pending-abort flag is set; while the block is
idle there is no effect at all. -/
def execAbort (s : State) : Host.Outcome State Fault Refusal :=
  .next (if s.status.busy then { s with pendingAbort := true } else s)

/-- SOFT_RESET (R263): the reset in any state, after which CMD reads 0x000000FF. -/
def execSoftReset (s : State) : Host.Outcome State Fault Refusal :=
  .next { resetBlock (discardRunning s) with cmd := 0x000000FF }

/-- A word that is no legal command completes with ILLEGAL_COMMAND at the engine's first step, touching no other
state (spec/30_encoding.md R93, spec/60_exceptions.md R284; with an abort pending it reports ABORTED: DEDUCED, safe,
notes/assumptions/16.md). -/
def illegalCommand (s : State) : State := raiseError ⟨.illegalCommand, s.cmd⟩ s

end Sys2Proof.Machine
end

