-- ==== Sys2Proof/Machine/Dispatch.lean ====
section
/-! DEFINITION. One arm per command: the meaning the engine, or for ABORT and SOFT_RESET the CMD write itself, runs. -/

namespace Sys2Proof.Machine

def exec (i : Instr) (s : State) : Host.Outcome State Fault Refusal :=
  match i with
  | .nop => Sys2Proof.Machine.execNop s
  | .satBuild => Sys2Proof.Machine.execSatBuild s
  | .regionAvg => Sys2Proof.Machine.execRegionAvg s
  | .regionHomog => Sys2Proof.Machine.execRegionHomog s
  | .qtBuild => Sys2Proof.Machine.execQtBuild s
  | .hufBuild => Sys2Proof.Machine.execHufBuild s
  | .encode => Sys2Proof.Machine.execEncode s
  | .decode => Sys2Proof.Machine.execDecode s
  | .reconstruct => Sys2Proof.Machine.execReconstruct s
  | .compress => Sys2Proof.Machine.execCompress s
  | .decompress => Sys2Proof.Machine.execDecompress s
  | .inspectSat => Sys2Proof.Machine.execInspectSat s
  | .inspectNode => Sys2Proof.Machine.execInspectNode s
  | .inspectSym => Sys2Proof.Machine.execInspectSym s
  | .abort => Sys2Proof.Machine.execAbort s
  | .softReset => Sys2Proof.Machine.execSoftReset s

end Sys2Proof.Machine
end

