-- ==== Sys2Proof/Machine/Registers.lean ====
section
/-! DEFINITION. The register window (spec/10_state.md R20 to R47): offsets, what a read returns and what a write does.
CMD's write handling needs the commands and stands in Machine/Bus.lean. -/

namespace Sys2Proof

/-- The registers in the order of R20's table. -/
def Reg.all : List Reg :=
  [.id, .ctrl, .status, .cmd, .imgW, .imgH, .minDepth, .maxDepth, .lossPercent, .maxConcDepth, .pixBase, .outBase,
   .outCap, .cntBase, .cntLen, .qX, .qY, .qW, .qH, .qColor, .qIndex, .res0, .res1, .res2, .res3, .res4, .res5,
   .valid, .satW, .satH, .treeW, .treeH, .nodeCount, .leafCount, .symCount, .outLen, .payloadBits, .errInfo,
   .cap0, .cap1, .cap2, .cap3, .cap4]

/-- The offset of a register in the window (R20). -/
def Reg.offset : Reg → Nat
  | .id => 0x000
  | .ctrl => 0x004
  | .status => 0x008
  | .cmd => 0x00C
  | .imgW => 0x010
  | .imgH => 0x014
  | .minDepth => 0x018
  | .maxDepth => 0x01C
  | .lossPercent => 0x020
  | .maxConcDepth => 0x024
  | .pixBase => 0x028
  | .outBase => 0x02C
  | .outCap => 0x030
  | .cntBase => 0x034
  | .cntLen => 0x038
  | .qX => 0x03C
  | .qY => 0x040
  | .qW => 0x044
  | .qH => 0x048
  | .qColor => 0x04C
  | .qIndex => 0x050
  | .res0 => 0x054
  | .res1 => 0x058
  | .res2 => 0x05C
  | .res3 => 0x060
  | .res4 => 0x064
  | .res5 => 0x068
  | .valid => 0x06C
  | .satW => 0x070
  | .satH => 0x074
  | .treeW => 0x078
  | .treeH => 0x07C
  | .nodeCount => 0x080
  | .leafCount => 0x084
  | .symCount => 0x088
  | .outLen => 0x08C
  | .payloadBits => 0x090
  | .errInfo => 0x094
  | .cap0 => 0x098
  | .cap1 => 0x09C
  | .cap2 => 0x0A0
  | .cap3 => 0x0A4
  | .cap4 => 0x0A8

/-- The register at an offset; the offsets 0x0AC to 0xFFC are reserved (R47). -/
def Reg.ofOffset (off : Nat) : Option Reg := Reg.all.find? fun r => r.offset == off

/-- The registers whose read while BUSY = 1 is an unspecified choice (spec/70_reset_and_hazards.md R325); of STATUS
it is the STAGE field. -/
def Reg.isResult : Reg → Bool
  | .res0 => true
  | .res1 => true
  | .res2 => true
  | .res3 => true
  | .res4 => true
  | .res5 => true
  | .valid => true
  | .satW => true
  | .satH => true
  | .treeW => true
  | .treeH => true
  | .nodeCount => true
  | .leafCount => true
  | .symCount => true
  | .outLen => true
  | .payloadBits => true
  | .errInfo => true
  | .status => true
  | _ => false

end Sys2Proof

namespace Sys2Proof.Machine

/-- The ID constant: "QT", major version 1, minor version 0 (R21). -/
def idValue : Word := 0x51540100

/-- CAP0: [7:0] P_MAX_TREE_DEPTH, [15:8] P_MAX_CODE_LEN, [23:16] min(P_NUM_WORKERS, 255) (R45). -/
def cap0Value (p : Params) : Word :=
  (0 : BitVec 8) ++ BitVec.ofNat 8 (min p.numWorkers 255) ++ BitVec.ofNat 8 p.maxCodeLen ++ BitVec.ofNat 8 p.maxTreeDepth

/-- The value a register holds: what a read of it returns while the block is idle (R20 to R45). -/
def regRead (r : Reg) (s : State) : Word :=
  match r with
  | .id => idValue
  | .ctrl => (0 : BitVec 31) ++ BitVec.ofBool s.irqEn
  | .status => s.status.word
  | .cmd => s.cmd
  | .imgW => s.cfg.imgW
  | .imgH => s.cfg.imgH
  | .minDepth => s.cfg.minDepth.setWidth 32
  | .maxDepth => s.cfg.maxDepth.setWidth 32
  | .lossPercent => s.cfg.lossPercent.setWidth 32
  | .maxConcDepth => s.cfg.maxConcDepth.setWidth 32
  | .pixBase => s.cfg.pixBase
  | .outBase => s.cfg.outBase
  | .outCap => s.cfg.outCap
  | .cntBase => s.cfg.cntBase
  | .cntLen => s.cfg.cntLen
  | .qX => s.cfg.qX
  | .qY => s.cfg.qY
  | .qW => s.cfg.qW
  | .qH => s.cfg.qH
  | .qColor => s.cfg.qColor.setWidth 32
  | .qIndex => s.cfg.qIndex
  | .res0 => s.res.res0
  | .res1 => s.res.res1
  | .res2 => s.res.res2
  | .res3 => s.res.res3
  | .res4 => s.res.res4
  | .res5 => s.res.res5
  | .valid => s.valid.word
  | .satW => s.cnt.satW
  | .satH => s.cnt.satH
  | .treeW => s.cnt.treeW
  | .treeH => s.cnt.treeH
  | .nodeCount => s.cnt.nodeCount
  | .leafCount => s.cnt.leafCount
  | .symCount => s.cnt.symCount
  | .outLen => s.cnt.outLen
  | .payloadBits => s.cnt.payloadBits
  | .errInfo => s.errInfo
  | .cap0 => cap0Value s.par
  | .cap1 => BitVec.ofNat 32 s.par.maxPixels
  | .cap2 => BitVec.ofNat 32 s.par.maxNodes
  | .cap3 => BitVec.ofNat 32 s.par.maxSymbols
  | .cap4 => BitVec.ofNat 32 s.par.maxTrieNodes

/-- A write to a RW configuration or operand register; a narrow field takes exactly its bits (R43), and every other
register is left alone (R46). -/
def cfgWrite (r : Reg) (v : Word) (o : Operands) : Operands :=
  match r with
  | .imgW => { o with imgW := v }
  | .imgH => { o with imgH := v }
  | .minDepth => { o with minDepth := v.setWidth 8 }
  | .maxDepth => { o with maxDepth := v.setWidth 8 }
  | .lossPercent => { o with lossPercent := v.setWidth 8 }
  | .maxConcDepth => { o with maxConcDepth := v.setWidth 8 }
  | .pixBase => { o with pixBase := v }
  | .outBase => { o with outBase := v }
  | .outCap => { o with outCap := v }
  | .cntBase => { o with cntBase := v }
  | .cntLen => { o with cntLen := v }
  | .qX => { o with qX := v }
  | .qY => { o with qY := v }
  | .qW => { o with qW := v }
  | .qH => { o with qH := v }
  | .qColor => { o with qColor := v.setWidth 24 }
  | .qIndex => { o with qIndex := v }
  | _ => o

/-- A write to a register other than CMD: CTRL keeps bit 0 (R22), STATUS takes the write-1-to-clear rule (R23), a
configuration register takes its bits at once, BUSY or not (R44), and a read-only register ignores it (R46). -/
def regWrite (r : Reg) (v : Word) (s : State) : State :=
  match r with
  | .ctrl => { s with irqEn := v.getLsbD 0 }
  | .status => writeStatus v s
  | r => { s with cfg := cfgWrite r v s.cfg }

end Sys2Proof.Machine
end

