-- ==== Sys2Proof/Machine/Bus.lean ====
section
/-! DEFINITION. The host's side of the interface: MMIO accesses (spec/20_memory.md R70, spec/10_state.md R25), the
host's accesses to external memory (R74 to R76), the WAIT loop (spec/30_encoding.md R96), the reset input
(spec/70_reset_and_hazards.md R320), and the engine's turn, which fetches the accepted command. -/

namespace Sys2Proof.Machine

/-- The host records a value (spec/30_encoding.md R95). -/
def record (v : Word) (s : State) : State := { s with reads := v :: s.reads }

/-! ## MMIO accesses -/

/-- What an access to the bus reaches. -/
inductive Target where
  | reg (r : Reg)
  | reserved
  | outside
  | bad
deriving DecidableEq, Repr

/-- The target of an access of `size` bytes at a bus address (R20, R47, spec/20_memory.md R70; what is refused:
notes/assumptions/13.md). -/
def target (p : Params) (addr size : Nat) : Target :=
  if addr < p.mmioBase ∨ p.mmioBase + 4096 ≤ addr then .outside
  else if size ≠ 4 ∨ (addr - p.mmioBase) % 4 ≠ 0 then .bad
  else
    match Reg.ofOffset (addr - p.mmioBase) with
    | some r => .reg r
    | none => .reserved

/-! ## The engine's turn -/

/-- The engine's turn: run the accepted command; while idle it waits (spec/60_exceptions.md R280, R306). -/
def engineTurn (s : State) : Host.Outcome State Fault Refusal :=
  if s.status.busy then
    match decode s.cmd with
    | .ok i => exec i s
    | .error _ => .next (illegalCommand s)
  else .next s

/-! ## Register reads -/

/-- An ABORT that the host writes to CMD reaches the running command: its write stands on the agenda before the engine's
turn. -/
def abortAhead (p : Params) : List Event → Bool
  | [] => false
  | .engine :: _ => false
  | .wait :: _ => false
  | .rst :: _ => false
  | .write addr size v :: es =>
    if target p addr size = .reg .cmd ∧ decode v = .ok .abort then true
    else if target p addr size = .reg .cmd ∧ decode v = .ok .softReset then false
    else abortAhead p es
  | .read _ _ :: es => abortAhead p es
  | .store _ _ :: es => abortAhead p es
  | .load _ :: es => abortAhead p es

/-- The state the running command completes in, with the aborts that reach it: its engine turn draws the free values this
uses, since a read draws from a supply of its own. -/
def finalState (s : State) : State :=
  match engineTurn { s with pendingAbort := s.pendingAbort || abortAhead s.par s.agenda } with
  | .next t => t
  | _ => s

/-- STATUS with another STAGE code. -/
def statusWithStage (s : State) (c : BitVec 4) : Word := ({ s.status with stage := c } : Status).word

/-- The STAGE codes of a running command: before it, of each stage that starts, and at its completion (spec/10_state.md
R24). -/
def stageCodes (s : State) : List (BitVec 4) :=
  let c := (finalState s).status.stage
  s.stageBefore :: c :: ((stopPoints (runningStages s) s).map (·.2.status.stage)).takeWhile (· != c)

/-- The values a read of a result register may return while a command runs, beside the one it holds, which is its value
before the command: its value after the command, and of STAGE every code on the way (spec/70_reset_and_hazards.md R325;
DESIGN CHOICE, safe, notes/assumptions/9.md). -/
def busyValues (r : Reg) (s : State) : List Word :=
  match r with
  | .status => (stageCodes s).map (statusWithStage s)
  | r => [regRead r (finalState s)]

/-- What a host read of a register returns: the value it holds, or while BUSY = 1, for a result register, an
unspecified choice (R325). -/
def hostRegRead (r : Reg) (s : State) : Word × State :=
  if s.status.busy && r.isResult then
    chooseRead (regRead r s) ((busyValues r s).filter fun v => v != regRead r s) s
  else (regRead r s, s)

/-! ## Writes and reads -/

/-- A write to CMD (spec/10_state.md R25): SOFT_RESET and ABORT act in any state; any other word is accepted while the
block is idle and otherwise lost, which sets OVR. -/
def commandWrite (v : Word) (s : State) : Host.Outcome State Fault Refusal :=
  match decode v with
  | .ok .softReset => exec .softReset s
  | .ok .abort => exec .abort s
  | _ => .next (if s.status.busy then { s with status := { s.status with ovr := true } } else accept v s)

/-- A host write (R20, R46, R47). -/
def hostWrite (addr size : Nat) (v : Word) (s : State) : Host.Outcome State Fault Refusal :=
  match target s.par addr size with
  | .reg .cmd => commandWrite v s
  | .reg r => .next (regWrite r v s)
  | .reserved => .next s
  | .outside => .refused (.outsideWindow addr)
  | .bad => .refused (.badMmioAccess s.par.badAccessError)

/-- A host read (R20, R47): a reserved offset reads 0. -/
def hostRead (addr size : Nat) (s : State) : Host.Outcome State Fault Refusal :=
  match target s.par addr size with
  | .reg r => .next (record (hostRegRead r s).1 (hostRegRead r s).2)
  | .reserved => .next (record 0 s)
  | .outside => .refused (.outsideWindow addr)
  | .bad => .refused (.badMmioAccess s.par.badAccessError)

/-- One turn of the WAIT loop: a STATUS read, after which the engine takes a turn and the loop goes on while BUSY
reads 1 (spec/30_encoding.md R96; DESIGN CHOICE, safe, notes/assumptions/15.md). The read sees the engine's turn next:
what the agenda lists behind the WAIT comes after the completion. -/
def hostWait (s : State) : Host.Outcome State Fault Refusal :=
  let s' := if s.status.busy then { s with agenda := .engine :: .wait :: s.agenda } else s
  let r := hostRegRead .status s'
  .next (record r.1 r.2)

/-! ## The host's accesses to external memory -/

/-- The external buffers of the running command (spec/20_memory.md R73, spec/70_reset_and_hazards.md R326). -/
def runningBuffers (s : State) : List (Nat × Nat) :=
  (stopPoints (runningStages s) s).flatMap fun p => p.1.buffers p.2

/-- An address lies in a buffer of the running command. -/
def inRunningBuffer (s : State) (a : Nat) : Bool :=
  s.status.busy && (runningBuffers s).any fun b => b.1 ≤ a && a < b.1 + b.2

/-- The host stores bytes from an address upward. A model's host has no move that writes a buffer of the running
command (R76). -/
def hostStore (addr : Nat) (bytes : List Byte) (s : State) : Host.Outcome State Fault Refusal :=
  match (cellsAt addr bytes).find? (fun c => addressSpace ≤ c.1) with
  | some c => .fault (.noSuchAddress c.1)
  | none =>
    match (cellsAt addr bytes).find? (fun c => inRunningBuffer s c.1) with
    | some c => .refused (.bufferWriteWhileBusy c.1)
    | none => .next { s with mem := s.mem.writeAll (cellsAt addr bytes) }

/-- The values a host load of a byte may return beside the one it holds: while a command runs, what the command would
store there (R75). -/
def busyBytes (a : Nat) (s : State) : List Byte :=
  if s.status.busy then ((runningWrites s).filter fun c => c.1 == a).map (·.2) else []

/-- The host loads one byte of external memory and records it. -/
def hostLoad (a : Nat) (s : State) : Host.Outcome State Fault Refusal :=
  if addressSpace ≤ a then .fault (.noSuchAddress a)
  else
    let r := chooseRead (s.mem.read a) ((busyBytes a s).filter fun v => v != s.mem.read a) s
    .next (record (r.1.setWidth 32) r.2)

/-- The reset input (spec/70_reset_and_hazards.md R320). -/
def hostReset (s : State) : Host.Outcome State Fault Refusal := .next (resetBlock (discardRunning s))

/-! ## The agenda -/

/-- The move of one event, taken off the agenda before. -/
def react (e : Event) (s : State) : Host.Outcome State Fault Refusal :=
  match e with
  | .write addr size v => hostWrite addr size v s
  | .read addr size => hostRead addr size s
  | .store addr bytes => hostStore addr bytes s
  | .load addr => hostLoad addr s
  | .wait => hostWait s
  | .engine => engineTurn s
  | .rst => hostReset s

/-- The agenda without its first event. -/
def State.pop (s : State) : State := { s with agenda := s.agenda.tail }

/-- The bus address of a register. -/
def regAddress (p : Params) (r : Reg) : Nat := p.mmioBase + r.offset

/-- The command word the next step runs: at the engine's turn the accepted one, and a SOFT_RESET or ABORT that the
host is about to write to CMD. -/
def fetchedWord (s : State) : Option Word :=
  match s.agenda with
  | [] => if s.status.busy then some s.cmd else none
  | .engine :: _ => if s.status.busy then some s.cmd else none
  | .write addr size v :: _ =>
    if target s.par addr size = .reg .cmd ∧ (decode v = .ok .softReset ∨ decode v = .ok .abort) then some v else none
  | _ => none

/-- The state in which the next step runs the command word `v`: for SOFT_RESET and ABORT the CMD write is next on the
agenda; any other word has been accepted (R282) and the engine's turn is next. -/
def withCommand (v : Word) (s : State) : State :=
  match decode v with
  | .ok .softReset => { s with agenda := .write (regAddress s.par .cmd) 4 v :: s.agenda }
  | .ok .abort => { s with agenda := .write (regAddress s.par .cmd) 4 v :: s.agenda }
  | _ => { accept v s with agenda := .engine :: s.agenda }

end Sys2Proof.Machine
end

