-- ==== Sys2Proof/Machine/HostProgram.lean ====
section
/-! DEFINITION. Host programs (spec/30_encoding.md R95, R96): each operation and pseudo-instruction as the moves it
expands to. -/

namespace Sys2Proof.Machine

/-- The moves of one operation (R95) or pseudo-instruction (R96). -/
def expand (p : Params) : HostStmt → List Event
  | .wr r v => [.write (regAddress p r) 4 v]
  | .rd r => [.read (regAddress p r) 4]
  | .mem addr bytes => [.store addr bytes]
  | .cmd i => [.write (regAddress p .cmd) 4 (encode i)]
  | .wait => [.wait]
  | .run i => [.write (regAddress p .cmd) 4 (encode i), .wait]
  | .ack => [.write (regAddress p .status) 4 0x0000000A]

/-- A host program as an agenda. -/
def program (p : Params) (ss : List HostStmt) : List Event := ss.flatMap (expand p)

end Sys2Proof.Machine
end

