-- ==== Sys2Proof/Safety.lean ====
section
/-! DEFINITION. What the claims speak of: images and their sums, the shape of a quadtree's node table, the symbol table
of a tree, the invariant of the machine, and the external bytes a command may change. -/

namespace Sys2Proof.Machine

/-! ## Images -/

/-- The image in a buffer of row width `W` at `B`, as a function of column and row (spec/20_memory.md R61). -/
def imageAt (m : Memory) (B W : Nat) (x y : Nat) : Color := pix m B W x y

/-- The sum of a channel over the pixels of an image left of column `i` and above row `j`. -/
def prefixSum (f : Nat → Nat → Color) (i j : Nat) (c : Chan) : Nat :=
  ∑ y ∈ Finset.range j, ∑ x ∈ Finset.range i, ((f x y).get c).toNat

/-- The sum of a channel over a rectangle of an image. -/
def rectTotal (f : Nat → Nat → Color) (r : Rect) (c : Chan) : Nat :=
  ∑ j ∈ Finset.range r.h, ∑ i ∈ Finset.range r.w, ((f (r.x + i) (r.y + j)).get c).toNat

/-- The store `t` is the summed-area table of the W × H image `f`: cell (x, y, c) holds the inclusive sum of channel c
over `[0..x] × [0..y]` (spec/10_state.md R50, spec/40_sat_region.md R131). -/
def SatHolds (t : List SatCell) (W H : Nat) (f : Nat → Nat → Color) : Prop :=
  ∀ x y c, x < W → y < H → ((satAt t W x y).get c).toInt = prefixSum f (x + 1) (y + 1) c

/-- The mean colour of a rectangle of an image: the truncated mean of each channel, and black for a zero-area rectangle
(spec/40_sat_region.md R134; `n / 0` is 0 for natural numbers). -/
def meanColor (f : Nat → Nat → Color) (r : Rect) : Color :=
  Rgb.ofFn fun c => BitVec.ofNat 8 (rectTotal f r c / r.area)

/-- How many pixels of a rectangle of an image lie within the tolerance `L` of a colour, by the squared distance
(spec/40_sat_region.md R135). -/
def nearCount (f : Nat → Nat → Color) (r : Rect) (avg : Color) (L : Nat) : Nat :=
  ((Finset.range r.w ×ˢ Finset.range r.h).filter fun p =>
    10000 * distSq (f (r.x + p.1) (r.y + p.2)) avg ≤ 65025 * L * L).card

/-! ## Trees -/

/-- A pixel lies in a rectangle (spec/00_scope.md R10). -/
def inRect (r : Rect) (px py : Nat) : Bool := r.x ≤ px && px < r.x + r.w && r.y ≤ py && py < r.y + r.h

/-- A rectangle lies in a W × H image. -/
def inside (W H : Nat) (r : Rect) : Prop := r.x + r.w ≤ W ∧ r.y + r.h ≤ H

/-- How many LEAF records of a list hold a pixel. -/
def leavesAt (ns : List NodeRec) (px py : Nat) : Nat :=
  (ns.filter fun n => n.leafColor?.isSome && inRect n.rect px py).length

/-- `ns` is the pre-order of a quadtree on the rectangle `r` with root depth `d` and no node deeper than `d + f`
(spec/10_state.md R51, spec/41_quadtree.md R163): a LEAF record alone, or an INTERNAL record followed by the pre-orders
of the four children. -/
inductive PreOrder : Nat → Nat → Rect → List NodeRec → Prop where
  | leaf (f d : Nat) (r : Rect) (c : Color) : PreOrder f d r [NodeRec.ofRect (.leaf c) d r]
  | internal (f d : Nat) (r : Rect) (n0 n1 n2 n3 : List NodeRec) :
      PreOrder f (d + 1) r.child0 n0 → PreOrder f (d + 1) r.child1 n1 → PreOrder f (d + 1) r.child2 n2 →
      PreOrder f (d + 1) r.child3 n3 →
      PreOrder (f + 1) d r (NodeRec.ofRect .internal d r :: (n0 ++ n1 ++ n2 ++ n3))

/-- `ns` is the pre-order of the subtree that the stopping policy of spec/41_quadtree.md R162 builds on `r` at depth
`d`: a forced split below `minD`; else a LEAF of the rectangle's mean colour at `maxD` or where the rectangle passes the
test `homog`; else a split. -/
inductive Built (minD maxD : Nat) (homog : Rect → Prop) (mean : Rect → Color) : Nat → Rect → List NodeRec → Prop where
  | leaf (d : Nat) (r : Rect) : minD ≤ d → (maxD ≤ d ∨ homog r) →
      Built minD maxD homog mean d r [NodeRec.ofRect (.leaf (mean r)) d r]
  | split (d : Nat) (r : Rect) (n0 n1 n2 n3 : List NodeRec) :
      (d < minD ∨ d < maxD ∧ ¬homog r) →
      Built minD maxD homog mean (d + 1) r.child0 n0 → Built minD maxD homog mean (d + 1) r.child1 n1 →
      Built minD maxD homog mean (d + 1) r.child2 n2 → Built minD maxD homog mean (d + 1) r.child3 n3 →
      Built minD maxD homog mean d r (NodeRec.ofRect .internal d r :: (n0 ++ n1 ++ n2 ++ n3))

/-- The table `t` is the symbol table of the leaf colours `cs`: ascending colours, each with its number of occurrences
and no code, and every colour of `cs` is there (spec/41_quadtree.md R165, R166). -/
structure SymbolsOf (cs : List Color) (t : List SymEntry) : Prop where
  sorted : t.Pairwise fun a b => a.color.pack < b.color.pack
  counted : ∀ e ∈ t, e.freq = BitVec.ofNat 32 (cs.count e.color) ∧ e.code = [] ∧ e.color ∈ cs
  complete : ∀ c ∈ cs, ∃ e ∈ t, e.color = c

/-- A set of codes is prefix-free: no code begins another entry's code (spec/42_huffman.md R193). -/
def PrefixFree (cs : List (List Bool)) : Prop := cs.Pairwise fun a b => ¬a <+: b ∧ ¬b <+: a

/-- The root rectangle of a W × H image (spec/41_quadtree.md R160). -/
def rootRect (w h : Word) : Rect := ⟨0, 0, w.toNat, h.toNat⟩

/-! ## The machine -/

/-- What VALID and the counters promise of the internal memories (spec/10_state.md R37 to R40, R50 to R55). -/
structure State.TablesOk (s : State) : Prop where
  /-- SAT_V: the SAT store holds a table of size SAT_W × SAT_H (R37, R50). -/
  sat : s.valid.satV = true →
    s.sat.length = s.cnt.satW.toNat * s.cnt.satH.toNat ∧ s.sat.length ≤ s.par.maxPixels ∧
      1 ≤ s.cnt.satW.toNat ∧ 1 ≤ s.cnt.satH.toNat
  /-- TREE_V: the node table holds a complete quadtree of NODE_COUNT records within the capacities (R37, R40, R51). -/
  tree : s.valid.treeV = true →
    PreOrder s.par.maxTreeDepth 0 (rootRect s.cnt.treeW s.cnt.treeH) s.nodes ∧
      s.nodes.length = s.cnt.nodeCount.toNat ∧ s.nodes.length ≤ s.par.maxNodes ∧
      (leafColors s.nodes).length = s.cnt.leafCount.toNat
  /-- The root rectangle of a tree is an image's: its dimensions are positive as signed words, as the container needs
  them (R39, spec/30_encoding.md R100). -/
  root : s.valid.treeV = true → 0 < s.cnt.treeW.toInt ∧ 0 < s.cnt.treeH.toInt
  /-- With a tree, the symbol table holds SYM_COUNT entries within its capacity (R40, R53). -/
  syms : s.valid.treeV = true → s.syms.length = s.cnt.symCount.toNat ∧ s.syms.length ≤ s.par.maxSymbols
  /-- FREQ_V: the symbol table holds the distinct leaf colours with their frequencies, ascending (R37, R53). -/
  freq : s.valid.freqV = true → SymbolsOf (leafColors s.nodes) (s.syms.map fun e => { e with code := [] })
  /-- CODE_V: every entry holds a code, within P_MAX_CODE_LEN; without it none has one (R37, R54). -/
  codes : ∀ e ∈ s.syms,
    if s.valid.codeV then 1 ≤ e.code.length ∧ e.code.length ≤ s.par.maxCodeLen else e.code = []
  /-- The codes of a table with frequencies are HUF_BUILD's (R37, spec/42_huffman.md R193). -/
  huf : s.valid.freqV = true → s.valid.codeV = true → s.syms.map (·.code) = hufCodes (symFreqs s.syms)
  /-- The decoder trie is within its capacity (R55). -/
  trie : s.trie.length ≤ s.par.maxTrieNodes
  /-- Frequencies and codes belong to a tree, and a tree is either QT_BUILD's, with frequencies, or DECODE's, without
  (spec/60_exceptions.md R285). -/
  flags : (s.valid.freqV = true → s.valid.treeV = true) ∧ (s.valid.codeV = true → s.valid.treeV = true) ∧
    (s.valid.treeDec = true → s.valid.treeV = true) ∧ (s.valid.treeV = true → s.valid.treeDec = !s.valid.freqV)

/-- The invariant of the machine. -/
structure State.Inv (s : State) : Prop where
  /-- The parameters satisfy the constraint column of spec/00_scope.md R6. -/
  par : s.par.wellFormed = true
  /-- External memory is in its canonical form. -/
  mem : Memory.wf s.mem = true
  /-- External memory holds only addresses of the 2^32-byte space (spec/20_memory.md R60). -/
  memBound : ∀ c ∈ s.mem, c.1 < addressSpace
  /-- A running command has no completion pending: acceptance cleared DONE and ERR_CODE (spec/60_exceptions.md R282). -/
  busyClean : s.status.busy = true → s.status.done = false ∧ s.status.errCode = 0
  /-- Only a running command can have an abort pending (spec/60_exceptions.md R288). -/
  abortBusy : s.pendingAbort = true → s.status.busy = true
  /-- STAGE never holds a reserved code (spec/10_state.md R24). -/
  stage : s.status.stage.toNat ≤ 7
  /-- ERR_CODE never holds a reserved code (spec/60_exceptions.md R281). -/
  errCode : s.status.errCode.toNat ≤ 8
  /-- ERR_INFO is 0 after a successful completion (spec/10_state.md R42). -/
  errInfo : s.status.busy = false → s.status.errCode = 0 → s.errInfo = 0
  /-- ABORT and SOFT_RESET are never accepted as commands (spec/10_state.md R25). -/
  busyCmd : s.status.busy = true → decode s.cmd ≠ .ok .abort ∧ decode s.cmd ≠ .ok .softReset
  /-- Between two steps no bit cursor, no trie and no worker pool is left (spec/43_bitstream.md R210, spec/10_state.md R55,
  R57). -/
  inflight : s.cursor = 0 ∧ s.trie = [] ∧ s.pool = none
  /-- The internal memories are as VALID promises. -/
  tables : s.TablesOk

/-- `s` after a command has completed (spec/60_exceptions.md R286, R287): BUSY = 0, DONE = 1, STAGE, ERR_CODE and
ERR_INFO as given, the in-flight state of the command discarded (spec/10_state.md R55, R57, spec/43_bitstream.md R210);
nothing else is written. -/
def State.ended (s : State) (stage : BitVec 4) (code : BitVec 8) (info : Word) : State :=
  { s with
    errInfo := info
    status := { s.status with busy := false, done := true, stage := stage, errCode := code }
    pendingAbort := false
    cursor := 0
    trie := []
    pool := none }

/-- `s` with the agenda after its first event: the event has been handled. -/
def State.withRest (s : State) (rest : List Event) : State := { s with agenda := rest }

/-- The code of a command's first stage (spec/10_state.md R24, spec/30_encoding.md R92); 0 for a word that is no legal
command. -/
def firstStage (v : Word) : BitVec 4 :=
  match decode v with
  | .ok .nop => 0
  | .ok .satBuild => 1
  | .ok .regionAvg => 7
  | .ok .regionHomog => 7
  | .ok .qtBuild => 2
  | .ok .hufBuild => 3
  | .ok .encode => 4
  | .ok .decode => 5
  | .ok .reconstruct => 6
  | .ok .compress => 1
  | .ok .decompress => 5
  | .ok .inspectSat => 7
  | .ok .inspectNode => 7
  | .ok .inspectSym => 7
  | .ok .abort => 0
  | .ok .softReset => 0
  | .error _ => 0

/-- The bits a write to a register stores: the fields of the read-write registers (spec/10_state.md R20, R22, R26 to
R35); none for STATUS, CMD and the read-only registers. -/
def writeMask : Reg → Option Word
  | .ctrl => some 0x00000001
  | .imgW => some 0xFFFFFFFF
  | .imgH => some 0xFFFFFFFF
  | .minDepth => some 0x000000FF
  | .maxDepth => some 0x000000FF
  | .lossPercent => some 0x000000FF
  | .maxConcDepth => some 0x000000FF
  | .pixBase => some 0xFFFFFFFF
  | .outBase => some 0xFFFFFFFF
  | .outCap => some 0xFFFFFFFF
  | .cntBase => some 0xFFFFFFFF
  | .cntLen => some 0xFFFFFFFF
  | .qX => some 0xFFFFFFFF
  | .qY => some 0xFFFFFFFF
  | .qW => some 0xFFFFFFFF
  | .qH => some 0xFFFFFFFF
  | .qColor => some 0x00FFFFFF
  | .qIndex => some 0xFFFFFFFF
  | _ => none

/-- Every byte of a range answers an access. -/
def busRange (p : Params) (k : AccessKind) (base n : Nat) : Prop := ∀ a, base ≤ a → a < base + n → p.busOK a k = true

/-- An address lies in a buffer a stage of the command may store to: the container of ENCODE, the output image of
RECONSTRUCT (spec/20_memory.md R73). -/
def storable (i : Instr) (s : State) (a : Nat) : Bool :=
  (stopPoints ((plan i).map StageId.stage) s).any fun p => (pendingWrites p).any fun c => c.1 == a

/-! ## Start checks

`…Failure s c i`: the start checks of a command (spec/60_exceptions.md R284) fail at `s`, in the order its rule lists them,
with the error code `c` and the information word `i`. -/

/-- SAT_BUILD (spec/40_sat_region.md R130). -/
abbrev satBuildFailure (s : State) (c : BitVec 8) (i : Word) : Prop :=
  if s.snap.imgW = 0 then c = 4 ∧ i = 0x010
  else if s.snap.imgH = 0 then c = 4 ∧ i = 0x014
  else if s.par.maxPixels < s.snap.imgW.toNat * s.snap.imgH.toNat then c = 6 ∧ i = 6
  else 2 ^ 32 < s.snap.pixBase.toNat + 3 * (s.snap.imgW.toNat * s.snap.imgH.toNat) ∧ c = 1 ∧ i = s.snap.pixBase

/-- REGION_HOMOG (spec/40_sat_region.md R140). -/
abbrev regionHomogFailure (s : State) (c : BitVec 8) (i : Word) : Prop :=
  if s.snap.imgW = 0 then c = 4 ∧ i = 0x010
  else if s.snap.imgH = 0 then c = 4 ∧ i = 0x014
  else if s.par.maxPixels < s.snap.imgW.toNat * s.snap.imgH.toNat then c = 6 ∧ i = 6
  else if 100 < s.snap.lossPercent.toNat then c = 4 ∧ i = 0x020
  else if s.snap.imgW.toNat < s.snap.qX.toNat + s.snap.qW.toNat then c = 8 ∧ i = 0x03C
  else if s.snap.imgH.toNat < s.snap.qY.toNat + s.snap.qH.toNat then c = 8 ∧ i = 0x040
  else 2 ^ 32 < s.snap.pixBase.toNat + 3 * (s.snap.imgW.toNat * s.snap.imgH.toNat) ∧ c = 1 ∧ i = s.snap.pixBase

/-- QT_BUILD (spec/41_quadtree.md R161). -/
abbrev qtBuildFailure (s : State) (c : BitVec 8) (i : Word) : Prop :=
  if s.snap.maxDepth.toNat < s.snap.minDepth.toNat then c = 4 ∧ i = 0x018
  else if s.par.maxTreeDepth < s.snap.maxDepth.toNat then c = 4 ∧ i = 0x01C
  else if 100 < s.snap.lossPercent.toNat then c = 4 ∧ i = 0x020
  else if s.valid.satV = false then c = 5 ∧ i = 0x01
  else 2 ^ 32 < s.snap.pixBase.toNat + 3 * (s.cnt.satW.toNat * s.cnt.satH.toNat) ∧ c = 1 ∧ i = s.snap.pixBase

/-- REGION_AVG (spec/40_sat_region.md R136). -/
abbrev regionAvgFailure (s : State) (c : BitVec 8) (i : Word) : Prop :=
  if s.valid.satV = false then c = 5 ∧ i = 0x01
  else if s.cnt.satW.toNat < s.snap.qX.toNat + s.snap.qW.toNat then c = 8 ∧ i = 0x03C
  else s.cnt.satH.toNat < s.snap.qY.toNat + s.snap.qH.toNat ∧ c = 8 ∧ i = 0x040

/-- INSPECT_SAT (spec/40_sat_region.md R145). -/
abbrev inspectSatFailure (s : State) (c : BitVec 8) (i : Word) : Prop :=
  if s.valid.satV = false then c = 5 ∧ i = 0x01
  else if s.cnt.satW.toNat ≤ s.snap.qX.toNat then c = 8 ∧ i = 0x03C
  else s.cnt.satH.toNat ≤ s.snap.qY.toNat ∧ c = 8 ∧ i = 0x040

/-- INSPECT_NODE (spec/41_quadtree.md R175). -/
abbrev inspectNodeFailure (s : State) (c : BitVec 8) (i : Word) : Prop :=
  if s.valid.treeV = false then c = 5 ∧ i = 0x02
  else s.cnt.nodeCount.toNat ≤ s.snap.qIndex.toNat ∧ c = 8 ∧ i = 0x050

/-- INSPECT_SYM (spec/42_huffman.md R196). -/
abbrev inspectSymFailure (s : State) (c : BitVec 8) (i : Word) : Prop :=
  if s.valid.freqV = false ∧ s.valid.codeV = false then c = 5 ∧ i = 0x0C
  else s.cnt.symCount.toNat ≤ s.snap.qIndex.toNat ∧ c = 8 ∧ i = 0x050

/-- ENCODE (spec/43_bitstream.md R214). -/
abbrev encodeFailure (s : State) (c : BitVec 8) (i : Word) : Prop :=
  if s.valid.treeV = false ∨ s.valid.codeV = false ∨ s.valid.treeDec = true then
    c = 5 ∧ i.toNat = (if s.valid.treeV then 0 else 2) + (if s.valid.codeV then 0 else 8) +
      (if s.valid.treeDec then 16 else 0)
  else if 2 ^ 32 < s.snap.cntBase.toNat + s.snap.cntLen.toNat then c = 1 ∧ i = s.snap.cntBase
  else s.snap.cntLen.toNat < containerSize s.syms s.nodes ∧ c = 1 ∧
    i.toNat = min (containerSize s.syms s.nodes) 0xFFFFFFFF

/-- RECONSTRUCT (spec/44_reconstruct_control.md R250). -/
abbrev reconstructFailure (s : State) (c : BitVec 8) (i : Word) : Prop :=
  if s.valid.treeV = false then c = 5 ∧ i = 0x02
  else if s.snap.outCap.toNat < 3 * (s.cnt.treeW.toNat * s.cnt.treeH.toNat) then
    c = 1 ∧ i.toNat = min (3 * (s.cnt.treeW.toNat * s.cnt.treeH.toNat)) 0xFFFFFFFF
  else 2 ^ 32 < s.snap.outBase.toNat + 3 * (s.cnt.treeW.toNat * s.cnt.treeH.toNat) ∧ c = 1 ∧ i = s.snap.outBase

/-- The header of DECODE's container, with the words `w`, `h` and `n` where it is long enough for them
(spec/43_bitstream.md R211, R221). -/
abbrev headerFailure (s : State) (w h n : Word) (c : BitVec 8) (i : Word) : Prop :=
  if s.snap.cntLen.toNat < 4 then c = 3 ∧ i = s.snap.cntLen
  else if w.toInt ≤ 0 then c = 3 ∧ i = 0
  else if s.snap.cntLen.toNat < 8 then c = 3 ∧ i = s.snap.cntLen
  else if h.toInt ≤ 0 then c = 3 ∧ i = 4
  else if s.snap.cntLen.toNat < 12 then c = 3 ∧ i = s.snap.cntLen
  else if n.toInt < 0 then c = 3 ∧ i = 8
  else s.par.maxSymbols < n.toNat ∧ c = 6 ∧ i = 2

end Sys2Proof.Machine
end

