-- ==== Sys2Proof/Certificates/Slice0/Obligations.lean ====
section
/-! DEFINITION. The statements for the provers. Each says, of every state that meets its hypotheses, what a rule of the
spec says; `s.ended stage code info` is `s` after a completion and `s.withRest rest` is `s` with its next event handled
(both in Sys2Proof/Safety.lean), so that an equation `exec i s = .next …` is a result and a frame at once. Where a docstring
names a file of notes/assumptions or "the spec's own inference", that clause is not a rule of the spec. -/

open Sys2Proof Sys2Proof.Machine

/-! ## Encoding -/

/-- The format of a command word (spec/30_encoding.md R91): every command has one exact word, OPCODE in [7:0] and RSVD = 0
in [31:8], and no other word is read as that command. -/
def Obligations.DecodeExact : Prop :=
  ∀ (v : Word) (i : Instr), (decode v = .ok i ↔ v = encode i) ∧ (encode i).extractLsb 31 8 = 0

/-- The words no command has: RSVD ≠ 0, or OPCODE in 0x0F .. 0xFE (R93). -/
def Obligations.IllegalWords : Prop :=
  ∀ v : Word,
    (decode v = .error .reservedBits ↔ 0x100 ≤ v.toNat) ∧
      (decode v = .error .reservedOpcode ↔ 0x0F ≤ v.toNat ∧ v.toNat ≤ 0xFE)

/-- The sixteen words of the opcode map, written out (R92). -/
def Obligations.DecodeWords : Prop :=
  decode 0x00000000#32 = .ok .nop ∧ decode 0x00000001#32 = .ok .satBuild ∧ decode 0x00000002#32 = .ok .regionAvg ∧
    decode 0x00000003#32 = .ok .regionHomog ∧ decode 0x00000004#32 = .ok .qtBuild ∧
    decode 0x00000005#32 = .ok .hufBuild ∧ decode 0x00000006#32 = .ok .encode ∧ decode 0x00000007#32 = .ok .decode ∧
    decode 0x00000008#32 = .ok .reconstruct ∧ decode 0x00000009#32 = .ok .compress ∧
    decode 0x0000000A#32 = .ok .decompress ∧ decode 0x0000000B#32 = .ok .inspectSat ∧
    decode 0x0000000C#32 = .ok .inspectNode ∧ decode 0x0000000D#32 = .ok .inspectSym ∧
    decode 0x0000000E#32 = .ok .abort ∧ decode 0x000000FF#32 = .ok .softReset

/-! ## The life of a command -/

/-- When the next step runs a command word that decodes to `i`, the step is `exec i` on the state whose event has been
taken off the agenda. That a command is one step, and how its word comes to be fetched, is notes/assumptions/6.md and
7.md. -/
def Obligations.StepRunsCommand : Prop :=
  ∀ (s : State) (w : Word) (i : Instr), fetchedWord s = some w → decode w = .ok i → step s = exec i s.pop

/-- Acceptance (spec/60_exceptions.md R282, R283): a CMD write while idle, of any word but SOFT_RESET's and ABORT's, sets
BUSY, clears DONE and ERR_CODE, sets STAGE to the first stage's code, latches CMD, takes the snapshot and clears the
pending abort; nothing else changes but the agenda and the model's record of the old STAGE. A word that is no command is
accepted alike and completes at the engine's first step. -/
def Obligations.AcceptCommand : Prop :=
  ∀ (s : State) (v : Word) (rest : List Event), s.agenda = .write (regAddress s.par .cmd) 4 v :: rest →
    s.status.busy = false → v ≠ 0x000000FF → v ≠ 0x0000000E →
    ∃ t : State, step s = .next t ∧
      t = { s.withRest rest with
        cmd := v
        status := { s.status with busy := true, done := false, errCode := 0, stage := firstStage v }
        snap := s.cfg
        pendingAbort := false
        stageBefore := s.status.stage } ∧
      ∀ d, decode v = .error d → t.status.stage = 0 ∧ step (t.withRest []) = .next ((t.withRest []).ended 0 7 v)

/-- A CMD write while BUSY, of any word but SOFT_RESET's and ABORT's, is ignored and sets OVR (spec/10_state.md R25). -/
def Obligations.BusyWriteLost : Prop :=
  ∀ (s : State) (v : Word) (rest : List Event), s.agenda = .write (regAddress s.par .cmd) 4 v :: rest →
    s.status.busy = true → v ≠ 0x000000FF → v ≠ 0x0000000E →
    step s = .next { s.withRest rest with status := { s.status with ovr := true } }

/-- An illegal word completes at the engine's turn with ILLEGAL_COMMAND and the word in ERR_INFO; STAGE stays as
acceptance left it and no other state is touched (spec/30_encoding.md R93, spec/60_exceptions.md R284). -/
def Obligations.IllegalWordCompletes : Prop :=
  ∀ (s : State) (d : DecodeError), s.status.busy = true → s.pendingAbort = false → decode s.cmd = .error d →
    (s.agenda = [] ∨ ∃ rest, s.agenda = .engine :: rest) →
    step s = .next (s.pop.ended s.status.stage 7 s.cmd)

/-- Every command but ABORT and SOFT_RESET completes from every state: BUSY = 0, DONE = 1, a defined error code, ERR_INFO
0 after success; no bit cursor, no trie and no worker pool is left; and no command changes CTRL, CMD, OVR, a configuration
register, the snapshot, the parameters, the agenda or what the host has read (spec/60_exceptions.md R280, R281, R287,
spec/70_reset_and_hazards.md R335, spec/10_state.md R55, R57, spec/43_bitstream.md R210). That the command takes one step of
the model is notes/assumptions/6.md. -/
def Obligations.EveryCommandCompletes : Prop :=
  ∀ (i : Instr) (s : State), i ≠ .abort → i ≠ .softReset →
    ∃ t, exec i s = .next t ∧ t.status.busy = false ∧ t.status.done = true ∧ t.status.errCode.toNat ≤ 8 ∧
      (t.status.errCode = 0 → t.errInfo = 0) ∧ t.pendingAbort = false ∧ t.cursor = 0 ∧ t.trie = [] ∧ t.pool = none ∧
      t.status.ovr = s.status.ovr ∧
      t.irqEn = s.irqEn ∧ t.cmd = s.cmd ∧ t.cfg = s.cfg ∧ t.snap = s.snap ∧ t.par = s.par ∧ t.agenda = s.agenda ∧
      t.reads = s.reads

/-- Once an ABORT is pending, the command completes with ABORTED and ERR_INFO = 0 (spec/60_exceptions.md R288,
spec/44_reconstruct_control.md R262). A command of one stage then has no result: RES0 to RES5 and the counters are as before, the
VALID bits that the stage cleared at its start stay 0, and STAGE is its code. Where in the stage it may stop is
notes/assumptions/8.md. -/
def Obligations.AbortedReportsAborted : Prop :=
  ∀ (i : Instr) (s : State), i ≠ .abort → i ≠ .softReset → s.pendingAbort = true →
    ∃ t, exec i s = .next t ∧ t.status.errCode = 2 ∧ t.errInfo = 0 ∧ t.status.busy = false ∧ t.status.done = true ∧
      t.pendingAbort = false ∧
      ∀ k, plan i = [k] → t.res = s.res ∧ t.cnt = s.cnt ∧ t.valid = k.clearValid s.valid ∧ t.status.stage = k.code

/-- An error completion of a command of one stage is precise with respect to registers: RES0 to RES5 and all counters keep
their values, and VALID differs at most by the bits the stage clears at its start (spec/60_exceptions.md R285, R286; the
spec's own inference R289). -/
def Obligations.ErrorKeepsRegisters : Prop :=
  ∀ (i : Instr) (k : StageId) (s t : State), plan i = [k] → s.pendingAbort = false → exec i s = .next t →
    t.status.errCode ≠ 0 →
    t.res = s.res ∧ t.cnt = s.cnt ∧ t.valid = k.clearValid s.valid ∧ t.status.stage = k.code

/-- What each stage clears and sets in VALID when it succeeds (R285). -/
def Obligations.SuccessSetsValid : Prop :=
  ∀ (i : Instr) (s t : State), s.pendingAbort = false → exec i s = .next t → t.status.errCode = 0 →
    (i = .satBuild → t.valid = { s.valid with satV := true }) ∧
    (i = .qtBuild → t.valid = ⟨s.valid.satV, true, true, false, false⟩) ∧
    (i = .hufBuild → t.valid = { s.valid with codeV := true }) ∧
    (i = .decode → t.valid = ⟨s.valid.satV, true, false, true, true⟩) ∧
    (i = .encode ∨ i = .reconstruct ∨ i = .regionAvg ∨ i = .regionHomog ∨ i = .inspectSat ∨ i = .inspectNode ∨
      i = .inspectSym ∨ i = .nop → t.valid = s.valid)

/-- A write to a configuration register stores its field bits at once, BUSY or not, and the running command does not see
them: it ends in the state it would have ended in, with that write (spec/10_state.md R44, spec/60_exceptions.md R283). The
same holds of a write to CTRL or to a read-only register. -/
def Obligations.ConfigurationFrozen : Prop :=
  ∀ (i : Instr) (s t : State) (r : Reg) (v : Word), i ≠ .softReset → r ≠ .status → exec i s = .next t →
    exec i (regWrite r v s) = .next (regWrite r v t) ∧
      ∀ m, writeMask r = some m → regRead r (regWrite r v s) = v &&& m ∧ regRead r (regWrite r v t) = v &&& m

/-- ABORT (spec/44_reconstruct_control.md R262, spec/60_exceptions.md R288): its CMD write sets the pending-abort flag while
BUSY and has no effect at all while idle. -/
def Obligations.AbortWrite : Prop :=
  ∀ s : State,
    (s.status.busy = true → exec .abort s = .next { s with pendingAbort := true }) ∧
    (s.status.busy = false → exec .abort s = .next s) ∧
    ∀ rest, s.agenda = .write (regAddress s.par .cmd) 4 0x0000000E :: rest → step s = exec .abort (s.withRest rest)

/-- SOFT_RESET (spec/44_reconstruct_control.md R263, spec/70_reset_and_hazards.md R320): from any state everything takes its
reset value but CMD, which reads 0x000000FF. External memory is unchanged while idle; a discarded command's destination
bytes are each as they were or as it would have written them, and which they are is a free value
(notes/assumptions/12.md); the emptied internal memories stand for unspecified contents (notes/assumptions/4.md). -/
def Obligations.SoftResetResult : Prop :=
  ∀ s : State, s.mem.wf = true →
    ∃ m n, exec .softReset s =
        .next { State.resetWith s.par with
          cmd := 0x000000FF
          mem := m
          agenda := s.agenda
          reads := s.reads
          freeIx := n
          readIx := s.readIx } ∧
      (s.status.busy = false → m = s.mem) ∧
      (∀ a, m.read a = s.mem.read a ∨ (a, m.read a) ∈ runningWrites s) ∧
      ∀ rest, s.agenda = .write (regAddress s.par .cmd) 4 0x000000FF :: rest → step s = exec .softReset (s.withRest rest)

/-- The reset input (spec/70_reset_and_hazards.md R320): as SOFT_RESET, with CMD = 0. What a discarded command leaves in its
destination is a free value (notes/assumptions/12.md); the internal memories are as notes/assumptions/4.md says. -/
def Obligations.ResetInput : Prop :=
  ∀ (s : State) (rest : List Event), s.mem.wf = true → s.agenda = .rst :: rest →
    ∃ m n, step s = .next { State.resetWith s.par with
        mem := m
        agenda := rest
        reads := s.reads
        freeIx := n
        readIx := s.readIx } ∧
      (s.status.busy = false → m = s.mem) ∧
      ∀ a, m.read a = s.mem.read a ∨ (a, m.read a) ∈ runningWrites s

/-- What every register reads after reset, for every value of the parameters (spec/10_state.md R20, R21, R29, R45,
spec/70_reset_and_hazards.md R320). -/
def Obligations.ResetRegisters : Prop :=
  ∀ (p : Params) (r : Reg), regRead r (State.resetWith p) =
    match r with
    | .id => 0x51540100
    | .maxConcDepth => 1
    | .cap0 => cap0Value p
    | .cap1 => BitVec.ofNat 32 p.maxPixels
    | .cap2 => BitVec.ofNat 32 p.maxNodes
    | .cap3 => BitVec.ofNat 32 p.maxSymbols
    | .cap4 => BitVec.ofNat 32 p.maxTrieNodes
    | _ => 0

/-! ## The register window -/

/-- CAP0 to CAP4 hold the parameters (spec/10_state.md R45), in every state of every legal implementation; no write and no
reset changes them. -/
def Obligations.CapabilityRegisters : Prop :=
  ∀ s : State, s.par.wellFormed = true →
    (regRead .cap0 s).toNat = s.par.maxTreeDepth + 256 * s.par.maxCodeLen + 65536 * min s.par.numWorkers 255 ∧
      (regRead .cap1 s).toNat = s.par.maxPixels ∧ (regRead .cap2 s).toNat = s.par.maxNodes ∧
      (regRead .cap3 s).toNat = s.par.maxSymbols ∧ (regRead .cap4 s).toNat = s.par.maxTrieNodes ∧
      ∀ r ∈ [Reg.cap0, .cap1, .cap2, .cap3, .cap4],
        (∀ v, regWrite r v s = s) ∧ regRead r (State.resetWith s.par) = regRead r s

/-- What a bus access reaches: register r exactly by a 32-bit access at its offset, and a reserved word exactly by an
aligned 32-bit access at 0x0AC to 0xFFC (spec/10_state.md R20, R47, spec/20_memory.md R70). What the host gets from
any other access is notes/assumptions/13.md. -/
def Obligations.WindowMap : Prop :=
  ∀ (p : Params) (addr size : Nat),
    (∀ r, target p addr size = .reg r ↔ size = 4 ∧ addr = p.mmioBase + r.offset) ∧
    (target p addr size = .reserved ↔
      size = 4 ∧ ∃ off, addr = p.mmioBase + off ∧ off % 4 = 0 ∧ 0x0AC ≤ off ∧ off ≤ 0xFFC)

/-- A write to a read-write register, BUSY or not, stores exactly the bits of its fields, at once, and changes no other
register, nor external memory, the internal memories or the running command's snapshot (spec/10_state.md R22, R43,
R44). -/
def Obligations.ConfigWrite : Prop :=
  ∀ (s : State) (r : Reg) (v m : Word) (rest : List Event), writeMask r = some m →
    s.agenda = .write (regAddress s.par r) 4 v :: rest →
    ∃ t, step s = .next t ∧ regRead r t = v &&& m ∧ (∀ q, q ≠ r → regRead q t = regRead q s) ∧
      t = { s.withRest rest with irqEn := t.irqEn, cfg := t.cfg }

/-- A write to a read-only register is ignored (spec/10_state.md R46), and so is one to a reserved offset, which reads 0
(R47). -/
def Obligations.ReadOnlyAndReserved : Prop :=
  (∀ (s : State) (r : Reg) (v : Word) (rest : List Event), writeMask r = none → r ≠ .status → r ≠ .cmd →
    s.agenda = .write (regAddress s.par r) 4 v :: rest → step s = .next (s.withRest rest)) ∧
  (∀ (s : State) (off : Nat) (v : Word) (rest : List Event), off % 4 = 0 → 0x0AC ≤ off → off ≤ 0xFFC →
    (s.agenda = .write (s.par.mmioBase + off) 4 v :: rest → step s = .next (s.withRest rest)) ∧
    (s.agenda = .read (s.par.mmioBase + off) 4 :: rest →
      step s = .next { s.withRest rest with reads := 0 :: s.reads }))

/-- A write to STATUS clears DONE and OVR where bits 1 and 3 are 1, and changes nothing else: ERR_CODE and ERR_INFO stay
(spec/10_state.md R23, spec/60_exceptions.md R292). -/
def Obligations.StatusWrite : Prop :=
  ∀ (s : State) (v : Word) (rest : List Event), s.agenda = .write (regAddress s.par .status) 4 v :: rest →
    step s = .next { s.withRest rest with
      status := { s.status with done := s.status.done && !v.getLsbD 1, ovr := s.status.ovr && !v.getLsbD 3 } }

/-- The bits of STATUS (spec/10_state.md R23): [0] BUSY, [1] DONE, [2] ERR = (ERR_CODE ≠ 0), [3] OVR, [7:4] STAGE,
[15:8] ERR_CODE, the rest 0; and of VALID (R37): [0] SAT_V, [1] TREE_V, [2] FREQ_V, [3] CODE_V, [4] TREE_DEC, the rest
0. -/
def Obligations.StatusAndValidBits : Prop :=
  ∀ s : State,
    (regRead .status s).toNat =
      (if s.status.busy then 1 else 0) + (if s.status.done then 2 else 0) + (if s.status.errCode ≠ 0 then 4 else 0) +
        (if s.status.ovr then 8 else 0) + 16 * s.status.stage.toNat + 256 * s.status.errCode.toNat ∧
    (regRead .valid s).toNat =
      (if s.valid.satV then 1 else 0) + (if s.valid.treeV then 2 else 0) + (if s.valid.freqV then 4 else 0) +
        (if s.valid.codeV then 8 else 0) + (if s.valid.treeDec then 16 else 0)

/-- A host read of a register while the block is idle, and of a register that is no result register at any time, records
exactly the value the register holds and changes nothing else. -/
def Obligations.RegisterRead : Prop :=
  ∀ (s : State) (r : Reg) (rest : List Event), s.agenda = .read (regAddress s.par r) 4 :: rest →
    (s.status.busy = false ∨ r.isResult = false) →
    step s = .next { s.withRest rest with reads := regRead r s :: s.reads }

/-- A read of STATUS while BUSY returns every field as it is but STAGE, which is an unspecified choice; no read of a
result register while BUSY changes anything but the host's record and the reads' supply of free values; and a read of
another result register returns its value before the command or its value after it (spec/70_reset_and_hazards.md R325).
The value before is the one the register still holds, and the value after is the one the engine's turn, or an ABORT before
it, will write (notes/assumptions/9.md, also for the range of STAGE). -/
def Obligations.BusyRead : Prop :=
  ∀ (s : State) (r : Reg) (rest : List Event), s.agenda = .read (regAddress s.par r) 4 :: rest →
    ∃ v n, step s = .next { s.withRest rest with reads := v :: s.reads, readIx := n } ∧
      (r = .status → ∃ c, v = ({ s.status with stage := c } : Status).word) ∧
      (r ≠ .status → v = regRead r s ∨
        (∃ u, engineTurn (s.withRest rest) = .next u ∧ v = regRead r u) ∨
        ∃ u, engineTurn { s.withRest rest with pendingAbort := true } = .next u ∧ v = regRead r u)

/-- The interrupt line (spec/60_exceptions.md R295): it is IRQ_EN and DONE; every completion raises it where IRQ_EN is set;
ACK, the acceptance of a command, and clearing IRQ_EN lower it; and it is low after reset. -/
def Obligations.InterruptLine : Prop :=
  (∀ s : State, s.irq = true ↔ s.irqEn = true ∧ s.status.done = true) ∧
  (∀ (i : Instr) (s t : State), i ≠ .abort → i ≠ .softReset → exec i s = .next t → t.irq = s.irqEn) ∧
  (∀ (s : State) (v : Word), v.getLsbD 1 = true → (regWrite .status v s).irq = false) ∧
  (∀ (s : State) (v : Word), (accept v s).irq = false) ∧
  (∀ (s : State) (v : Word), v.getLsbD 0 = false → (regWrite .ctrl v s).irq = false) ∧
  ∀ p : Params, (State.resetWith p).irq = false

/-! ## The host and external memory -/

/-- A host store of bytes below 2^32, outside the buffers of a running command, is read back at those addresses, and every
other address reads as before (spec/20_memory.md R60, R72, R76). Any other store is refused or faults
(notes/assumptions/13.md). -/
def Obligations.HostStore : Prop :=
  ∀ (s : State) (addr : Nat) (bytes : List Byte) (rest : List Event), s.mem.wf = true →
    s.agenda = .store addr bytes :: rest → addr + bytes.length ≤ 2 ^ 32 →
    (∀ a, addr ≤ a → a < addr + bytes.length → inRunningBuffer (s.withRest rest) a = false) →
    ∃ m, step s = .next { s.withRest rest with mem := m } ∧
      (∀ k (h : k < bytes.length), m.read (addr + k) = bytes[k]) ∧
      ∀ a, a < addr ∨ addr + bytes.length ≤ a → m.read a = s.mem.read a

/-- A host load records a byte: the one stored there, or, while a command runs, one the command would store there; nothing
else changes but the reads' supply of free values (spec/20_memory.md R75). Which of the two is a free value
(notes/assumptions/9.md). -/
def Obligations.HostLoad : Prop :=
  ∀ (s : State) (a : Nat) (rest : List Event), s.agenda = .load a :: rest → a < 2 ^ 32 →
    ∃ (b : Byte) (n : Nat), step s = .next { s.withRest rest with reads := b.setWidth 32 :: s.reads, readIx := n } ∧
      (b = s.mem.read a ∨ s.status.busy = true ∧ (a, b) ∈ runningWrites (s.withRest rest)) ∧
      (s.status.busy = false → n = s.readIx)

/-- What a command may store, whichever way it ends, aborts and bus errors included (spec/20_memory.md R67, R73,
spec/43_bitstream.md R216, spec/44_reconstruct_control.md R252, the last two the spec's own inferences): ENCODE only its
container's bytes, RECONSTRUCT only the output image, COMPRESS and DECOMPRESS only the container buffer and the output
buffer, the other commands nothing. -/
def Obligations.CommandMemoryFrame : Prop :=
  ∀ (i : Instr) (s t : State) (a : Nat), s.mem.wf = true → exec i s = .next t →
    (i = .encode → a < s.snap.cntBase.toNat ∨ s.snap.cntBase.toNat + containerSize s.syms s.nodes ≤ a) →
    (i = .reconstruct → a < s.snap.outBase.toNat ∨
      s.snap.outBase.toNat + 3 * (s.cnt.treeW.toNat * s.cnt.treeH.toNat) ≤ a) →
    (i = .compress → a < s.snap.cntBase.toNat ∨ s.snap.cntBase.toNat + s.snap.cntLen.toNat ≤ a) →
    (i = .decompress → a < s.snap.outBase.toNat ∨ s.snap.outBase.toNat + s.snap.outCap.toNat ≤ a) →
    i ≠ .softReset →
    t.mem.read a = s.mem.read a

/-! ## The start checks -/

/-- The start checks of SAT_BUILD, REGION_HOMOG and QT_BUILD, in their order (spec/60_exceptions.md R284): the first that
fails names the error, and the command completes with it; SAT_BUILD and QT_BUILD have cleared their VALID bits. The
emptied tables stand for unspecified contents (notes/assumptions/4.md). -/
def Obligations.BuildChecks : Prop :=
  ∀ (s : State) (c : BitVec 8) (i : Word), s.pendingAbort = false →
    (satBuildFailure s c i →
      exec .satBuild s = .next ({ s with sat := [], valid := { s.valid with satV := false } }.ended 1 c i)) ∧
    (regionHomogFailure s c i → exec .regionHomog s = .next (s.ended 7 c i)) ∧
    (qtBuildFailure s c i →
      exec .qtBuild s = .next ({ s with
        nodes := []
        syms := []
        valid := ⟨s.valid.satV, false, false, false, false⟩ }.ended 2 c i))

/-- The start checks of the query commands, in their order (R284): nothing but the completion is written. -/
def Obligations.QueryChecks : Prop :=
  ∀ (s : State) (c : BitVec 8) (i : Word), s.pendingAbort = false →
    (regionAvgFailure s c i → exec .regionAvg s = .next (s.ended 7 c i)) ∧
    (inspectSatFailure s c i → exec .inspectSat s = .next (s.ended 7 c i)) ∧
    (inspectNodeFailure s c i → exec .inspectNode s = .next (s.ended 7 c i)) ∧
    (inspectSymFailure s c i → exec .inspectSym s = .next (s.ended 7 c i))

/-- The start checks of HUF_BUILD, ENCODE, DECODE and RECONSTRUCT, in their order (R284): no byte of external memory is
stored. The emptied tables stand for unspecified contents (notes/assumptions/4.md). -/
def Obligations.CodecChecks : Prop :=
  ∀ (s : State) (c : BitVec 8) (i : Word), s.pendingAbort = false →
    (s.valid.freqV = false →
      exec .hufBuild s = .next ({ s with
        syms := s.syms.map (fun (e : SymEntry) => { e with code := [] })
        valid := { s.valid with codeV := false } }.ended 3 5 0x04)) ∧
    (encodeFailure s c i → exec .encode s = .next (s.ended 4 c i)) ∧
    (2 ^ 32 < s.snap.cntBase.toNat + s.snap.cntLen.toNat →
      exec .decode s = .next ({ s with
        nodes := []
        syms := []
        valid := ⟨s.valid.satV, false, false, false, false⟩ }.ended 5 1 s.snap.cntBase)) ∧
    (reconstructFailure s c i → exec .reconstruct s = .next (s.ended 6 c i))

/-! ## The commands -/

/-- NOP completes with success and touches no other state; from its acceptance STAGE is 0 (spec/44_reconstruct_control.md
R264). -/
def Obligations.NopCompletes : Prop :=
  ∀ s : State,
    (s.pendingAbort = false → exec .nop s = .next (s.ended s.status.stage 0 0)) ∧
    exec .nop (accept (encode .nop) s) = .next ((accept (encode .nop) s).ended 0 0 0)

/-- SAT_BUILD (spec/40_sat_region.md R130, R131): where its checks pass and the image answers, the SAT store holds the
image's inclusive sums, one cell per pixel, and SAT_W, SAT_H and SAT_V are written. -/
def Obligations.SatBuildResult : Prop :=
  ∀ s : State, s.pendingAbort = false → s.par.wellFormed = true → s.snap.imgW ≠ 0 → s.snap.imgH ≠ 0 →
    s.snap.imgW.toNat * s.snap.imgH.toNat ≤ s.par.maxPixels →
    s.snap.pixBase.toNat + 3 * (s.snap.imgW.toNat * s.snap.imgH.toNat) ≤ 2 ^ 32 →
    busRange s.par .read s.snap.pixBase.toNat (3 * (s.snap.imgW.toNat * s.snap.imgH.toNat)) →
    ∃ st, exec .satBuild s = .next ({ s with
        sat := st
        cnt := { s.cnt with satW := s.snap.imgW, satH := s.snap.imgH }
        valid := { s.valid with satV := true } }.ended 1 0 0) ∧
      st.length = s.snap.imgW.toNat * s.snap.imgH.toNat ∧
      SatHolds st s.snap.imgW.toNat s.snap.imgH.toNat (imageAt s.mem s.snap.pixBase.toNat s.snap.imgW.toNat)

/-- A bus error in SAT_BUILD: IO_FAILURE with the address of a failing byte of the image, SAT_V cleared, no result
(spec/20_memory.md R66, spec/40_sat_region.md R130). The emptied tables stand for unspecified contents
(notes/assumptions/4.md). -/
def Obligations.SatBuildBusError : Prop :=
  ∀ s : State, s.pendingAbort = false → s.snap.imgW ≠ 0 → s.snap.imgH ≠ 0 →
    s.snap.imgW.toNat * s.snap.imgH.toNat ≤ s.par.maxPixels →
    s.snap.pixBase.toNat + 3 * (s.snap.imgW.toNat * s.snap.imgH.toNat) ≤ 2 ^ 32 →
    ¬busRange s.par .read s.snap.pixBase.toNat (3 * (s.snap.imgW.toNat * s.snap.imgH.toNat)) →
    ∃ (a : Word) (n : Nat), exec .satBuild s = .next ({ s with
        sat := []
        valid := { s.valid with satV := false }
        freeIx := n }.ended 1 1 a) ∧
      s.snap.pixBase.toNat ≤ a.toNat ∧
      a.toNat < s.snap.pixBase.toNat + 3 * (s.snap.imgW.toNat * s.snap.imgH.toNat) ∧
      s.par.busOK a.toNat .read = false

/-- REGION_AVG (spec/40_sat_region.md R133, R134, R136): over a SAT of the image `f`, the truncated mean of each channel of
the query rectangle, black for a zero-area one. -/
def Obligations.RegionAvgResult : Prop :=
  ∀ (s : State) (f : Nat → Nat → Color), s.pendingAbort = false → s.valid.satV = true →
    SatHolds s.sat s.cnt.satW.toNat s.cnt.satH.toNat f →
    s.snap.qX.toNat + s.snap.qW.toNat ≤ s.cnt.satW.toNat → s.snap.qY.toNat + s.snap.qH.toNat ≤ s.cnt.satH.toNat →
    exec .regionAvg s = .next ({ s with res :=
      { res0 := (meanColor f (queryRect s.snap)).r.setWidth 32
        res1 := (meanColor f (queryRect s.snap)).g.setWidth 32
        res2 := (meanColor f (queryRect s.snap)).b.setWidth 32
        res3 := ((meanColor f (queryRect s.snap)).pack).setWidth 32
        res4 := BitVec.ofNat 32 (s.snap.qW.toNat * s.snap.qH.toNat)
        res5 := 0 } }.ended 7 0 0)

/-- REGION_HOMOG (spec/40_sat_region.md R135, R140): count, n and the verdict `10·count ≥ 9·n`, from the raw pixels; only
the pixels of the query rectangle need to answer. -/
def Obligations.RegionHomogResult : Prop :=
  ∀ s : State, s.pendingAbort = false → s.snap.imgW ≠ 0 → s.snap.imgH ≠ 0 →
    s.snap.imgW.toNat * s.snap.imgH.toNat ≤ s.par.maxPixels → s.snap.lossPercent.toNat ≤ 100 →
    s.snap.qX.toNat + s.snap.qW.toNat ≤ s.snap.imgW.toNat → s.snap.qY.toNat + s.snap.qH.toNat ≤ s.snap.imgH.toNat →
    s.snap.pixBase.toNat + 3 * (s.snap.imgW.toNat * s.snap.imgH.toNat) ≤ 2 ^ 32 →
    (∀ px py, inRect (queryRect s.snap) px py = true →
      busRange s.par .read (pixAddr s.snap.pixBase.toNat s.snap.imgW.toNat px py) 3) →
    ∀ count n, count = nearCount (imageAt s.mem s.snap.pixBase.toNat s.snap.imgW.toNat) (queryRect s.snap)
        (.unpack s.snap.qColor) s.snap.lossPercent.toNat →
      n = s.snap.qW.toNat * s.snap.qH.toNat →
      exec .regionHomog s = .next ({ s with res :=
        ⟨BitVec.ofNat 32 count, BitVec.ofNat 32 n, if 9 * n ≤ 10 * count then 1 else 0, 0, 0, 0⟩ }.ended 7 0 0)

/-- The distance test of isHomogeneous is exact over the reals: a pixel is near exactly if its Euclidean distance from the
average is at most `L·255/100` (spec/40_sat_region.md R135). -/
def Obligations.HomogDistance : Prop :=
  ∀ (L : Nat) (p avg : Color),
    withinLoss L p avg = true ↔
      Real.sqrt (((p.r.toNat : ℝ) - avg.r.toNat) ^ 2 + ((p.g.toNat : ℝ) - avg.g.toNat) ^ 2 +
        ((p.b.toNat : ℝ) - avg.b.toNat) ^ 2) ≤ (L : ℝ) * 255 / 100

/-- INSPECT_SAT (spec/40_sat_region.md R145): the three accumulators of the cell, as two's complement words. -/
def Obligations.InspectSatResult : Prop :=
  ∀ (s : State) (f : Nat → Nat → Color), s.pendingAbort = false → s.valid.satV = true →
    SatHolds s.sat s.cnt.satW.toNat s.cnt.satH.toNat f →
    s.snap.qX.toNat < s.cnt.satW.toNat → s.snap.qY.toNat < s.cnt.satH.toNat →
    exec .inspectSat s = .next ({ s with res :=
      ⟨BitVec.ofNat 32 (prefixSum f (s.snap.qX.toNat + 1) (s.snap.qY.toNat + 1) .r),
       BitVec.ofNat 32 (prefixSum f (s.snap.qX.toNat + 1) (s.snap.qY.toNat + 1) .g),
       BitVec.ofNat 32 (prefixSum f (s.snap.qX.toNat + 1) (s.snap.qY.toNat + 1) .b), 0, 0, 0⟩ }.ended 7 0 0)

/-- QT_BUILD (spec/41_quadtree.md R161, R162, R165, R166): where its checks pass, the image answers and the tree fits, the
node table holds the stopping policy's tree in pre-order, with the means of the SAT's image `g` and the test over the
pixels now in memory, and the symbol table its leaf colours, whatever the schedule of the workers: only the supply of
free values, which the schedule draws from, depends on it (R170, notes/assumptions/14.md). -/
def Obligations.QtBuildResult : Prop :=
  ∀ (s : State) (g : Nat → Nat → Color) (ns : List NodeRec) (es : List SymEntry), s.pendingAbort = false →
    s.snap.minDepth.toNat ≤ s.snap.maxDepth.toNat → s.snap.maxDepth.toNat ≤ s.par.maxTreeDepth →
    s.snap.lossPercent.toNat ≤ 100 → s.valid.satV = true → SatHolds s.sat s.cnt.satW.toNat s.cnt.satH.toNat g →
    s.snap.pixBase.toNat + 3 * (s.cnt.satW.toNat * s.cnt.satH.toNat) ≤ 2 ^ 32 →
    busRange s.par .read s.snap.pixBase.toNat (3 * (s.cnt.satW.toNat * s.cnt.satH.toNat)) →
    Built s.snap.minDepth.toNat s.snap.maxDepth.toNat
      (fun r => 9 * r.area ≤ 10 * nearCount (imageAt s.mem s.snap.pixBase.toNat s.cnt.satW.toNat) r (meanColor g r)
        s.snap.lossPercent.toNat)
      (meanColor g) 0 (rootRect s.cnt.satW s.cnt.satH) ns →
    SymbolsOf (leafColors ns) es → ns.length ≤ s.par.maxNodes → es.length ≤ s.par.maxSymbols →
    ∃ n, exec .qtBuild s = .next ({ s with
      nodes := ns
      syms := es
      cnt := { s.cnt with
        nodeCount := BitVec.ofNat 32 ns.length
        leafCount := BitVec.ofNat 32 (leafColors ns).length
        symCount := BitVec.ofNat 32 es.length
        treeW := s.cnt.satW
        treeH := s.cnt.satH }
      valid := ⟨true, true, true, false, false⟩
      freeIx := n }.ended 2 0 0)

/-- Capacity (spec/41_quadtree.md R167): where the complete tree has more than P_MAX_NODES nodes or more than P_MAX_SYMBOLS
distinct leaf colours, QT_BUILD fails with CAPACITY, 1 or 2 in ERR_INFO for a limit that is exceeded, and no tree is
valid. Which of two limits is reported depends on the schedule, which is free (notes/assumptions/10.md and 14.md); the
emptied tables stand for unspecified contents (notes/assumptions/4.md). -/
def Obligations.QtBuildCapacity : Prop :=
  ∀ (s : State) (g : Nat → Nat → Color) (ns : List NodeRec) (es : List SymEntry), s.pendingAbort = false →
    s.snap.minDepth.toNat ≤ s.snap.maxDepth.toNat → s.snap.maxDepth.toNat ≤ s.par.maxTreeDepth →
    s.snap.lossPercent.toNat ≤ 100 → s.valid.satV = true → SatHolds s.sat s.cnt.satW.toNat s.cnt.satH.toNat g →
    s.snap.pixBase.toNat + 3 * (s.cnt.satW.toNat * s.cnt.satH.toNat) ≤ 2 ^ 32 →
    busRange s.par .read s.snap.pixBase.toNat (3 * (s.cnt.satW.toNat * s.cnt.satH.toNat)) →
    Built s.snap.minDepth.toNat s.snap.maxDepth.toNat
      (fun r => 9 * r.area ≤ 10 * nearCount (imageAt s.mem s.snap.pixBase.toNat s.cnt.satW.toNat) r (meanColor g r)
        s.snap.lossPercent.toNat)
      (meanColor g) 0 (rootRect s.cnt.satW s.cnt.satH) ns →
    SymbolsOf (leafColors ns) es → (s.par.maxNodes < ns.length ∨ s.par.maxSymbols < es.length) →
    ∃ (i : Word) (n : Nat), exec .qtBuild s = .next ({ s with
        nodes := []
        syms := []
        valid := ⟨true, false, false, false, false⟩
        freeIx := n }.ended 2 6 i) ∧
      (i = 1 ∧ s.par.maxNodes < ns.length ∨ i = 2 ∧ s.par.maxSymbols < es.length)

/-- INSPECT_NODE (spec/41_quadtree.md R175): the record's depth and kind, its rectangle, and a LEAF's colour. -/
def Obligations.InspectNodeResult : Prop :=
  ∀ (s : State) (n : NodeRec), s.pendingAbort = false → s.valid.treeV = true →
    s.snap.qIndex.toNat < s.cnt.nodeCount.toNat → s.nodes[s.snap.qIndex.toNat]? = some n → n.depth ≤ 255 →
    exec .inspectNode s = .next ({ s with res :=
      { res0 := BitVec.ofNat 32 (256 * n.depth + if n.leafColor?.isSome then 1 else 0)
        res1 := n.x
        res2 := n.y
        res3 := n.w
        res4 := n.h
        res5 := match n.kind with
          | .leaf c => (c.pack).setWidth 32
          | .internal => 0 } }.ended 7 0 0)

/-- HUF_BUILD (spec/42_huffman.md R190): every entry keeps its colour and frequency and takes its code; RES0 is the longest
length, RES1 the sum of frequency times length, RES2 the number of symbols. -/
def Obligations.HufBuildResult : Prop :=
  ∀ s : State, s.pendingAbort = false → s.valid.freqV = true → s.syms.length = s.cnt.symCount.toNat →
    (∀ c ∈ hufCodes (symFreqs s.syms), c.length ≤ s.par.maxCodeLen) →
    ∃ es : List SymEntry, es.map (·.color) = s.syms.map (·.color) ∧ es.map (·.freq) = s.syms.map (·.freq) ∧
      es.map (·.code) = hufCodes (symFreqs s.syms) ∧
      ∃ longest : Nat, (∀ e ∈ es, e.code.length ≤ longest) ∧ (longest = 0 ∨ ∃ e ∈ es, e.code.length = longest) ∧
        exec .hufBuild s = .next ({ s with
          syms := es
          res := ⟨BitVec.ofNat 32 longest, BitVec.ofNat 32 (es.map fun (e : SymEntry) => e.freq.toNat * e.code.length).sum,
            BitVec.ofNat 32 s.syms.length, 0, 0, 0⟩
          valid := { s.valid with codeV := true } }.ended 3 0 0)

/-- HUF_BUILD with a code longer than P_MAX_CODE_LEN fails with CAPACITY(3), and CODE_V is 0 (spec/42_huffman.md R194).
The emptied tables stand for unspecified contents (notes/assumptions/4.md). -/
def Obligations.HufBuildCapacity : Prop :=
  ∀ s : State, s.pendingAbort = false → s.valid.freqV = true →
    (∃ c ∈ hufCodes (symFreqs s.syms), s.par.maxCodeLen < c.length) →
    exec .hufBuild s = .next ({ s with
      syms := s.syms.map (fun (e : SymEntry) => { e with code := [] })
      valid := { s.valid with codeV := false } }.ended 3 6 3)

/-- Properties of the codes (spec/42_huffman.md R192; the spec's own inferences of R193): one per symbol, each of at least
one bit, prefix-free, and for two symbols or more a full code, by the Kraft equality; a single symbol has the code "0". -/
def Obligations.HuffmanCodes : Prop :=
  ∀ fs : List Nat,
    (hufCodes fs).length = fs.length ∧ (∀ c ∈ hufCodes fs, 1 ≤ c.length) ∧ PrefixFree (hufCodes fs) ∧
      (2 ≤ fs.length → ((hufCodes fs).map fun c => (1 / 2 : ℚ) ^ c.length).sum = 1) ∧
      (fs.length = 1 → hufCodes fs = [[false]])

/-- INSPECT_SYM (spec/42_huffman.md R196): colour, frequency, length and the first 64 code bits, the first in bit 31 of
RES3; with CODE_V = 0 the length and code words are 0. -/
def Obligations.InspectSymResult : Prop :=
  ∀ (s : State) (e : SymEntry), s.pendingAbort = false → (s.valid.freqV = true ∨ s.valid.codeV = true) →
    s.snap.qIndex.toNat < s.cnt.symCount.toNat → s.syms[s.snap.qIndex.toNat]? = some e →
    ∃ r3 r4 : Word, exec .inspectSym s = .next ({ s with res :=
        { res0 := (e.color.pack).setWidth 32
          res1 := e.freq
          res2 := if s.valid.codeV then BitVec.ofNat 32 e.code.length else 0
          res3 := r3
          res4 := r4
          res5 := 0 } }.ended 7 0 0) ∧
      ∀ j, j < 32 → r3.getLsbD (31 - j) = (s.valid.codeV && e.code.getD j false) ∧
        r4.getLsbD (31 - j) = (s.valid.codeV && e.code.getD (32 + j) false)

/-- ENCODE (spec/43_bitstream.md R214, spec/30_encoding.md R100, R106): where its checks pass and the bytes answer, the
container's bytes stand at CNT_BASE and upward, every other byte is unchanged, and OUT_LEN and PAYLOAD_BITS are
written. -/
def Obligations.EncodeResult : Prop :=
  ∀ s : State, s.pendingAbort = false → s.mem.wf = true → s.valid.treeV = true → s.valid.codeV = true →
    s.valid.treeDec = false → s.snap.cntBase.toNat + s.snap.cntLen.toNat ≤ 2 ^ 32 →
    containerSize s.syms s.nodes ≤ s.snap.cntLen.toNat →
    busRange s.par .write s.snap.cntBase.toNat (containerSize s.syms s.nodes) →
    ∃ m, exec .encode s = .next ({ s with
        mem := m
        cnt := { s.cnt with
          outLen := BitVec.ofNat 32 (containerSize s.syms s.nodes)
          payloadBits := BitVec.ofNat 32 (payload s.syms s.nodes).length } }.ended 4 0 0) ∧
      (∀ k (h : k < (container s.cnt.treeW s.cnt.treeH s.cnt.symCount s.syms s.nodes).length),
        m.read (s.snap.cntBase.toNat + k) = (container s.cnt.treeW s.cnt.treeH s.cnt.symCount s.syms s.nodes)[k]) ∧
      ∀ a, a < s.snap.cntBase.toNat ∨ s.snap.cntBase.toNat + containerSize s.syms s.nodes ≤ a →
        m.read a = s.mem.read a

/-- The container's length is the size formula, and the number of its payload bits is the bit formula: NODE_COUNT and the
sum of the leaves' code lengths (spec/30_encoding.md R106, the spec's own inference). -/
def Obligations.ContainerSize : Prop :=
  ∀ (w h n : Word) (es : List SymEntry) (ns : List NodeRec),
    (container w h n es ns).length = containerSize es ns ∧
      (payload es ns).length = ns.length + ((leafColors ns).map fun c => (codeFor es c).length).sum

/-- DECODE of a container that holds a tree within the capacities and a prefix-free code (spec/43_bitstream.md R220, R226):
the tree and the codes are read back, with OUT_LEN and PAYLOAD_BITS what was consumed; external memory is unchanged. -/
def Obligations.DecodeResult : Prop :=
  ∀ (s : State) (w h : Word) (es : List SymEntry) (ns : List NodeRec) (paths : List (List Bool)),
    s.pendingAbort = false → s.par.wellFormed = true → s.snap.cntBase.toNat + s.snap.cntLen.toNat ≤ 2 ^ 32 →
    containerSize es ns ≤ s.snap.cntLen.toNat → busRange s.par .read s.snap.cntBase.toNat (containerSize es ns) →
    (∀ k (hk : k < (container w h (BitVec.ofNat 32 es.length) es ns).length),
      s.mem.read (s.snap.cntBase.toNat + k) = (container w h (BitVec.ofNat 32 es.length) es ns)[k]) →
    0 < w.toInt → 0 < h.toInt → es.length ≤ s.par.maxSymbols →
    PreOrder s.par.maxTreeDepth 0 (rootRect w h) ns → ns.length ≤ s.par.maxNodes →
    (∀ e ∈ es, 1 ≤ e.code.length ∧ e.code.length ≤ s.par.maxCodeLen ∧ ∀ p, p <+: e.code → p ∈ paths) →
    [] ∈ paths → paths.length ≤ s.par.maxTrieNodes → PrefixFree (es.map (·.code)) →
    (∀ c ∈ leafColors ns, ∃ e ∈ es, e.color = c) →
    exec .decode s = .next ({ s with
      nodes := ns
      syms := es.map (fun (e : SymEntry) => { e with freq := 0 })
      cnt := { s.cnt with
        nodeCount := BitVec.ofNat 32 ns.length
        leafCount := BitVec.ofNat 32 (leafColors ns).length
        symCount := BitVec.ofNat 32 es.length
        treeW := w
        treeH := h
        outLen := BitVec.ofNat 32 (containerSize es ns)
        payloadBits := BitVec.ofNat 32 (payload es ns).length }
      valid := ⟨s.valid.satV, true, false, true, true⟩ }.ended 5 0 0)

/-- The header checks of DECODE, in their order (spec/43_bitstream.md R221, R223): a container too short for its header, a
width or height that is not positive, a negative table size, a table beyond P_MAX_SYMBOLS. The emptied tables stand for
unspecified contents (notes/assumptions/4.md). -/
def Obligations.DecodeHeaderErrors : Prop :=
  ∀ (s : State) (w h n : Word) (c : BitVec 8) (i : Word), s.pendingAbort = false →
    s.snap.cntBase.toNat + s.snap.cntLen.toNat ≤ 2 ^ 32 →
    busRange s.par .read s.snap.cntBase.toNat (min 12 s.snap.cntLen.toNat) →
    (∀ k, k < 4 → s.mem.read (s.snap.cntBase.toNat + k) = (s32be w).getD k 0 ∧
      s.mem.read (s.snap.cntBase.toNat + 4 + k) = (s32be h).getD k 0 ∧
      s.mem.read (s.snap.cntBase.toNat + 8 + k) = (s32be n).getD k 0) →
    headerFailure s w h n c i →
    exec .decode s = .next ({ s with
      nodes := []
      syms := []
      valid := ⟨s.valid.satV, false, false, false, false⟩ }.ended 5 c i)

/-- RECONSTRUCT (spec/44_reconstruct_control.md R250 to R252): every leaf's colour stands at every pixel of its rectangle in
the output buffer, no byte outside the buffer changes, and no register but STATUS and ERR_INFO is written. -/
def Obligations.ReconstructResult : Prop :=
  ∀ s : State, s.pendingAbort = false → s.mem.wf = true → s.valid.treeV = true →
    PreOrder s.par.maxTreeDepth 0 (rootRect s.cnt.treeW s.cnt.treeH) s.nodes →
    3 * (s.cnt.treeW.toNat * s.cnt.treeH.toNat) ≤ s.snap.outCap.toNat →
    s.snap.outBase.toNat + 3 * (s.cnt.treeW.toNat * s.cnt.treeH.toNat) ≤ 2 ^ 32 →
    busRange s.par .write s.snap.outBase.toNat (3 * (s.cnt.treeW.toNat * s.cnt.treeH.toNat)) →
    ∃ m, exec .reconstruct s = .next ({ s with mem := m }.ended 6 0 0) ∧
      (∀ n ∈ s.nodes, ∀ col, n.kind = .leaf col → ∀ px py, inRect n.rect px py = true →
        pix m s.snap.outBase.toNat s.cnt.treeW.toNat px py = col) ∧
      ∀ a, a < s.snap.outBase.toNat ∨ s.snap.outBase.toNat + 3 * (s.cnt.treeW.toNat * s.cnt.treeH.toNat) ≤ a →
        m.read a = s.mem.read a

/-- COMPRESS is its four stages in order, in one command (spec/44_reconstruct_control.md R260, spec/30_encoding.md R96):
it ends as the first of SAT_BUILD, QT_BUILD, HUF_BUILD and ENCODE that fails, run one after another, or as ENCODE. That
one command is one step is notes/assumptions/6.md. -/
def Obligations.CompressIsItsStages : Prop :=
  ∀ s s1 : State, s.pendingAbort = false → exec .satBuild s = .next s1 →
    (s1.status.errCode ≠ 0 → exec .compress s = .next s1) ∧
    ∀ s2, s1.status.errCode = 0 → exec .qtBuild s1 = .next s2 →
      (s2.status.errCode ≠ 0 → exec .compress s = .next s2) ∧
      ∀ s3, s2.status.errCode = 0 → exec .hufBuild s2 = .next s3 →
        (s3.status.errCode ≠ 0 → exec .compress s = .next s3) ∧
        ∀ s4, s3.status.errCode = 0 → exec .encode s3 = .next s4 → exec .compress s = .next s4

/-- COMPRESS completes with success where the image and the policy are legal, the image answers, the tree and the codes fit
and the container buffer takes them (R260): VALID is SAT_V, TREE_V, FREQ_V and CODE_V, the tables hold the image's tree
and codes, and the container stands at CNT_BASE, every other byte unchanged. -/
def Obligations.CompressResult : Prop :=
  ∀ (s : State) (f : Nat → Nat → Color) (ns : List NodeRec) (es : List SymEntry), s.pendingAbort = false →
    s.par.wellFormed = true → s.mem.wf = true → s.snap.imgW ≠ 0 → s.snap.imgH ≠ 0 →
    s.snap.imgW.toNat * s.snap.imgH.toNat ≤ s.par.maxPixels →
    s.snap.pixBase.toNat + 3 * (s.snap.imgW.toNat * s.snap.imgH.toNat) ≤ 2 ^ 32 →
    busRange s.par .read s.snap.pixBase.toNat (3 * (s.snap.imgW.toNat * s.snap.imgH.toNat)) →
    f = imageAt s.mem s.snap.pixBase.toNat s.snap.imgW.toNat →
    s.snap.minDepth.toNat ≤ s.snap.maxDepth.toNat → s.snap.maxDepth.toNat ≤ s.par.maxTreeDepth →
    s.snap.lossPercent.toNat ≤ 100 →
    Built s.snap.minDepth.toNat s.snap.maxDepth.toNat
      (fun r => 9 * r.area ≤ 10 * nearCount f r (meanColor f r) s.snap.lossPercent.toNat) (meanColor f) 0
      (rootRect s.snap.imgW s.snap.imgH) ns →
    SymbolsOf (leafColors ns) (es.map fun (e : SymEntry) => { e with code := [] }) →
    es.map (·.code) = hufCodes (symFreqs es) → ns.length ≤ s.par.maxNodes → es.length ≤ s.par.maxSymbols →
    (∀ e ∈ es, e.code.length ≤ s.par.maxCodeLen) → s.snap.cntBase.toNat + s.snap.cntLen.toNat ≤ 2 ^ 32 →
    containerSize es ns ≤ s.snap.cntLen.toNat → busRange s.par .write s.snap.cntBase.toNat (containerSize es ns) →
    ∃ t, exec .compress s = .next t ∧ t.status = { s.status with busy := false, done := true, stage := 4, errCode := 0 } ∧
      t.errInfo = 0 ∧ t.valid = ⟨true, true, true, true, false⟩ ∧ t.nodes = ns ∧ t.syms = es ∧
      SatHolds t.sat s.snap.imgW.toNat s.snap.imgH.toNat f ∧
      t.cnt = ⟨s.snap.imgW, s.snap.imgH, s.snap.imgW, s.snap.imgH, BitVec.ofNat 32 ns.length,
        BitVec.ofNat 32 (leafColors ns).length, BitVec.ofNat 32 es.length, BitVec.ofNat 32 (containerSize es ns),
        BitVec.ofNat 32 (payload es ns).length⟩ ∧
      (∀ k (h : k < (container s.snap.imgW s.snap.imgH (BitVec.ofNat 32 es.length) es ns).length),
        t.mem.read (s.snap.cntBase.toNat + k) =
          (container s.snap.imgW s.snap.imgH (BitVec.ofNat 32 es.length) es ns)[k]) ∧
      ∀ a, a < s.snap.cntBase.toNat ∨ s.snap.cntBase.toNat + containerSize es ns ≤ a → t.mem.read a = s.mem.read a

/-- DECOMPRESS is its two stages in order, in one command (spec/44_reconstruct_control.md R261): it ends as DECODE where
that fails, and then no byte of external memory changes; else as RECONSTRUCT after it. That one command is one step is
notes/assumptions/6.md. -/
def Obligations.DecompressIsItsStages : Prop :=
  ∀ s s1 : State, s.pendingAbort = false → exec .decode s = .next s1 →
    (s1.status.errCode ≠ 0 → exec .decompress s = .next s1 ∧ s1.mem = s.mem) ∧
    ∀ s2, s1.status.errCode = 0 → exec .reconstruct s1 = .next s2 → exec .decompress s = .next s2

/-- DECOMPRESS of a container that holds a tree within the capacities and a prefix-free code, into a buffer that takes the
image (R261): the tree and codes are read back and every leaf's colour stands at its pixels at OUT_BASE; no byte outside
the output buffer changes. -/
def Obligations.DecompressResult : Prop :=
  ∀ (s : State) (w h : Word) (es : List SymEntry) (ns : List NodeRec) (paths : List (List Bool)),
    s.pendingAbort = false → s.par.wellFormed = true → s.mem.wf = true →
    s.snap.cntBase.toNat + s.snap.cntLen.toNat ≤ 2 ^ 32 → containerSize es ns ≤ s.snap.cntLen.toNat →
    busRange s.par .read s.snap.cntBase.toNat (containerSize es ns) →
    (∀ k (hk : k < (container w h (BitVec.ofNat 32 es.length) es ns).length),
      s.mem.read (s.snap.cntBase.toNat + k) = (container w h (BitVec.ofNat 32 es.length) es ns)[k]) →
    0 < w.toInt → 0 < h.toInt → es.length ≤ s.par.maxSymbols →
    PreOrder s.par.maxTreeDepth 0 (rootRect w h) ns → ns.length ≤ s.par.maxNodes →
    (∀ e ∈ es, 1 ≤ e.code.length ∧ e.code.length ≤ s.par.maxCodeLen ∧ ∀ p, p <+: e.code → p ∈ paths) →
    [] ∈ paths → paths.length ≤ s.par.maxTrieNodes → PrefixFree (es.map (·.code)) →
    (∀ c ∈ leafColors ns, ∃ e ∈ es, e.color = c) →
    3 * (w.toNat * h.toNat) ≤ s.snap.outCap.toNat → s.snap.outBase.toNat + 3 * (w.toNat * h.toNat) ≤ 2 ^ 32 →
    busRange s.par .write s.snap.outBase.toNat (3 * (w.toNat * h.toNat)) →
    ∃ t, exec .decompress s = .next t ∧
      t.status = { s.status with busy := false, done := true, stage := 6, errCode := 0 } ∧ t.errInfo = 0 ∧
      t.valid = ⟨s.valid.satV, true, false, true, true⟩ ∧ t.nodes = ns ∧
      t.syms = es.map (fun (e : SymEntry) => { e with freq := 0 }) ∧ t.cnt.treeW = w ∧ t.cnt.treeH = h ∧ t.res = s.res ∧
      (∀ n ∈ ns, ∀ col, n.kind = .leaf col → ∀ px py, inRect n.rect px py = true →
        pix t.mem s.snap.outBase.toNat w.toNat px py = col) ∧
      ∀ a, a < s.snap.outBase.toNat ∨ s.snap.outBase.toNat + 3 * (w.toNat * h.toNat) ≤ a →
        t.mem.read a = s.mem.read a

/-! ## Trees -/

/-- The leaves of a tree tile its root rectangle: each pixel of it lies in exactly one leaf, and no other pixel in any
(spec/41_quadtree.md R164, the spec's own inference). -/
def Obligations.LeavesTile : Prop :=
  ∀ (f : Nat) (w h : Word) (ns : List NodeRec), PreOrder f 0 (rootRect w h) ns →
    ∀ px py, leavesAt ns px py = if px < w.toNat ∧ py < h.toNat then 1 else 0

/-- The depth bounds of a built tree (spec/41_quadtree.md R168, the spec's own inference): leaves at depth ≥ minD, no node
deeper than maxD, and only leaves at maxD. -/
def Obligations.DepthBounds : Prop :=
  ∀ (minD maxD : Nat) (homog : Rect → Prop) (mean : Rect → Color) (r : Rect) (ns : List NodeRec), minD ≤ maxD →
    Built minD maxD homog mean 0 r ns →
    ∀ n ∈ ns, n.depth ≤ maxD ∧ (n.kind ≠ .internal → minD ≤ n.depth) ∧ (n.depth = maxD → n.kind ≠ .internal)

/-- The worker pool has no architectural effect (spec/41_quadtree.md R167, R170, spec/20_memory.md R77). For every
MAX_CONC_DEPTH, every number of workers and every schedule `sched` with a number for each move there can be: no move is
left; the build ends without an error exactly where the sequential build of R162 meets no bus error and exceeds neither
limit; then the records, assembled at the joins, the shared counters and the node count are the sequential build's; and an
error is a limit that this build exceeds, or a byte that fails in it. What the moves of a schedule are is the model's
(notes/assumptions/14.md). -/
def Obligations.ScheduleIndependence : Prop :=
  ∀ (e : QtEnv) (root : Rect) (sched : List Nat) (b : BuildRun) (o : BuildOut), poolMoves e.par ≤ sched.length →
    b = (BuildRun.start e.maxD root).follow e sched → o = e.build e.maxD 0 root →
    b.nexts e = [] ∧
    (b.failure = none ↔ o.bad = [] ∧ o.nodes.length ≤ e.par.maxNodes ∧
      (symbolTable (leafColors o.nodes)).length ≤ e.par.maxSymbols) ∧
    (b.failure = none → b.task.records = o.nodes ∧ b.freq = symbolTable (leafColors o.nodes) ∧
      b.count = o.nodes.length) ∧
    ∀ err, b.failure = some err →
      err = .capacity 1 ∧ e.par.maxNodes < o.nodes.length ∨
        err = .capacity 2 ∧ e.par.maxSymbols < (symbolTable (leafColors o.nodes)).length ∨ ∃ a ∈ o.bad, err = .io a

/-! ## Headlines -/

/-- The round trip (spec/43_bitstream.md R227, the spec's own inference): from a state of the invariant, if ENCODE
succeeds then DECODE of the bytes it wrote succeeds, where they answer a read, and the trie holds two nodes; tree,
dimensions, counts and codes are as before, PAYLOAD_BITS is unchanged and OUT_LEN is the container's size. The condition
on the trie is the model's: R227 overlooks an implementation with P_MAX_SYMBOLS = P_MAX_TRIE_NODES = 1
(notes/assumptions/18.md). -/
def Obligations.RoundTrip : Prop :=
  ∀ s t : State, s.Inv → 2 ≤ s.par.maxTrieNodes →
    exec .encode (accept (encode .encode) s) = .next t → t.status.errCode = 0 →
    busRange s.par .read s.cfg.cntBase.toNat t.cnt.outLen.toNat →
    ∃ u, exec .decode (accept (encode .decode) t) = .next u ∧ u.status.errCode = 0 ∧ u.nodes = s.nodes ∧
      u.syms = s.syms.map (fun (e : SymEntry) => { e with freq := 0 }) ∧ u.cnt = t.cnt ∧
      u.valid = ⟨s.valid.satV, true, false, true, true⟩ ∧ ∀ a, u.mem.read a = t.mem.read a

/-- The machine right after reset meets the invariant, for every legal value of the parameters. The
parameters of State.reset are notes/assumptions/1.md. -/
def Obligations.ResetMeetsInvariant : Prop :=
  State.reset.Inv ∧ ∀ p : Params, p.wellFormed = true → (State.resetWith p).Inv

/-- The invariant of the machine (Sys2Proof/Safety.lean) is kept by every step: memory stays canonical
(notes/assumptions/2.md) and inside 2^32 bytes, STAGE and ERR_CODE stay legal, and the internal memories stay as VALID and
the counters promise (spec/10_state.md R37 to R40, R49, spec/60_exceptions.md R285). -/
def Obligations.StepKeepsInvariant : Prop := ∀ s t : State, s.Inv → step s = .next t → t.Inv
end

