-- ==== Sys2Proof/Laws/Bits.lean ====
section
/-! SUPPORT. The container's bits and bytes: packing is undone by unpacking, and the big-endian fields read back
(spec/30_encoding.md R98, R99). -/

namespace Sys2Proof.Machine

@[simp] theorem packBits_length (s : List Bool) : (packBits s).length = ceil8 s.length := by simp [packBits]

theorem packBits_getD (s : List Bool) (i : Nat) (h : i < ceil8 s.length) : (packBits s).getD i 0 = packByte s i := by
  rw [List.getD_eq_getElem _ _ (by simpa using h)]
  simp [packBits]

/-- Bit j of a packed byte is bit 8i + j of the string; past its end it is 0 (R99). -/
theorem bitOfByte_packByte (s : List Bool) (i j : Nat) (hj : j < 8) :
    bitOfByte (packByte s i) j = s.getD (8 * i + j) false := by
  unfold bitOfByte packByte
  generalize h0 : s.getD (8 * i + 0) false = b0
  generalize h1 : s.getD (8 * i + 1) false = b1
  generalize h2 : s.getD (8 * i + 2) false = b2
  generalize h3 : s.getD (8 * i + 3) false = b3
  generalize h4 : s.getD (8 * i + 4) false = b4
  generalize h5 : s.getD (8 * i + 5) false = b5
  generalize h6 : s.getD (8 * i + 6) false = b6
  generalize h7 : s.getD (8 * i + 7) false = b7
  have hr : List.range 8 = [0, 1, 2, 3, 4, 5, 6, 7] := rfl
  simp only [hr, List.map_cons, List.map_nil, h0, h1, h2, h3, h4, h5, h6, h7]
  rcases (by omega : j = 0 ∨ j = 1 ∨ j = 2 ∨ j = 3 ∨ j = 4 ∨ j = 5 ∨ j = 6 ∨ j = 7) with
    rfl | rfl | rfl | rfl | rfl | rfl | rfl | rfl
  · rw [h0]; clear * -; revert b0 b1 b2 b3 b4 b5 b6 b7; decide
  · rw [h1]; clear * -; revert b0 b1 b2 b3 b4 b5 b6 b7; decide
  · rw [h2]; clear * -; revert b0 b1 b2 b3 b4 b5 b6 b7; decide
  · rw [h3]; clear * -; revert b0 b1 b2 b3 b4 b5 b6 b7; decide
  · rw [h4]; clear * -; revert b0 b1 b2 b3 b4 b5 b6 b7; decide
  · rw [h5]; clear * -; revert b0 b1 b2 b3 b4 b5 b6 b7; decide
  · rw [h6]; clear * -; revert b0 b1 b2 b3 b4 b5 b6 b7; decide
  · rw [h7]; clear * -; revert b0 b1 b2 b3 b4 b5 b6 b7; decide

/-- Bit i of a packed string, read as the bit reader reads it (spec/43_bitstream.md R211). -/
theorem bit_of_packBits (s : List Bool) (i : Nat) (h : i < s.length) :
    bitOfByte ((packBits s).getD (i / 8) 0) (i % 8) = s[i] := by
  have h8 : i / 8 < ceil8 s.length := by unfold ceil8; omega
  rw [packBits_getD s _ h8, bitOfByte_packByte s _ _ (Nat.mod_lt _ (by omega)), Nat.div_add_mod,
    List.getD_eq_getElem _ _ h]

/-- Unpacking a packed string to its length gives it back; the padding is not looked at (R102). -/
theorem unpackBits_packBits (s : List Bool) : unpackBits (packBits s) s.length = s := by
  apply List.ext_getElem
  · simp [unpackBits]
  · intro i h1 h2
    simp only [unpackBits, List.getElem_map, List.getElem_range]
    exact bit_of_packBits s i h2

/-- The word of its own big-endian bytes (R98). -/
theorem wordOfBytes_s32be (v : Word) :
    wordOfBytes (v.extractLsb' 24 8) (v.extractLsb' 16 8) (v.extractLsb' 8 8) (v.extractLsb' 0 8) = v := by
  unfold wordOfBytes
  apply BitVec.eq_of_getLsbD_eq
  intro i hi
  simp only [BitVec.getLsbD_append, BitVec.getLsbD_extractLsb']
  by_cases h1 : i < 8
  · simp [h1]
  · by_cases h2 : i < 16
    · simp [h1, show i - 8 < 8 by omega, show 8 + (i - 8) = i by omega]
    · by_cases h3 : i < 24
      · simp [h1, show ¬ i - 8 < 8 by omega, show i - 8 - 8 < 8 by omega, show 16 + (i - 8 - 8) = i by omega]
      · simp [h1, show ¬ i - 8 < 8 by omega, show ¬ i - 8 - 8 < 8 by omega, show i - 8 - 8 - 8 < 8 by omega,
          show 24 + (i - 8 - 8 - 8) = i by omega]

@[simp] theorem s32be_length (v : Word) : (s32be v).length = 4 := rfl

@[simp] theorem u16be_length (n : Nat) : (u16be n).length = 2 := rfl

/-- A 16-bit length read back from its two bytes (R98). -/
theorem u16be_value (n : Nat) (h : n < 65536) : (BitVec.ofNat 8 (n / 256)).toNat * 256 + (BitVec.ofNat 8 n).toNat = n := by
  simp only [BitVec.toNat_ofNat]
  omega

end Sys2Proof.Machine
end

