-- ==== Sys2Proof/Laws/Memory.lean ====
section
/-! SUPPORT. External memory: reading after a write, the canonical form is kept, and what a list of stores does. -/

namespace Sys2Proof.Machine

@[simp] theorem Memory.read_nil (a : Nat) : Memory.read [] a = Memory.unlisted := rfl

theorem Memory.read_eq_unlisted {m : Memory} {a : Nat} (h : ∀ c ∈ m, c.1 ≠ a) : m.read a = Memory.unlisted := by
  induction m with
  | nil => rfl
  | cons c m ih =>
    obtain ⟨b, w⟩ := c
    have hb : a ≠ b := fun e => h (b, w) (by simp) e.symm
    simp only [Memory.read, hb, if_false]
    exact ih fun c hc => h c (by simp [hc])

theorem Memory.wf_cons {a : Nat} {v : Byte} {m : Memory} :
    Memory.wf ((a, v) :: m) = true ↔ v ≠ Memory.unlisted ∧ (∀ c ∈ m, a < c.1) ∧ Memory.wf m = true := by
  simp [Memory.wf, and_assoc]

/-- A store is read back. -/
theorem Memory.read_write_same {m : Memory} (h : m.wf = true) (a : Nat) (v : Byte) : (m.write a v).read a = v := by
  induction m with
  | nil =>
    by_cases hv : v = Memory.unlisted <;> simp [Memory.write, Memory.read, hv]
  | cons c m ih =>
    obtain ⟨b, w⟩ := c
    obtain ⟨_, hlt, hm⟩ := Memory.wf_cons.mp h
    simp only [Memory.write]
    split_ifs with h1 h2 h3 h4
    · rw [h2]
      refine Memory.read_eq_unlisted ?_
      intro c hc
      rcases List.mem_cons.mp hc with rfl | hc
      · exact (Nat.ne_of_lt h1).symm
      · have := hlt c hc; omega
    · simp [Memory.read]
    · subst h3
      rw [h4]
      exact Memory.read_eq_unlisted fun c hc => (Nat.ne_of_lt (hlt c hc)).symm
    · simp [Memory.read]
    · simp only [Memory.read, h3, if_false]
      exact ih hm

/-- A store leaves every other address alone. -/
theorem Memory.read_write_ne {m : Memory} {a b : Nat} (v : Byte) (hab : b ≠ a) : (m.write a v).read b = m.read b := by
  induction m with
  | nil => by_cases hv : v = Memory.unlisted <;> simp [Memory.write, Memory.read, hv, hab]
  | cons c m ih =>
    obtain ⟨x, w⟩ := c
    simp only [Memory.write]
    split_ifs with h1 h2 h3 h4
    · rfl
    · simp [Memory.read, hab]
    · subst h3; simp [Memory.read, hab]
    · subst h3; simp [Memory.read, hab]
    · simp only [Memory.read]
      split_ifs
      · rfl
      · exact ih

theorem Memory.mem_write {m : Memory} {a : Nat} {v : Byte} {c : Host.Cell} (h : c ∈ m.write a v) :
    c = (a, v) ∨ c ∈ m := by
  induction m with
  | nil =>
    simp only [Memory.write] at h
    split_ifs at h <;> simp_all
  | cons d m ih =>
    obtain ⟨b, w⟩ := d
    simp only [Memory.write] at h
    split_ifs at h with h1 h2 h3 h4
    · exact .inr h
    · rcases List.mem_cons.mp h with rfl | h
      · exact .inl rfl
      · exact .inr h
    · exact .inr (by simp [h])
    · rcases List.mem_cons.mp h with rfl | h
      · exact .inl rfl
      · exact .inr (by simp [h])
    · rcases List.mem_cons.mp h with rfl | h
      · exact .inr (by simp)
      · rcases ih h with rfl | h
        · exact .inl rfl
        · exact .inr (by simp [h])

/-- A store keeps the canonical form. -/
theorem Memory.wf_write {m : Memory} (h : m.wf = true) (a : Nat) (v : Byte) : (m.write a v).wf = true := by
  induction m with
  | nil => by_cases hv : v = Memory.unlisted <;> simp [Memory.write, Memory.wf, hv]
  | cons c m ih =>
    obtain ⟨b, w⟩ := c
    obtain ⟨hw, hlt, hm⟩ := Memory.wf_cons.mp h
    simp only [Memory.write]
    split_ifs with h1 h2 h3 h4
    · exact h
    · refine Memory.wf_cons.mpr ⟨h2, ?_, h⟩
      intro c hc
      rcases List.mem_cons.mp hc with rfl | hc
      · exact h1
      · have := hlt c hc; omega
    · exact hm
    · subst h3; exact Memory.wf_cons.mpr ⟨h4, hlt, hm⟩
    · refine Memory.wf_cons.mpr ⟨hw, ?_, ih hm⟩
      intro c hc
      rcases Memory.mem_write hc with rfl | hc
      · simp only; omega
      · exact hlt c hc

/-- Two memories in canonical form that read alike are equal. -/
theorem Memory.ext_of_read {m n : Memory} (hm : m.wf = true) (hn : n.wf = true) (h : ∀ a, m.read a = n.read a) :
    m = n := by
  induction m generalizing n with
  | nil =>
    cases n with
    | nil => rfl
    | cons c n =>
      obtain ⟨b, w⟩ := c
      have := h b
      simp only [Memory.read, if_true] at this
      exact absurd this.symm (Memory.wf_cons.mp hn).1
  | cons c m ih =>
    obtain ⟨a, v⟩ := c
    obtain ⟨hv, hlt, hm'⟩ := Memory.wf_cons.mp hm
    cases n with
    | nil =>
      have := h a
      simp only [Memory.read, if_true] at this
      exact absurd this hv
    | cons d n =>
      obtain ⟨b, w⟩ := d
      obtain ⟨hw, hlt', hn'⟩ := Memory.wf_cons.mp hn
      have hab : a = b := by
        rcases Nat.lt_trichotomy a b with hl | he | hl
        · have := h a
          rw [Memory.read_eq_unlisted (m := (b, w) :: n)] at this
          · simp only [Memory.read, if_true] at this; exact absurd this hv
          · intro c hc
            rcases List.mem_cons.mp hc with rfl | hc
            · exact (Nat.ne_of_lt hl).symm
            · have := hlt' c hc; omega
        · exact he
        · have := h b
          rw [Memory.read_eq_unlisted (m := (a, v) :: m)] at this
          · simp only [Memory.read, if_true] at this; exact absurd this.symm hw
          · intro c hc
            rcases List.mem_cons.mp hc with rfl | hc
            · exact (Nat.ne_of_lt hl).symm
            · have := hlt c hc; omega
      subst hab
      have hvw : v = w := by have := h a; simpa [Memory.read] using this
      subst hvw
      congr 1
      refine ih hm' hn' ?_
      intro x
      by_cases hx : x = a
      · subst hx
        rw [Memory.read_eq_unlisted fun c hc => (Nat.ne_of_lt (hlt c hc)).symm,
          Memory.read_eq_unlisted fun c hc => (Nat.ne_of_lt (hlt' c hc)).symm]
      · have := h x
        simpa [Memory.read, hx] using this

/-! ## Lists of stores -/

@[simp] theorem Memory.writeAll_nil (m : Memory) : m.writeAll [] = m := rfl

@[simp] theorem Memory.writeAll_cons (m : Memory) (c : Host.Cell) (ws : List Host.Cell) :
    m.writeAll (c :: ws) = (m.write c.1 c.2).writeAll ws := rfl

theorem Memory.writeAll_append (m : Memory) (xs ys : List Host.Cell) :
    m.writeAll (xs ++ ys) = (m.writeAll xs).writeAll ys := by
  simp [Memory.writeAll, List.foldl_append]

theorem Memory.wf_writeAll {m : Memory} (h : m.wf = true) (ws : List Host.Cell) : (m.writeAll ws).wf = true := by
  induction ws generalizing m with
  | nil => exact h
  | cons c ws ih => exact ih (Memory.wf_write h _ _)

theorem Memory.mem_writeAll {m : Memory} {ws : List Host.Cell} {c : Host.Cell} (h : c ∈ m.writeAll ws) :
    c ∈ ws ∨ c ∈ m := by
  induction ws generalizing m with
  | nil => exact .inr h
  | cons d ws ih =>
    rcases ih h with h | h
    · exact .inl (by simp [h])
    · rcases Memory.mem_write h with rfl | h
      · exact .inl (by simp)
      · exact .inr h

/-- An address no store names reads as before. -/
theorem Memory.read_writeAll_ne {m : Memory} {ws : List Host.Cell} {a : Nat} (h : ∀ c ∈ ws, c.1 ≠ a) :
    (m.writeAll ws).read a = m.read a := by
  induction ws generalizing m with
  | nil => rfl
  | cons c ws ih =>
    rw [Memory.writeAll_cons, ih fun d hd => h d (by simp [hd]),
      Memory.read_write_ne _ (h c (by simp)).symm]

/-- An address whose stores all carry the one value `v` reads as `v`. -/
theorem Memory.read_writeAll_of_forall {m : Memory} (hm : m.wf = true) {ws : List Host.Cell} {a : Nat} {v : Byte}
    (hex : ∃ c ∈ ws, c.1 = a) (hall : ∀ c ∈ ws, c.1 = a → c.2 = v) : (m.writeAll ws).read a = v := by
  induction ws generalizing m with
  | nil => simp at hex
  | cons c ws ih =>
    rw [Memory.writeAll_cons]
    by_cases hw : ∃ d ∈ ws, d.1 = a
    · exact ih (Memory.wf_write hm _ _) hw fun d hd => hall d (by simp [hd])
    · have hne : ∀ d ∈ ws, d.1 ≠ a := fun d hd he => hw ⟨d, hd, he⟩
      rw [Memory.read_writeAll_ne hne]
      obtain ⟨d, hd, he⟩ := hex
      rcases List.mem_cons.mp hd with rfl | hd
      · rw [← he, Memory.read_write_same hm]
        exact hall d (by simp) he
      · exact absurd he (hne d hd)

@[simp] theorem cellsAt_nil (a : Nat) : cellsAt a [] = [] := rfl

@[simp] theorem cellsAt_cons (a : Nat) (v : Byte) (vs : List Byte) : cellsAt a (v :: vs) = (a, v) :: cellsAt (a + 1) vs :=
  rfl

theorem mem_cellsAt {a : Nat} {vs : List Byte} {c : Host.Cell} :
    c ∈ cellsAt a vs ↔ ∃ i, ∃ h : i < vs.length, c = (a + i, vs[i]) := by
  induction vs generalizing a with
  | nil => simp
  | cons v vs ih =>
    rw [cellsAt_cons, List.mem_cons, ih]
    constructor
    · rintro (rfl | ⟨i, h, rfl⟩)
      · exact ⟨0, by simp, by simp⟩
      · exact ⟨i + 1, by simpa using h, by simp [Nat.add_assoc, Nat.add_comm 1 i]⟩
    · rintro ⟨i, h, rfl⟩
      cases i with
      | zero => exact .inl (by simp)
      | succ i => exact .inr ⟨i, by simpa using h, by simp [Nat.add_assoc, Nat.add_comm 1 i]⟩

/-- A byte sequence stored at `a` is read back byte by byte. -/
theorem Memory.read_writeAll_cellsAt {m : Memory} (hm : m.wf = true) (a : Nat) (vs : List Byte) (i : Nat)
    (h : i < vs.length) : (m.writeAll (cellsAt a vs)).read (a + i) = vs[i] := by
  refine Memory.read_writeAll_of_forall hm ⟨(a + i, vs[i]), mem_cellsAt.mpr ⟨i, h, rfl⟩, rfl⟩ ?_
  intro c hc he
  obtain ⟨j, hj, rfl⟩ := mem_cellsAt.mp hc
  have : j = i := by simpa using he
  subst this
  rfl

/-- Storing a byte sequence leaves every address outside it alone. -/
theorem Memory.read_writeAll_cellsAt_outside {m : Memory} (a : Nat) (vs : List Byte) (b : Nat)
    (h : b < a ∨ a + vs.length ≤ b) : (m.writeAll (cellsAt a vs)).read b = m.read b := by
  refine Memory.read_writeAll_ne ?_
  intro c hc
  obtain ⟨i, hi, rfl⟩ := mem_cellsAt.mp hc
  simp only
  omega

end Sys2Proof.Machine
end

