-- ==== Sys2Proof/Laws/Sat.lean ====
section
/-! SUPPORT. The summed-area table holds the prefix sums of the image (spec/40_sat_region.md R131, R132), and four
corner lookups give the sum over a rectangle (R133). -/

namespace Sys2Proof.Machine

@[simp] theorem prefixSum_zero_left (f : Nat → Nat → Color) (j : Nat) (c : Chan) : prefixSum f 0 j c = 0 := by
  simp [prefixSum]

@[simp] theorem prefixSum_zero_right (f : Nat → Nat → Color) (i : Nat) (c : Chan) : prefixSum f i 0 c = 0 := by
  simp [prefixSum]

/-- The recurrence of R131, over prefix sums. -/
theorem prefixSum_succ (f : Nat → Nat → Color) (i j : Nat) (c : Chan) :
    prefixSum f (i + 1) (j + 1) c + prefixSum f i j c =
      ((f i j).get c).toNat + prefixSum f i (j + 1) c + prefixSum f (i + 1) j c := by
  simp only [prefixSum, Finset.sum_range_succ, Finset.sum_add_distrib]
  omega

/-- Every accumulator is at most 255 per pixel (R132). -/
theorem prefixSum_le (f : Nat → Nat → Color) (i j : Nat) (c : Chan) : prefixSum f i j c ≤ 255 * (i * j) := by
  have h1 : ∀ y ∈ Finset.range j, ∑ x ∈ Finset.range i, ((f x y).get c).toNat ≤ 255 * i := by
    intro y _
    have := Finset.sum_le_card_nsmul (Finset.range i) (fun x => ((f x y).get c).toNat) 255 fun x _ => by
      have := ((f x y).get c).isLt; omega
    simpa [Nat.mul_comm] using this
  have := Finset.sum_le_card_nsmul (Finset.range j) _ (255 * i) h1
  simp only [Finset.card_range, smul_eq_mul] at this
  calc prefixSum f i j c ≤ j * (255 * i) := this
    _ = 255 * (i * j) := by ring

theorem prefixSum_mono (f : Nat → Nat → Color) {i i' j j' : Nat} (hi : i ≤ i') (hj : j ≤ j') (c : Chan) :
    prefixSum f i j c ≤ prefixSum f i' j' c := by
  unfold prefixSum
  refine le_trans (Finset.sum_le_sum_of_subset (Finset.range_mono hj)) ?_
  exact Finset.sum_le_sum fun y _ => Finset.sum_le_sum_of_subset (Finset.range_mono hi)

theorem Rgb.get_ofFn {α : Type} (f : Chan → α) (c : Chan) : (Rgb.ofFn f).get c = f c := by cases c <;> rfl

theorem satZero_get (c : Chan) : (satZero.get c).toInt = 0 := by cases c <;> rfl

/-- One accumulator, where nothing overflows: the exact value of the recurrence. -/
theorem satAcc_toInt {p : Byte} {left up diag : Word} {v l u d : Nat} (hl : left.toInt = l) (hu : up.toInt = u)
    (hd : diag.toInt = d) (he : v + d = p.toNat + l + u) (hb : v < 2 ^ 31) : (satAcc p left up diag).toInt = v := by
  unfold satAcc
  rw [hl, hu, hd, BitVec.toInt_ofInt]
  have : (p.toNat : Int) + l + u - d = v := by omega
  rw [this]
  apply Int.bmod_eq_of_le <;> omega

theorem satRow_length (ps : List Color) (up : List SatCell) (l d : SatCell) : (satRow ps up l d).length = ps.length := by
  induction ps generalizing up l d with
  | nil => rfl
  | cons p ps ih => simp [satRow, ih]

theorem satRow_spec (f : Nat → Nat → Color) (y : Nat) (bound : Nat → Nat → Prop)
    (hb : ∀ i j, bound i j → ∀ c, prefixSum f i j c < 2 ^ 31) :
    ∀ (n x0 : Nat) (up : List SatCell) (left diag : SatCell),
      (∀ c, (left.get c).toInt = prefixSum f x0 (y + 1) c) → (∀ c, (diag.get c).toInt = prefixSum f x0 y c) →
      (∀ k, k < n → ∀ c, ((up.getD k satZero).get c).toInt = prefixSum f (x0 + k + 1) y c) →
      (∀ k, k < n → bound (x0 + k + 1) (y + 1)) →
      ∀ k, k < n → ∀ c,
        (((satRow ((List.range' x0 n).map fun x => f x y) up left diag).getD k satZero).get c).toInt =
          prefixSum f (x0 + k + 1) (y + 1) c := by
  intro n
  induction n with
  | zero => intro _ _ _ _ _ _ _ _ k hk; omega
  | succ n ih =>
    intro x0 up left diag hleft hdiag hup hbd k hk c
    have hu0 : ∀ c, ((up.headD satZero).get c).toInt = prefixSum f (x0 + 1) y c := by
      intro c
      have := hup 0 (by omega) c
      cases up <;> simpa using this
    have hcell : ∀ c, ((satCell (f x0 y) left (up.headD satZero) diag).get c).toInt = prefixSum f (x0 + 1) (y + 1) c := by
      intro c
      unfold satCell
      rw [Rgb.get_ofFn]
      refine satAcc_toInt (hleft c) (hu0 c) (hdiag c) ?_ (hb _ _ (by simpa using hbd 0 (by omega)) c)
      exact prefixSum_succ f x0 y c
    simp only [List.range'_succ, List.map_cons, satRow]
    cases k with
    | zero => simpa using hcell c
    | succ k =>
      have := ih (x0 + 1) up.tail (satCell (f x0 y) left (up.headD satZero) diag) (up.headD satZero) hcell hu0
        (by
          intro k hk c
          have := hup (k + 1) (by omega) c
          cases up with
          | nil => simpa [Nat.add_assoc, Nat.add_comm 1] using this
          | cons a up => simpa [Nat.add_assoc, Nat.add_comm 1] using this)
        (by
          intro k hk
          have := hbd (k + 1) (by omega)
          rwa [show x0 + 1 + k + 1 = x0 + (k + 1) + 1 by omega])
        k (by omega) c
      simp only [List.getD_cons_succ]
      rw [this, show x0 + 1 + k + 1 = x0 + (k + 1) + 1 by omega]

theorem satRows_length (rows : List (List Color)) (up : List SatCell) : (satRows rows up).length = rows.length := by
  induction rows generalizing up with
  | nil => rfl
  | cons r rows ih => simp [satRows, ih]

theorem satRows_spec (f : Nat → Nat → Color) (W : Nat) (bound : Nat → Nat → Prop)
    (hb : ∀ i j, bound i j → ∀ c, prefixSum f i j c < 2 ^ 31) :
    ∀ (n y0 : Nat) (up : List SatCell),
      (∀ k, k < W → ∀ c, ((up.getD k satZero).get c).toInt = prefixSum f (k + 1) y0 c) →
      (∀ k j, k < W → j < n → bound (k + 1) (y0 + j + 1)) →
      ∀ j, j < n → ∀ k, k < W → ∀ c,
        ((((satRows ((List.range' y0 n).map fun y => (List.range W).map fun x => f x y) up).getD j []).getD k satZero).get
            c).toInt = prefixSum f (k + 1) (y0 + j + 1) c := by
  intro n
  induction n with
  | zero => intro _ _ _ _ j hj; omega
  | succ n ih =>
    intro y0 up hup hbd j hj k hk c
    simp only [List.range'_succ, List.map_cons, satRows]
    have hrow : ∀ k, k < W → ∀ c,
        (((satRow ((List.range W).map fun x => f x y0) up satZero satZero).getD k satZero).get c).toInt =
          prefixSum f (k + 1) (y0 + 1) c := by
      intro k hk c
      have := satRow_spec f y0 bound hb W 0 up satZero satZero
        (by intro c; simp [satZero_get]) (by intro c; simp [satZero_get])
        (by intro k hk c; simpa using hup k hk c)
        (by intro k hk; simpa using hbd k 0 hk (by omega)) k hk c
      simpa [List.range_eq_range'] using this
    cases j with
    | zero => simpa using hrow k hk c
    | succ j =>
      have := ih (y0 + 1) _ hrow
        (by intro k j hk hj; have := hbd k (j + 1) hk (by omega); rwa [show y0 + 1 + j + 1 = y0 + (j + 1) + 1 by omega])
        j (by omega) k hk c
      simp only [List.getD_cons_succ]
      rw [this, show y0 + 1 + j + 1 = y0 + (j + 1) + 1 by omega]

theorem satRows_row_length (rows : List (List Color)) (up : List SatCell) {W : Nat} (h : ∀ r ∈ rows, r.length = W) :
    ∀ r ∈ satRows rows up, r.length = W := by
  induction rows generalizing up with
  | nil => simp [satRows]
  | cons r rows ih =>
    intro q hq
    simp only [satRows, List.mem_cons] at hq
    rcases hq with rfl | hq
    · rw [satRow_length]; exact h r (by simp)
    · exact ih _ (fun s hs => h s (by simp [hs])) q hq

/-- Indexing the concatenation of rows of one length. -/
theorem flatten_getD {α : Type} (rows : List (List α)) {W : Nat} (h : ∀ r ∈ rows, r.length = W) (y x : Nat)
    (hy : y < rows.length) (hx : x < W) (d e : α) : rows.flatten.getD (y * W + x) d = (rows.getD y []).getD x e := by
  induction rows generalizing y with
  | nil => simp at hy
  | cons r rows ih =>
    have hr : r.length = W := h r (by simp)
    cases y with
    | zero =>
      simp only [List.flatten_cons, List.getD_cons_zero, Nat.zero_mul, Nat.zero_add]
      rw [List.getD_append _ _ _ _ (by omega)]
      rw [List.getD_eq_getElem _ _ (by omega), List.getD_eq_getElem _ _ (by omega)]
    | succ y =>
      simp only [List.flatten_cons, List.getD_cons_succ]
      rw [List.getD_append_right _ _ _ _ (by rw [hr, Nat.succ_mul]; omega)]
      rw [show (y + 1) * W + x - r.length = y * W + x by rw [hr, Nat.succ_mul]; omega]
      exact ih (fun s hs => h s (by simp [hs])) y (by simpa using hy)

theorem flatten_length {α : Type} (rows : List (List α)) {W : Nat} (h : ∀ r ∈ rows, r.length = W) :
    rows.flatten.length = rows.length * W := by
  induction rows with
  | nil => simp
  | cons r rows ih =>
    rw [List.flatten_cons, List.length_append, ih fun s hs => h s (by simp [hs]), h r (by simp)]
    simp [Nat.succ_mul, Nat.add_comm]

theorem pixelRows_row_length (m : Memory) (B W H : Nat) : ∀ r ∈ pixelRows m B W H, r.length = W := by
  intro r hr
  obtain ⟨y, _, rfl⟩ := List.mem_map.mp hr
  simp

/-- The table has one cell per pixel (spec/10_state.md R50). -/
theorem satTable_length (m : Memory) (B W H : Nat) : (satTable m B W H).length = W * H := by
  unfold satTable
  rw [flatten_length _ (satRows_row_length _ _ (pixelRows_row_length m B W H)), satRows_length]
  simp [pixelRows, Nat.mul_comm]

/-- Cell (x, y) of the table holds the inclusive sum over `[0..x]×[0..y]`, as an exact non-negative integer (R131,
R132). -/
theorem satAt_satTable (m : Memory) (B W H : Nat) (h : W * H ≤ 8421504) {x y : Nat} (hx : x < W) (hy : y < H) (c : Chan) :
    ((satAt (satTable m B W H) W x y).get c).toInt = prefixSum (imageAt m B W) (x + 1) (y + 1) c := by
  have hb : ∀ i j, (i ≤ W ∧ j ≤ H) → ∀ c, prefixSum (imageAt m B W) i j c < 2 ^ 31 := by
    intro i j hij c
    have h1 := prefixSum_le (imageAt m B W) i j c
    have h2 : i * j ≤ W * H := Nat.mul_le_mul hij.1 hij.2
    omega
  have := satRows_spec (imageAt m B W) W (fun i j => i ≤ W ∧ j ≤ H) hb H 0 [] (by intro k hk c; simp [satZero_get])
    (by intro k j hk hj; constructor <;> omega) y hy x hx c
  unfold satAt satTable
  rw [flatten_getD _ (satRows_row_length _ _ (pixelRows_row_length m B W H)) y x
    (by rw [satRows_length]; simpa [pixelRows] using hy) hx _ satZero]
  simpa [pixelRows, imageAt, List.range_eq_range'] using this

/-- The built table holds the image (R130, R131). -/
theorem satHolds_satTable (m : Memory) (B W H : Nat) (h : W * H ≤ 8421504) :
    SatHolds (satTable m B W H) W H (imageAt m B W) := fun _ _ c hx hy => satAt_satTable m B W H h hx hy c

/-- `T` reads the prefix sums of the image. -/
theorem SatHolds.satT {t : List SatCell} {W H : Nat} {f : Nat → Nat → Color} (h : SatHolds t W H f) {i j : Nat}
    (hi : i ≤ W) (hj : j ≤ H) (c : Chan) : Machine.satT t W i j c = prefixSum f i j c := by
  unfold Machine.satT
  split_ifs with hz
  · rcases hz with rfl | rfl <;> simp
  · rw [h _ _ c (by omega) (by omega), show i - 1 + 1 = i by omega, show j - 1 + 1 = j by omega]

/-- Inclusion and exclusion on prefix sums. -/
theorem prefixSum_rect (f : Nat → Nat → Color) (r : Rect) (c : Chan) :
    prefixSum f (r.x + r.w) (r.y + r.h) c + prefixSum f r.x r.y c =
      rectTotal f r c + prefixSum f r.x (r.y + r.h) c + prefixSum f (r.x + r.w) r.y c := by
  unfold prefixSum rectTotal
  simp only [Finset.sum_range_add, Finset.sum_add_distrib]
  omega

/-- Four corner lookups give the sum over the rectangle (R133). -/
theorem SatHolds.rectSum {t : List SatCell} {W H : Nat} {f : Nat → Nat → Color} (h : SatHolds t W H f) (r : Rect)
    (hw : r.x + r.w ≤ W) (hh : r.y + r.h ≤ H) (c : Chan) : Machine.rectSum t W r c = rectTotal f r c := by
  unfold Machine.rectSum
  rw [h.satT hw hh, h.satT (by omega) hh, h.satT hw (by omega), h.satT (by omega) (by omega)]
  have := prefixSum_rect f r c
  omega

theorem rectTotal_le (f : Nat → Nat → Color) (r : Rect) (c : Chan) : rectTotal f r c ≤ 255 * r.area := by
  have := prefixSum_le (fun x y => f (r.x + x) (r.y + y)) r.w r.h c
  simpa [prefixSum, rectTotal, Rect.area] using this

theorem rectTotal_div_le (f : Nat → Nat → Color) (r : Rect) (c : Chan) : rectTotal f r c / r.area ≤ 255 := by
  rcases Nat.eq_zero_or_pos r.area with h | h
  · simp [h]
  · calc rectTotal f r c / r.area ≤ 255 * r.area / r.area := Nat.div_le_div_right (rectTotal_le f r c)
      _ = 255 := Nat.mul_div_cancel _ h

/-- The average of a rectangle is the mean colour of the image's rectangle: the clamp leaves it alone (R134). -/
theorem SatHolds.averageColor {t : List SatCell} {W H : Nat} {f : Nat → Nat → Color} (h : SatHolds t W H f) (r : Rect)
    (hw : r.x + r.w ≤ W) (hh : r.y + r.h ≤ H) : Machine.averageColor t W r = meanColor f r := by
  unfold Machine.averageColor meanColor
  split_ifs with hz
  · have : r.area = 0 := by rcases hz with hz | hz <;> simp [Rect.area, hz]
    simp [this, Rgb.ofFn, Rgb.black]
  · congr 1
    funext c
    rw [h.rectSum r hw hh]
    unfold clampByte
    have hdiv : ((rectTotal f r c : Int)).tdiv (r.area : Int) = ((rectTotal f r c / r.area : Nat) : Int) := by
      rw [Int.tdiv_eq_ediv_of_nonneg (by omega)]
      rfl
    rw [hdiv]
    have hle := rectTotal_div_le f r c
    generalize rectTotal f r c / r.area = q at hle ⊢
    have : max 0 (min (q : Int) 255) = (q : Int) := by
      have : (0 : Int) ≤ q := Int.natCast_nonneg q
      omega
    rw [this, BitVec.ofInt_natCast]

/-! ## The homogeneity count -/

theorem filter_range_length (n : Nat) (p : Nat → Bool) :
    ((List.range n).filter p).length = ((Finset.range n).filter fun i => p i = true).card := by
  rw [← List.toFinset_card_of_nodup (List.nodup_range.filter _)]
  congr 1
  ext i
  simp

/-- The scan counts each pixel of the rectangle within the tolerance once (R135). -/
theorem homogCount_eq (m : Memory) (B Wb : Nat) (r : Rect) (avg : Color) (L : Nat) :
    homogCount m B Wb r avg L = nearCount (imageAt m B Wb) r avg L := by
  unfold homogCount nearCount Rect.pixels
  rw [List.filter_flatMap, List.length_flatMap, Finset.card_filter, Finset.sum_product_right]
  rw [Finset.sum_eq_multiset_sum]
  change _ = (Multiset.map _ (Multiset.range r.h)).sum
  rw [Multiset.range, Multiset.map_coe, Multiset.sum_coe]
  congr 1
  refine List.map_congr_left fun j _ => ?_
  rw [List.filter_map, List.length_map, filter_range_length, Finset.card_filter]
  refine Finset.sum_congr rfl fun i _ => ?_
  simp only [withinLoss, imageAt, Function.comp_apply, decide_eq_true_eq]
  exact if_congr Iff.rfl rfl rfl

end Sys2Proof.Machine
end

