-- ==== Sys2Proof/Laws/Symbols.lean ====
section
/-! SUPPORT. The symbol table of a list of leaf colours (spec/41_quadtree.md R165, R166): what it holds, and that it
depends on how often each colour occurs and on nothing else. -/

namespace Sys2Proof.Machine

/-- `pack` tells colours apart (spec/00_scope.md R10). -/
theorem pack_injective {a b : Color} (h : a.pack = b.pack) : a = b := by
  obtain ⟨ar, ag, ab⟩ := a
  obtain ⟨br, bg, bb⟩ := b
  have h' : (ar ++ ag ++ ab : BitVec 24) = br ++ bg ++ bb := h
  have e3 := congrArg (fun v : BitVec 24 => v.extractLsb' 0 8) h'
  have e2 := congrArg (fun v : BitVec 24 => v.extractLsb' 8 8) h'
  have e1 := congrArg (fun v : BitVec 24 => v.extractLsb' 16 8) h'
  have k3 : ∀ x y z : BitVec 8, (x ++ y ++ z : BitVec 24).extractLsb' 0 8 = z := by
    intro x y z
    apply BitVec.eq_of_getLsbD_eq
    intro i hi
    simp only [BitVec.getLsbD_extractLsb', BitVec.getLsbD_append]
    simp only [hi, decide_true, Bool.true_and, Nat.zero_add, if_true]
  have k2 : ∀ x y z : BitVec 8, (x ++ y ++ z : BitVec 24).extractLsb' 8 8 = y := by
    intro x y z
    apply BitVec.eq_of_getLsbD_eq
    intro i hi
    simp only [BitVec.getLsbD_extractLsb', BitVec.getLsbD_append]
    simp only [hi, show ¬ 8 + i < 8 by omega, show 8 + i - 8 = i by omega, decide_true, Bool.true_and, if_true,
      if_false]
  have k1 : ∀ x y z : BitVec 8, (x ++ y ++ z : BitVec 24).extractLsb' 16 8 = x := by
    intro x y z
    apply BitVec.eq_of_getLsbD_eq
    intro i hi
    simp only [BitVec.getLsbD_extractLsb', BitVec.getLsbD_append]
    simp only [hi, show ¬ 16 + i < 8 by omega, show ¬ 16 + i - 8 < 8 by omega, show 16 + i - 8 - 8 = i by omega,
      decide_true, Bool.true_and, if_false]
  simp only [k1] at e1
  simp only [k2] at e2
  simp only [k3] at e3
  subst e1 e2 e3
  rfl

theorem mem_freqIncrement_color {c : Color} {t : List SymEntry} {e : SymEntry} (h : e ∈ freqIncrement c t) :
    e.color = c ∨ e ∈ t := by
  induction t with
  | nil => simp only [freqIncrement, List.mem_singleton] at h; subst h; exact .inl rfl
  | cons x t ih =>
    simp only [freqIncrement] at h
    split_ifs at h with h1 h2
    · rcases List.mem_cons.mp h with rfl | h
      · exact .inl h1.symm
      · exact .inr (by simp [h])
    · rcases List.mem_cons.mp h with rfl | h
      · exact .inl rfl
      · exact .inr h
    · rcases List.mem_cons.mp h with rfl | h
      · exact .inr (by simp)
      · rcases ih h with h | h
        · exact .inl h
        · exact .inr (by simp [h])

theorem freqIncrement_sorted {c : Color} {t : List SymEntry}
    (h : t.Pairwise fun a b => a.color.pack < b.color.pack) :
    (freqIncrement c t).Pairwise fun a b => a.color.pack < b.color.pack := by
  induction t with
  | nil => simp [freqIncrement]
  | cons x t ih =>
    rw [List.pairwise_cons] at h
    simp only [freqIncrement]
    split_ifs with h1 h2
    · exact List.pairwise_cons.mpr ⟨h.1, h.2⟩
    · refine List.pairwise_cons.mpr ⟨?_, List.pairwise_cons.mpr h⟩
      intro e he
      rcases List.mem_cons.mp he with rfl | he
      · exact h2
      · exact BitVec.lt_trans h2 (h.1 e he)
    · refine List.pairwise_cons.mpr ⟨?_, ih h.2⟩
      intro e he
      rcases mem_freqIncrement_color he with he | he
      · rw [he]
        have hne : c.pack ≠ x.color.pack := fun hp => h1 (pack_injective hp)
        have : ¬ c.pack.toNat < x.color.pack.toNat := h2
        have hne' : c.pack.toNat ≠ x.color.pack.toNat := fun hp => hne (BitVec.eq_of_toNat_eq hp)
        exact BitVec.lt_def.mpr (by omega)
      · exact h.1 e he

theorem freqIncrement_mem {c : Color} {t : List SymEntry}
    (h : t.Pairwise fun a b => a.color.pack < b.color.pack) :
    (∃ e ∈ freqIncrement c t, e.color = c) ∧ (∀ e ∈ t, ∃ e' ∈ freqIncrement c t, e'.color = e.color) ∧
      ∀ e ∈ freqIncrement c t,
        (e.color ≠ c ∧ e ∈ t) ∨
        (e.color = c ∧ ∃ x ∈ t, x.color = c ∧ e = { x with freq := x.freq + 1 }) ∨
        (e = ⟨c, 1, []⟩ ∧ ∀ x ∈ t, x.color ≠ c) := by
  induction t with
  | nil => simp [freqIncrement]
  | cons x t ih =>
    rw [List.pairwise_cons] at h
    obtain ⟨i1, i2, i3⟩ := ih h.2
    simp only [freqIncrement]
    split_ifs with h1 h2
    · refine ⟨⟨_, List.mem_cons_self, h1.symm⟩, ?_, ?_⟩
      · intro e he
        rcases List.mem_cons.mp he with rfl | he
        · exact ⟨_, List.mem_cons_self, rfl⟩
        · exact ⟨e, by simp [he], rfl⟩
      · intro e he
        rcases List.mem_cons.mp he with rfl | he
        · exact .inr (.inl ⟨h1.symm, x, by simp, h1.symm, rfl⟩)
        · refine .inl ⟨?_, by simp [he]⟩
          intro hc
          have := h.1 e he
          rw [hc, h1] at this
          exact absurd this (BitVec.lt_irrefl _)
    · refine ⟨⟨_, List.mem_cons_self, rfl⟩, fun e he => ⟨e, by simp [he], rfl⟩, ?_⟩
      intro e he
      have hall : ∀ y ∈ x :: t, y.color ≠ c := by
        intro y hy hc
        rcases List.mem_cons.mp hy with rfl | hy
        · exact h1 hc.symm
        · have := BitVec.lt_trans h2 (h.1 y hy)
          rw [hc] at this
          exact absurd this (BitVec.lt_irrefl _)
      rcases List.mem_cons.mp he with rfl | he
      · exact .inr (.inr ⟨rfl, hall⟩)
      · exact .inl ⟨hall e he, he⟩
    · refine ⟨?_, ?_, ?_⟩
      · obtain ⟨e, he, hc⟩ := i1; exact ⟨e, by simp [he], hc⟩
      · intro e he
        rcases List.mem_cons.mp he with rfl | he
        · exact ⟨e, by simp, rfl⟩
        · obtain ⟨e', he', hc⟩ := i2 e he; exact ⟨e', by simp [he'], hc⟩
      · intro e he
        rcases List.mem_cons.mp he with rfl | he
        · exact .inl ⟨fun hc => h1 hc.symm, by simp⟩
        · rcases i3 e he with ⟨hc, hm⟩ | ⟨hc, y, hy, hyc, rfl⟩ | ⟨rfl, hall⟩
          · exact .inl ⟨hc, by simp [hm]⟩
          · exact .inr (.inl ⟨hc, y, by simp [hy], hyc, rfl⟩)
          · refine .inr (.inr ⟨rfl, ?_⟩)
            intro y hy
            rcases List.mem_cons.mp hy with rfl | hy
            · exact fun hc => h1 hc.symm
            · exact hall y hy

/-- One increment more is one colour more. -/
theorem SymbolsOf.increment {cs : List Color} {t : List SymEntry} (h : SymbolsOf cs t) (c : Color) :
    SymbolsOf (cs ++ [c]) (freqIncrement c t) := by
  obtain ⟨i1, i2, i3⟩ := freqIncrement_mem (c := c) h.sorted
  refine ⟨freqIncrement_sorted h.sorted, ?_, ?_⟩
  · intro e he
    rcases i3 e he with ⟨hc, hm⟩ | ⟨hc, x, hx, hxc, rfl⟩ | ⟨rfl, hall⟩
    · obtain ⟨h1, h2, h3⟩ := h.counted e hm
      refine ⟨?_, h2, by simp [h3]⟩
      rw [h1, List.count_append, List.count_singleton]
      have hne : (c == e.color) = false := beq_eq_false_iff_ne.mpr fun h => hc h.symm
      simp [hne]
    · obtain ⟨h1, h2, h3⟩ := h.counted x hx
      refine ⟨?_, h2, by simp [h3]⟩
      simp only [hxc] at h1 ⊢
      rw [h1, List.count_append, List.count_singleton]
      simp [BitVec.ofNat_add]
    · refine ⟨?_, rfl, by simp⟩
      have hn : c ∉ cs := by
        intro hm
        obtain ⟨e, he, hec⟩ := h.complete c hm
        exact hall e he hec
      rw [List.count_append, List.count_eq_zero_of_not_mem hn]
      simp
  · intro d hd
    rcases List.mem_append.mp hd with hd | hd
    · obtain ⟨e, he, hec⟩ := h.complete d hd
      obtain ⟨e', he', hc'⟩ := i2 e he
      exact ⟨e', he', hc'.trans hec⟩
    · rw [List.mem_singleton] at hd
      subst hd
      exact i1

theorem SymbolsOf.foldl {cs : List Color} {t : List SymEntry} (h : SymbolsOf cs t) (ds : List Color) :
    SymbolsOf (cs ++ ds) (ds.foldl (fun t c => freqIncrement c t) t) := by
  induction ds generalizing cs t with
  | nil => simpa using h
  | cons d ds ih =>
    have := ih (h.increment d)
    rwa [List.append_assoc] at this

/-- What the symbol table holds (R165, R166). -/
theorem symbolTable_spec (cs : List Color) : SymbolsOf cs (symbolTable cs) := by
  have h : SymbolsOf [] [] := ⟨by simp, by simp, by simp⟩
  simpa [symbolTable] using h.foldl cs

/-- Two tables of colours that occur equally often are one table: the order of the increments does not matter (R170). -/
theorem SymbolsOf.unique {cs ds : List Color} {t u : List SymEntry} (h : SymbolsOf cs t) (g : SymbolsOf ds u)
    (hp : cs.Perm ds) : t = u := by
  have key : ∀ {cs ds : List Color} {t u : List SymEntry}, SymbolsOf cs t → SymbolsOf ds u → cs.Perm ds →
      ∀ e ∈ t, e ∈ u := by
    intro cs ds t u h g hp e he
    obtain ⟨h1, h2, h3⟩ := h.counted e he
    obtain ⟨e', he', hc⟩ := g.complete e.color (hp.mem_iff.mp h3)
    obtain ⟨g1, g2, _⟩ := g.counted e' he'
    have : e = e' := by
      obtain ⟨a, b, c⟩ := e
      obtain ⟨a', b', c'⟩ := e'
      simp only at h1 h2 g1 g2 hc
      subst hc
      rw [h1, h2, g1, g2, hp.count_eq]
    rwa [this]
  have nodup : ∀ {t : List SymEntry}, (t.Pairwise fun a b => a.color.pack < b.color.pack) → t.Nodup := by
    intro t ht
    refine List.Pairwise.imp ?_ ht
    intro a b hab he
    rw [he] at hab
    exact absurd hab (BitVec.lt_irrefl _)
  have hperm : t.Perm u :=
    (List.perm_ext_iff_of_nodup (nodup h.sorted) (nodup g.sorted)).mpr fun e =>
      ⟨key h g hp e, key g h hp.symm e⟩
  exact hperm.eq_of_pairwise (fun a b _ _ hab hba => absurd (BitVec.lt_trans hab hba) (BitVec.lt_irrefl _)) h.sorted g.sorted

/-- A table of some of the colours is no longer than a table of all of them. -/
theorem SymbolsOf.length_le {cs ds : List Color} {t u : List SymEntry} (h : SymbolsOf cs t) (g : SymbolsOf ds u)
    (hs : ∀ c ∈ cs, c ∈ ds) : t.length ≤ u.length := by
  have hn : (t.map (·.color)).Nodup := by
    rw [List.nodup_iff_pairwise_ne, List.pairwise_map]
    refine h.sorted.imp fun {a b} hab he => ?_
    rw [he] at hab
    exact absurd hab (BitVec.lt_irrefl _)
  have hsub : t.map (·.color) ⊆ u.map (·.color) := by
    intro c hc
    obtain ⟨e, he, rfl⟩ := List.mem_map.mp hc
    obtain ⟨x, hx, hxc⟩ := g.complete _ (hs _ (h.counted e he).2.2)
    exact List.mem_map.mpr ⟨x, hx, hxc⟩
  simpa using hn.length_le_of_subset hsub

/-- The entries have distinct colours. -/
theorem SymbolsOf.color_unique {cs : List Color} {t : List SymEntry} (h : SymbolsOf cs t) :
    ∀ a ∈ t, ∀ b ∈ t, a.color = b.color → a = b := by
  have hs := h.sorted
  clear h
  induction t with
  | nil => simp
  | cons x t ih =>
    rw [List.pairwise_cons] at hs
    have hx : ∀ y ∈ t, x.color ≠ y.color := by
      intro y hy he
      have hlt := hs.1 y hy
      rw [he] at hlt
      exact absurd hlt (BitVec.lt_irrefl _)
    intro a ha b hb hab
    rcases List.mem_cons.mp ha with ha | ha <;> rcases List.mem_cons.mp hb with hb | hb
    · rw [ha, hb]
    · exact absurd (ha ▸ hab) (hx b hb)
    · exact absurd (hb ▸ hab).symm (hx a ha)
    · exact ih hs.2 a ha b hb hab

end Sys2Proof.Machine
end

