-- ==== Sys2Proof/Laws/Quadtree.lean ====
section
/-! SUPPORT. What the build of QT_BUILD makes: the subtree of the stopping policy (spec/41_quadtree.md R162), in
pre-order, within the depth bounds (R168), tiling its rectangle (R164). -/

namespace Sys2Proof.Machine

theorem PreOrder.mono {f g d : Nat} {r : Rect} {ns : List NodeRec} (h : PreOrder f d r ns) (hfg : f ≤ g) :
    PreOrder g d r ns := by
  induction h generalizing g with
  | leaf f d r c => exact .leaf g d r c
  | internal f d r n0 n1 n2 n3 _ _ _ _ i0 i1 i2 i3 =>
    obtain ⟨g', rfl⟩ : ∃ g', g = g' + 1 := ⟨g - 1, by omega⟩
    exact .internal g' d r n0 n1 n2 n3 (i0 (by omega)) (i1 (by omega)) (i2 (by omega)) (i3 (by omega))

theorem PreOrder.ne_nil {f d : Nat} {r : Rect} {ns : List NodeRec} (h : PreOrder f d r ns) : ns ≠ [] := by
  cases h <;> simp

/-- What the stopping policy builds is a quadtree in pre-order, no deeper than maxD. -/
theorem Built.preOrder {minD maxD : Nat} {homog : Rect → Prop} {mean : Rect → Color} (hm : minD ≤ maxD) {d : Nat}
    {r : Rect} {ns : List NodeRec} (h : Built minD maxD homog mean d r ns) (hd : d ≤ maxD) :
    PreOrder (maxD - d) d r ns := by
  induction h with
  | leaf d r => exact .leaf _ d r _
  | split d r n0 n1 n2 n3 hc _ _ _ _ i0 i1 i2 i3 =>
    have hlt : d < maxD := by omega
    obtain ⟨k, hk⟩ : ∃ k, maxD - d = k + 1 := ⟨maxD - d - 1, by omega⟩
    have hk' : maxD - (d + 1) = k := by omega
    rw [hk]
    rw [hk'] at i0 i1 i2 i3
    exact .internal k d r n0 n1 n2 n3 (i0 hlt) (i1 hlt) (i2 hlt) (i3 hlt)

/-- The policy builds one tree. -/
theorem Built.unique {minD maxD : Nat} {homog : Rect → Prop} {mean : Rect → Color} {d : Nat} {r : Rect}
    {ns ms : List NodeRec} (h : Built minD maxD homog mean d r ns) (g : Built minD maxD homog mean d r ms) : ns = ms := by
  induction h generalizing ms with
  | leaf d r h1 h2 =>
    cases g with
    | leaf => rfl
    | split _ _ _ _ _ _ hc => rcases h2 with h2 | h2 <;> rcases hc with hc | hc <;> first | omega | exact absurd h2 hc.2
  | split d r n0 n1 n2 n3 hc _ _ _ _ i0 i1 i2 i3 =>
    cases g with
    | leaf _ _ h1 h2 => rcases h2 with h2 | h2 <;> rcases hc with hc | hc <;> first | omega | exact absurd h2 hc.2
    | split _ _ _ _ _ _ _ g0 g1 g2 g3 => rw [i0 g0, i1 g1, i2 g2, i3 g3]

/-- The three verdicts (R162). -/
theorem QtEnv.verdict_spec (e : QtEnv) (d : Nat) (r : Rect) :
    (e.verdict d r = .split ∧ (d < e.minD ∨ e.minD ≤ d ∧ e.scanErrors r = [] ∧ e.homog r = false)) ∨
      (e.verdict d r = .leaf ∧ e.minD ≤ d ∧ e.scanErrors r = [] ∧ e.homog r = true) ∨
        ∃ a as, e.verdict d r = .busError a as ∧ e.minD ≤ d ∧ e.scanErrors r = a :: as := by
  unfold QtEnv.verdict
  by_cases h : d < e.minD
  · exact .inl ⟨by simp [h], .inl h⟩
  · cases hs : e.scanErrors r with
    | cons a as => exact .inr (.inr ⟨a, as, by simp [h], by omega, rfl⟩)
    | nil =>
      cases hh : e.homog r with
      | true => exact .inr (.inl ⟨by simp [h], by omega, rfl, rfl⟩)
      | false => exact .inl ⟨by simp [h], .inr ⟨by omega, rfl, rfl⟩⟩

theorem QtEnv.build_split {e : QtEnv} {d : Nat} {r : Rect} (h : e.verdict d r = .split) (f : Nat) :
    e.build (f + 1) d r = assemble d r (e.build f (d + 1) r.child0) (e.build f (d + 1) r.child1)
      (e.build f (d + 1) r.child2) (e.build f (d + 1) r.child3) := by
  simp [QtEnv.build, h]

theorem QtEnv.build_leaf {e : QtEnv} {d : Nat} {r : Rect} (h : e.verdict d r = .leaf) (f : Nat) :
    e.build (f + 1) d r = e.leaf d r := by
  simp [QtEnv.build, h]

theorem QtEnv.build_busError {e : QtEnv} {d a : Nat} {as : List Nat} {r : Rect} (h : e.verdict d r = .busError a as)
    (f : Nat) : e.build (f + 1) d r = ⟨[], a :: as⟩ := by
  simp [QtEnv.build, h]

/-- A build that met no bus error makes the policy's tree. -/
theorem QtEnv.build_built (e : QtEnv) {f d : Nat} {r : Rect} (hm : e.minD ≤ e.maxD) (hf : f + d = e.maxD)
    (hb : (e.build f d r).bad = []) :
    Built e.minD e.maxD (fun r => e.homog r = true) e.avg d r (e.build f d r).nodes := by
  induction f generalizing d r with
  | zero => exact .leaf d r (by omega) (.inl (by omega))
  | succ f ih =>
    rcases e.verdict_spec d r with ⟨hv, hc⟩ | ⟨hv, h1, _, h2⟩ | ⟨a, as, hv, _, _⟩
    · rw [e.build_split hv] at hb ⊢
      simp only [assemble, List.append_eq_nil_iff] at hb ⊢
      obtain ⟨⟨⟨b0, b1⟩, b2⟩, b3⟩ := hb
      refine .split d r _ _ _ _ ?_ (ih (by omega) b0) (ih (by omega) b1) (ih (by omega) b2) (ih (by omega) b3)
      rcases hc with hc | ⟨_, _, hc⟩
      · exact .inl hc
      · exact .inr ⟨by omega, by simp [hc]⟩
    · rw [e.build_leaf hv]
      exact .leaf d r h1 (.inr h2)
    · rw [e.build_busError hv] at hb
      simp at hb

/-! ## Rectangles inside an image -/

theorem inside_children {W H : Nat} {r : Rect} (h : inside W H r) :
    inside W H r.child0 ∧ inside W H r.child1 ∧ inside W H r.child2 ∧ inside W H r.child3 := by
  unfold inside Rect.child0 Rect.child1 Rect.child2 Rect.child3 at *
  simp only
  omega

/-- Two policies that agree on the rectangles of an image build the same tree there. -/
theorem Built.congr {minD maxD W H : Nat} {p q : Rect → Prop} {f g : Rect → Color}
    (hp : ∀ r, inside W H r → (p r ↔ q r)) (hf : ∀ r, inside W H r → f r = g r) {d : Nat} {r : Rect}
    {ns : List NodeRec} (h : Built minD maxD p f d r ns) (hr : inside W H r) : Built minD maxD q g d r ns := by
  induction h with
  | leaf d r h1 h2 =>
    rw [hf r hr]
    exact .leaf d r h1 (h2.imp id (hp r hr).mp)
  | split d r n0 n1 n2 n3 hc _ _ _ _ i0 i1 i2 i3 =>
    obtain ⟨c0, c1, c2, c3⟩ := inside_children hr
    exact .split d r n0 n1 n2 n3 (hc.imp id fun h => ⟨h.1, fun hq => h.2 ((hp r hr).mpr hq)⟩) (i0 c0) (i1 c1) (i2 c2)
      (i3 c3)

/-- The bytes a scan of a rectangle of the image reads lie in the image's buffer (spec/20_memory.md R61, R65). -/
theorem mem_pixelAddrs {B W H : Nat} {r : Rect} (hr : inside W H r) {a : Nat} (h : a ∈ pixelAddrs B W r) :
    B ≤ a ∧ a < B + 3 * (W * H) := by
  obtain ⟨p, hp, ha⟩ := List.mem_flatMap.mp h
  obtain ⟨j, hj, hp⟩ := List.mem_flatMap.mp hp
  obtain ⟨i, hi, rfl⟩ := List.mem_map.mp hp
  rw [List.mem_range] at hi hj
  have hx : r.x + i < W := by have := hr.1; omega
  have hy : r.y + j + 1 ≤ H := by have := hr.2; omega
  have hm : (r.y + j + 1) * W ≤ H * W := Nat.mul_le_mul_right W hy
  rw [Nat.add_mul, Nat.one_mul, Nat.mul_comm H W] at hm
  simp only [pixAddr, List.mem_cons, List.not_mem_nil, or_false] at ha
  rcases ha with rfl | rfl | rfl <;> omega

theorem busErrors_nil {p : Params} {k : AccessKind} {as : List Nat} (h : ∀ a ∈ as, p.busOK a k = true) :
    busErrors p k as = [] := by
  unfold busErrors
  rw [List.filter_eq_nil_iff]
  intro a ha
  simp [h a ha]

/-- Where every byte of the image answers, no build meets a bus error (R172). -/
theorem QtEnv.build_bad_nil (e : QtEnv) {H : Nat}
    (hbus : ∀ a, e.base ≤ a → a < e.base + 3 * (e.satW * H) → e.par.busOK a .read = true) {f d : Nat} {r : Rect}
    (hr : inside e.satW H r) : (e.build f d r).bad = [] := by
  have hscan : ∀ r, inside e.satW H r → e.scanErrors r = [] := fun r hr =>
    busErrors_nil fun a ha => by obtain ⟨h1, h2⟩ := mem_pixelAddrs hr ha; exact hbus a h1 h2
  induction f generalizing d r with
  | zero => rfl
  | succ f ih =>
    obtain ⟨c0, c1, c2, c3⟩ := inside_children hr
    rcases e.verdict_spec d r with ⟨hv, _⟩ | ⟨hv, _⟩ | ⟨a, as, _, _, hs⟩
    · rw [e.build_split hv]
      simp [assemble, ih c0, ih c1, ih c2, ih c3]
    · rw [e.build_leaf hv]; rfl
    · rw [hscan r hr] at hs; simp at hs

/-- The build over a SAT of an image `g` and the pixels of an image `f` is the policy's tree, in the words of the
images. -/
theorem QtEnv.build_of_satHolds (e : QtEnv) {H : Nat} {g : Nat → Nat → Color} (hs : SatHolds e.sat e.satW H g)
    (hm : e.minD ≤ e.maxD) {f d : Nat} {r : Rect} (hf : f + d = e.maxD) (hr : inside e.satW H r)
    (hb : (e.build f d r).bad = []) :
    Built e.minD e.maxD
      (fun r => 9 * r.area ≤ 10 * nearCount (imageAt e.mem e.base e.satW) r (meanColor g r) e.loss) (meanColor g) d r
      (e.build f d r).nodes := by
  have havg : ∀ r, inside e.satW H r → e.avg r = meanColor g r := fun r hr => hs.averageColor r hr.1 hr.2
  refine (e.build_built hm hf hb).congr (W := e.satW) (H := H) ?_ havg hr
  intro r hr
  simp only [QtEnv.homog, homogVerdict, decide_eq_true_eq, homogCount_eq, havg r hr]

/-! ## Depths and tiling -/

/-- Depth bounds of a built tree (R168). -/
theorem Built.depths {minD maxD : Nat} {homog : Rect → Prop} {mean : Rect → Color} (hm : minD ≤ maxD) {d : Nat}
    {r : Rect} {ns : List NodeRec} (h : Built minD maxD homog mean d r ns) (hd : d ≤ maxD) :
    ∀ n ∈ ns, d ≤ n.depth ∧ n.depth ≤ maxD ∧ (n.kind ≠ .internal → minD ≤ n.depth) ∧
      (n.depth = maxD → n.kind ≠ .internal) := by
  induction h with
  | leaf d r h1 h2 =>
    intro n hn
    rw [List.mem_singleton] at hn
    subst hn
    exact ⟨le_refl _, hd, fun _ => h1, fun _ => by simp [NodeRec.ofRect]⟩
  | split d r n0 n1 n2 n3 hc _ _ _ _ i0 i1 i2 i3 =>
    have hlt : d < maxD := by omega
    intro n hn
    simp only [List.mem_cons, List.mem_append] at hn
    rcases hn with rfl | ((hn | hn) | hn) | hn
    · refine ⟨le_refl _, hd, fun h => absurd rfl h, fun h => ?_⟩
      simp only [NodeRec.ofRect] at h
      omega
    · obtain ⟨a, b⟩ := i0 hlt n hn; exact ⟨by omega, b⟩
    · obtain ⟨a, b⟩ := i1 hlt n hn; exact ⟨by omega, b⟩
    · obtain ⟨a, b⟩ := i2 hlt n hn; exact ⟨by omega, b⟩
    · obtain ⟨a, b⟩ := i3 hlt n hn; exact ⟨by omega, b⟩

theorem leavesAt_append (ms ns : List NodeRec) (px py : Nat) :
    leavesAt (ms ++ ns) px py = leavesAt ms px py + leavesAt ns px py := by
  simp [leavesAt]

/-- A rectangle of a record is the one it was made of, where it lies below 2^32 (spec/10_state.md R52). -/
theorem ofRect_rect (k : NodeKind) (d : Nat) {r : Rect} (h : inside (2 ^ 32 - 1) (2 ^ 32 - 1) r) :
    (NodeRec.ofRect k d r).rect = r := by
  unfold inside at h
  simp only [NodeRec.rect, NodeRec.ofRect, BitVec.toNat_ofNat]
  rw [Nat.mod_eq_of_lt (by omega), Nat.mod_eq_of_lt (by omega), Nat.mod_eq_of_lt (by omega), Nat.mod_eq_of_lt (by omega)]

theorem inRect_iff {r : Rect} {px py : Nat} :
    inRect r px py = true ↔ r.x ≤ px ∧ px < r.x + r.w ∧ r.y ≤ py ∧ py < r.y + r.h := by
  simp [inRect, and_assoc]

/-- The four children tile their parent (R164). -/
theorem children_tile (r : Rect) (px py : Nat) :
    (if inRect r.child0 px py then 1 else 0) + (if inRect r.child1 px py then 1 else 0) +
      (if inRect r.child2 px py then 1 else 0) + (if inRect r.child3 px py then 1 else 0) =
        if inRect r px py then 1 else 0 := by
  simp only [inRect_iff, Rect.child0, Rect.child1, Rect.child2, Rect.child3]
  split_ifs <;> omega

/-- The leaves of a quadtree tile its rectangle: each of its pixels lies in exactly one leaf, and no other pixel in any
(R164). -/
theorem PreOrder.tiles {f d : Nat} {r : Rect} {ns : List NodeRec} (h : PreOrder f d r ns)
    (hr : inside (2 ^ 32 - 1) (2 ^ 32 - 1) r) (px py : Nat) :
    leavesAt ns px py = if inRect r px py then 1 else 0 := by
  induction h with
  | leaf f d r c =>
    have hc : (NodeRec.ofRect (.leaf c) d r).leafColor?.isSome = true := rfl
    simp only [leavesAt, List.filter_cons, ofRect_rect _ _ hr, hc, Bool.true_and, List.filter_nil]
    split_ifs <;> rfl
  | internal f d r n0 n1 n2 n3 _ _ _ _ i0 i1 i2 i3 =>
    obtain ⟨c0, c1, c2, c3⟩ := inside_children hr
    have hh : leavesAt (NodeRec.ofRect .internal d r :: (n0 ++ n1 ++ n2 ++ n3)) px py =
        leavesAt (n0 ++ n1 ++ n2 ++ n3) px py := by
      simp [leavesAt, NodeRec.leafColor?, NodeRec.ofRect]
    rw [hh, leavesAt_append, leavesAt_append, leavesAt_append, i0 c0, i1 c1, i2 c2, i3 c3]
    exact children_tile r px py

/-- Every record of a quadtree lies in its root's rectangle. -/
theorem PreOrder.rect_inside {f d W H : Nat} {r : Rect} {ns : List NodeRec} (h : PreOrder f d r ns)
    (hr : inside W H r) (hW : W < 2 ^ 32) (hH : H < 2 ^ 32) : ∀ n ∈ ns, inside W H n.rect := by
  have hrect : ∀ k d r, inside W H r → inside W H (NodeRec.ofRect k d r).rect := by
    intro k d r hr
    rw [ofRect_rect]
    · exact hr
    · unfold inside at hr ⊢; omega
  induction h with
  | leaf f d r c => intro n hn; rw [List.mem_singleton] at hn; subst hn; exact hrect _ d r hr
  | internal f d r n0 n1 n2 n3 _ _ _ _ i0 i1 i2 i3 =>
    obtain ⟨c0, c1, c2, c3⟩ := inside_children hr
    intro n hn
    simp only [List.mem_cons, List.mem_append] at hn
    rcases hn with rfl | ((hn | hn) | hn) | hn
    · exact hrect _ d r hr
    · exact i0 c0 n hn
    · exact i1 c1 n hn
    · exact i2 c2 n hn
    · exact i3 c3 n hn

theorem leafColors_append (ms ns : List NodeRec) : leafColors (ms ++ ns) = leafColors ms ++ leafColors ns :=
  List.filterMap_append

theorem leafColors_internal (d : Nat) (r : Rect) (ns : List NodeRec) :
    leafColors (NodeRec.ofRect .internal d r :: ns) = leafColors ns := rfl

/-- No more leaves than records. -/
theorem leafColors_length_le (ns : List NodeRec) : (leafColors ns).length ≤ ns.length := List.length_filterMap_le _ _

end Sys2Proof.Machine
end

