-- ==== Sys2Proof/Laws/Bitstream.lean ====
section
/-! SUPPORT. The container (spec/30_encoding.md R100 to R106) and what a successful decode leaves (spec/43_bitstream.md
R220 to R226): sizes, a quadtree in pre-order, tables within their capacities. -/

namespace Sys2Proof.Machine

/-! ## Sizes -/

theorem payload_length (es : List SymEntry) (ns : List NodeRec) : (payload es ns).length = payloadLength es ns := by
  unfold payload payloadLength
  rw [List.length_flatMap]
  congr 1
  refine List.map_congr_left fun n _ => ?_
  unfold nodeBits
  cases n.kind with
  | internal => rfl
  | leaf c => simp [Nat.add_comm]

theorem entryBytes_length (e : SymEntry) : (entryBytes e).length = 5 + ceil8 e.code.length := by
  simp [entryBytes, u16be]
  omega

/-- The container's size (R106). -/
theorem container_length (w h n : Word) (es : List SymEntry) (ns : List NodeRec) :
    (container w h n es ns).length = containerSize es ns := by
  unfold container containerSize
  simp only [List.length_append, s32be_length, List.length_flatMap, entryBytes_length, packBits_length, payload_length]

/-! ## Computations that may fail -/

theorem except_bind_ok {ε α β : Type} {x : Except ε α} {f : α → Except ε β} {b : β} :
    (x >>= f) = .ok b ↔ ∃ a, x = .ok a ∧ f a = .ok b := by
  cases x with
  | error e => simp [bind, Except.bind]
  | ok a => simp [bind, Except.bind]

theorem except_pure_ok {ε α : Type} {a b : α} : (pure a : Except ε α) = .ok b ↔ a = b := by
  simp [pure, Except.pure]

/-! ## What a decode leaves -/

theorem decodeLeaf_spec {e : DecEnv} {trie : List TrieNode} {f d : Nat} {r : Rect} {pos cnt : Nat} {ns : List NodeRec}
    {p : Nat} (h : e.decodeLeaf trie d r pos cnt = .ok (ns, p)) :
    PreOrder f d r ns ∧ cnt + ns.length ≤ e.par.maxNodes := by
  unfold DecEnv.decodeLeaf at h
  obtain ⟨⟨c, q⟩, _, h⟩ := except_bind_ok.mp h
  simp only at h
  split_ifs at h with hc
  rw [except_pure_ok, Prod.mk.injEq] at h
  obtain ⟨rfl, rfl⟩ := h
  exact ⟨.leaf _ _ _ _, by simp only [List.length_singleton]; omega⟩

/-- The records of a decoded subtree are a quadtree in pre-order, and never more than the node table holds (R225). -/
theorem decodeNode_spec (e : DecEnv) (trie : List TrieNode) {f d : Nat} {r : Rect} {pos cnt : Nat} {ns : List NodeRec}
    {p : Nat} (h : e.decodeNode trie f d r pos cnt = .ok (ns, p)) :
    PreOrder f d r ns ∧ cnt + ns.length ≤ e.par.maxNodes := by
  induction f generalizing d r pos cnt ns p with
  | zero =>
    unfold DecEnv.decodeNode at h
    obtain ⟨b, _, h⟩ := except_bind_ok.mp h
    split_ifs at h
    exact decodeLeaf_spec h
  | succ f ih =>
    unfold DecEnv.decodeNode at h
    obtain ⟨b, _, h⟩ := except_bind_ok.mp h
    split_ifs at h with hb hc
    · exact decodeLeaf_spec h
    · obtain ⟨⟨n0, p0⟩, h0, h⟩ := except_bind_ok.mp h
      obtain ⟨⟨n1, p1⟩, h1, h⟩ := except_bind_ok.mp h
      obtain ⟨⟨n2, p2⟩, h2, h⟩ := except_bind_ok.mp h
      obtain ⟨⟨n3, p3⟩, h3, h⟩ := except_bind_ok.mp h
      rw [except_pure_ok, Prod.mk.injEq] at h
      obtain ⟨rfl, rfl⟩ := h
      obtain ⟨q0, l0⟩ := ih h0
      obtain ⟨q1, l1⟩ := ih h1
      obtain ⟨q2, l2⟩ := ih h2
      obtain ⟨q3, l3⟩ := ih h3
      refine ⟨.internal _ _ _ _ _ _ _ q0 q1 q2 q3, ?_⟩
      simp only [List.length_cons, List.length_append]
      omega

theorem plant_length {p : Params} {off : Nat} {col : Color} {bs : List Bool} {t : Nat} {trie trie' : List TrieNode}
    (h : plant p off col bs t trie = .ok trie') (hc : trie.length ≤ p.maxTrieNodes) :
    trie'.length ≤ p.maxTrieNodes := by
  induction bs generalizing t trie with
  | nil =>
    simp only [plant] at h
    split_ifs at h
    simp only [Except.ok.injEq] at h
    subst h
    simpa using hc
  | cons b bs ih =>
    simp only [plant] at h
    by_cases hcol : (trieAt trie t).color.isSome = true
    · simp [hcol] at h
    · rw [if_neg hcol] at h
      split at h
      · exact ih h hc
      · split_ifs at h with hcap
        exact ih h (by simp; omega)

/-- A parsed entry has no frequency and a code within the capacity, and the trie stays within its own (R222). -/
theorem parseEntry_spec {e : DecEnv} {off off' : Nat} {trie trie' : List TrieNode} {sym : SymEntry}
    (h : e.parseEntry off trie = .ok (sym, trie', off')) (hc : trie.length ≤ e.par.maxTrieNodes) :
    sym.freq = 0 ∧ 1 ≤ sym.code.length ∧ sym.code.length ≤ e.par.maxCodeLen ∧ trie'.length ≤ e.par.maxTrieNodes := by
  unfold DecEnv.parseEntry at h
  obtain ⟨r, _, h⟩ := except_bind_ok.mp h
  obtain ⟨g, _, h⟩ := except_bind_ok.mp h
  obtain ⟨b, _, h⟩ := except_bind_ok.mp h
  obtain ⟨l1, _, h⟩ := except_bind_ok.mp h
  obtain ⟨l0, _, h⟩ := except_bind_ok.mp h
  simp only at h
  split_ifs at h with h1 h2
  obtain ⟨bytes, _, h⟩ := except_bind_ok.mp h
  obtain ⟨t', ht, h⟩ := except_bind_ok.mp h
  simp only [except_pure_ok, Prod.mk.injEq] at h
  obtain ⟨rfl, rfl, rfl⟩ := h
  refine ⟨rfl, ?_, ?_, plant_length ht hc⟩
  · simp [unpackBits]; omega
  · simp [unpackBits]; omega

theorem parseEntries_spec {e : DecEnv} {n off off' : Nat} {trie trie' : List TrieNode} {syms : List SymEntry}
    (h : e.parseEntries n off trie = .ok (syms, trie', off')) (hc : trie.length ≤ e.par.maxTrieNodes) :
    syms.length = n ∧ (∀ x ∈ syms, x.freq = 0 ∧ 1 ≤ x.code.length ∧ x.code.length ≤ e.par.maxCodeLen) ∧
      trie'.length ≤ e.par.maxTrieNodes := by
  induction n generalizing off trie syms with
  | zero =>
    simp only [DecEnv.parseEntries, Except.ok.injEq, Prod.mk.injEq] at h
    obtain ⟨rfl, rfl, rfl⟩ := h
    exact ⟨rfl, by simp, hc⟩
  | succ n ih =>
    simp only [DecEnv.parseEntries] at h
    obtain ⟨⟨sym, t1, o1⟩, h1, h⟩ := except_bind_ok.mp h
    obtain ⟨⟨ss, t2, o2⟩, h2, h⟩ := except_bind_ok.mp h
    simp only [except_pure_ok, Prod.mk.injEq] at h
    obtain ⟨rfl, rfl, rfl⟩ := h
    obtain ⟨a, b, c, d⟩ := parseEntry_spec h1 hc
    obtain ⟨a2, b2, c2⟩ := ih h2 d
    refine ⟨by simp [a2], ?_, c2⟩
    intro x hx
    rcases List.mem_cons.mp hx with rfl | hx
    · exact ⟨a, b, c⟩
    · exact b2 x hx

/-- What the header gives (R221). -/
theorem parseHeader_spec {e : DecEnv} {w h : Word} {n : Nat} (hh : e.parseHeader = .ok (w, h, n)) :
    0 < w.toInt ∧ 0 < h.toInt ∧ n ≤ e.par.maxSymbols := by
  unfold DecEnv.parseHeader at hh
  obtain ⟨w', _, hh⟩ := except_bind_ok.mp hh
  split_ifs at hh with h1
  obtain ⟨h', _, hh⟩ := except_bind_ok.mp hh
  split_ifs at hh with h2
  obtain ⟨n', _, hh⟩ := except_bind_ok.mp hh
  split_ifs at hh with h3 h4
  simp only [except_pure_ok, Prod.mk.injEq] at hh
  obtain ⟨rfl, rfl, rfl⟩ := hh
  exact ⟨by omega, by omega, by omega⟩

/-- What a successful decode leaves (R220, R226). -/
theorem decodeAll_spec {e : DecEnv} {d : Decoded} (h : e.decodeAll = .ok d) (hc : 1 ≤ e.par.maxTrieNodes) :
    0 < d.w.toInt ∧ 0 < d.h.toInt ∧ PreOrder e.par.maxTreeDepth 0 (rootRect d.w d.h) d.nodes ∧
      d.nodes.length ≤ e.par.maxNodes ∧ d.syms.length ≤ e.par.maxSymbols ∧
      (∀ x ∈ d.syms, x.freq = 0 ∧ 1 ≤ x.code.length ∧ x.code.length ≤ e.par.maxCodeLen) ∧
      d.trie.length ≤ e.par.maxTrieNodes := by
  unfold DecEnv.decodeAll at h
  obtain ⟨⟨w, hh, n⟩, h1, h⟩ := except_bind_ok.mp h
  obtain ⟨⟨syms, trie, off⟩, h2, h⟩ := except_bind_ok.mp h
  obtain ⟨⟨nodes, pos⟩, h3, h⟩ := except_bind_ok.mp h
  simp only [except_pure_ok] at h
  subst h
  obtain ⟨a, b, c⟩ := parseHeader_spec h1
  obtain ⟨d1, d2, d3⟩ := parseEntries_spec h2 (by simpa using hc)
  obtain ⟨e1, e2⟩ := decodeNode_spec e trie h3
  exact ⟨a, b, e1, by simpa using e2, by rw [d1]; exact c, d2, d3⟩

end Sys2Proof.Machine
end

