-- ==== Sys2Proof/Laws/State.lean ====
section
/-! SUPPORT. One lemma per field per update of the state, true by rfl, so that no later proof unfolds an update. -/

namespace Sys2Proof.Machine

/-! `completeWith` -/

@[simp] theorem completeWith_par (c : BitVec 8) (i : Word) (s : State) :
    (completeWith c i s).par = s.par := rfl
@[simp] theorem completeWith_irqEn (c : BitVec 8) (i : Word) (s : State) :
    (completeWith c i s).irqEn = s.irqEn := rfl
@[simp] theorem completeWith_status (c : BitVec 8) (i : Word) (s : State) :
    (completeWith c i s).status = ⟨false, true, s.status.ovr, s.status.stage, c⟩ := rfl
@[simp] theorem completeWith_cmd (c : BitVec 8) (i : Word) (s : State) :
    (completeWith c i s).cmd = s.cmd := rfl
@[simp] theorem completeWith_cfg (c : BitVec 8) (i : Word) (s : State) :
    (completeWith c i s).cfg = s.cfg := rfl
@[simp] theorem completeWith_res (c : BitVec 8) (i : Word) (s : State) :
    (completeWith c i s).res = s.res := rfl
@[simp] theorem completeWith_valid (c : BitVec 8) (i : Word) (s : State) :
    (completeWith c i s).valid = s.valid := rfl
@[simp] theorem completeWith_cnt (c : BitVec 8) (i : Word) (s : State) :
    (completeWith c i s).cnt = s.cnt := rfl
@[simp] theorem completeWith_errInfo (c : BitVec 8) (i : Word) (s : State) :
    (completeWith c i s).errInfo = i := rfl
@[simp] theorem completeWith_snap (c : BitVec 8) (i : Word) (s : State) :
    (completeWith c i s).snap = s.snap := rfl
@[simp] theorem completeWith_pendingAbort (c : BitVec 8) (i : Word) (s : State) :
    (completeWith c i s).pendingAbort = false := rfl
@[simp] theorem completeWith_cursor (c : BitVec 8) (i : Word) (s : State) :
    (completeWith c i s).cursor = 0 := rfl
@[simp] theorem completeWith_pool (c : BitVec 8) (i : Word) (s : State) :
    (completeWith c i s).pool = none := rfl
@[simp] theorem completeWith_stageBefore (c : BitVec 8) (i : Word) (s : State) :
    (completeWith c i s).stageBefore = s.stageBefore := rfl
@[simp] theorem completeWith_sat (c : BitVec 8) (i : Word) (s : State) :
    (completeWith c i s).sat = s.sat := rfl
@[simp] theorem completeWith_nodes (c : BitVec 8) (i : Word) (s : State) :
    (completeWith c i s).nodes = s.nodes := rfl
@[simp] theorem completeWith_syms (c : BitVec 8) (i : Word) (s : State) :
    (completeWith c i s).syms = s.syms := rfl
@[simp] theorem completeWith_trie (c : BitVec 8) (i : Word) (s : State) :
    (completeWith c i s).trie = [] := rfl
@[simp] theorem completeWith_mem (c : BitVec 8) (i : Word) (s : State) :
    (completeWith c i s).mem = s.mem := rfl
@[simp] theorem completeWith_agenda (c : BitVec 8) (i : Word) (s : State) :
    (completeWith c i s).agenda = s.agenda := rfl
@[simp] theorem completeWith_reads (c : BitVec 8) (i : Word) (s : State) :
    (completeWith c i s).reads = s.reads := rfl
@[simp] theorem completeWith_freeIx (c : BitVec 8) (i : Word) (s : State) :
    (completeWith c i s).freeIx = s.freeIx := rfl
@[simp] theorem completeWith_readIx (c : BitVec 8) (i : Word) (s : State) :
    (completeWith c i s).readIx = s.readIx := rfl

/-! `accept` -/

@[simp] theorem accept_par (v : Word) (s : State) :
    (accept v s).par = s.par := rfl
@[simp] theorem accept_irqEn (v : Word) (s : State) :
    (accept v s).irqEn = s.irqEn := rfl
@[simp] theorem accept_status (v : Word) (s : State) :
    (accept v s).status = ⟨true, false, s.status.ovr, firstCode (wordPlan v), 0⟩ := rfl
@[simp] theorem accept_cmd (v : Word) (s : State) :
    (accept v s).cmd = v := rfl
@[simp] theorem accept_cfg (v : Word) (s : State) :
    (accept v s).cfg = s.cfg := rfl
@[simp] theorem accept_res (v : Word) (s : State) :
    (accept v s).res = s.res := rfl
@[simp] theorem accept_valid (v : Word) (s : State) :
    (accept v s).valid = s.valid := rfl
@[simp] theorem accept_cnt (v : Word) (s : State) :
    (accept v s).cnt = s.cnt := rfl
@[simp] theorem accept_errInfo (v : Word) (s : State) :
    (accept v s).errInfo = s.errInfo := rfl
@[simp] theorem accept_snap (v : Word) (s : State) :
    (accept v s).snap = s.cfg := rfl
@[simp] theorem accept_pendingAbort (v : Word) (s : State) :
    (accept v s).pendingAbort = false := rfl
@[simp] theorem accept_cursor (v : Word) (s : State) :
    (accept v s).cursor = s.cursor := rfl
@[simp] theorem accept_pool (v : Word) (s : State) :
    (accept v s).pool = s.pool := rfl
@[simp] theorem accept_stageBefore (v : Word) (s : State) :
    (accept v s).stageBefore = s.status.stage := rfl
@[simp] theorem accept_sat (v : Word) (s : State) :
    (accept v s).sat = s.sat := rfl
@[simp] theorem accept_nodes (v : Word) (s : State) :
    (accept v s).nodes = s.nodes := rfl
@[simp] theorem accept_syms (v : Word) (s : State) :
    (accept v s).syms = s.syms := rfl
@[simp] theorem accept_trie (v : Word) (s : State) :
    (accept v s).trie = s.trie := rfl
@[simp] theorem accept_mem (v : Word) (s : State) :
    (accept v s).mem = s.mem := rfl
@[simp] theorem accept_agenda (v : Word) (s : State) :
    (accept v s).agenda = s.agenda := rfl
@[simp] theorem accept_reads (v : Word) (s : State) :
    (accept v s).reads = s.reads := rfl
@[simp] theorem accept_freeIx (v : Word) (s : State) :
    (accept v s).freeIx = s.freeIx := rfl
@[simp] theorem accept_readIx (v : Word) (s : State) :
    (accept v s).readIx = s.readIx := rfl

/-! `writeStatus` -/

@[simp] theorem writeStatus_par (v : Word) (s : State) :
    (writeStatus v s).par = s.par := rfl
@[simp] theorem writeStatus_irqEn (v : Word) (s : State) :
    (writeStatus v s).irqEn = s.irqEn := rfl
@[simp] theorem writeStatus_status (v : Word) (s : State) :
    (writeStatus v s).status = s.status.w1c v := rfl
@[simp] theorem writeStatus_cmd (v : Word) (s : State) :
    (writeStatus v s).cmd = s.cmd := rfl
@[simp] theorem writeStatus_cfg (v : Word) (s : State) :
    (writeStatus v s).cfg = s.cfg := rfl
@[simp] theorem writeStatus_res (v : Word) (s : State) :
    (writeStatus v s).res = s.res := rfl
@[simp] theorem writeStatus_valid (v : Word) (s : State) :
    (writeStatus v s).valid = s.valid := rfl
@[simp] theorem writeStatus_cnt (v : Word) (s : State) :
    (writeStatus v s).cnt = s.cnt := rfl
@[simp] theorem writeStatus_errInfo (v : Word) (s : State) :
    (writeStatus v s).errInfo = s.errInfo := rfl
@[simp] theorem writeStatus_snap (v : Word) (s : State) :
    (writeStatus v s).snap = s.snap := rfl
@[simp] theorem writeStatus_pendingAbort (v : Word) (s : State) :
    (writeStatus v s).pendingAbort = s.pendingAbort := rfl
@[simp] theorem writeStatus_cursor (v : Word) (s : State) :
    (writeStatus v s).cursor = s.cursor := rfl
@[simp] theorem writeStatus_pool (v : Word) (s : State) :
    (writeStatus v s).pool = s.pool := rfl
@[simp] theorem writeStatus_stageBefore (v : Word) (s : State) :
    (writeStatus v s).stageBefore = s.stageBefore := rfl
@[simp] theorem writeStatus_sat (v : Word) (s : State) :
    (writeStatus v s).sat = s.sat := rfl
@[simp] theorem writeStatus_nodes (v : Word) (s : State) :
    (writeStatus v s).nodes = s.nodes := rfl
@[simp] theorem writeStatus_syms (v : Word) (s : State) :
    (writeStatus v s).syms = s.syms := rfl
@[simp] theorem writeStatus_trie (v : Word) (s : State) :
    (writeStatus v s).trie = s.trie := rfl
@[simp] theorem writeStatus_mem (v : Word) (s : State) :
    (writeStatus v s).mem = s.mem := rfl
@[simp] theorem writeStatus_agenda (v : Word) (s : State) :
    (writeStatus v s).agenda = s.agenda := rfl
@[simp] theorem writeStatus_reads (v : Word) (s : State) :
    (writeStatus v s).reads = s.reads := rfl
@[simp] theorem writeStatus_freeIx (v : Word) (s : State) :
    (writeStatus v s).freeIx = s.freeIx := rfl
@[simp] theorem writeStatus_readIx (v : Word) (s : State) :
    (writeStatus v s).readIx = s.readIx := rfl

/-! `writeResults` -/

@[simp] theorem writeResults_par (r : Results) (s : State) :
    (writeResults r s).par = s.par := rfl
@[simp] theorem writeResults_irqEn (r : Results) (s : State) :
    (writeResults r s).irqEn = s.irqEn := rfl
@[simp] theorem writeResults_status (r : Results) (s : State) :
    (writeResults r s).status = s.status := rfl
@[simp] theorem writeResults_cmd (r : Results) (s : State) :
    (writeResults r s).cmd = s.cmd := rfl
@[simp] theorem writeResults_cfg (r : Results) (s : State) :
    (writeResults r s).cfg = s.cfg := rfl
@[simp] theorem writeResults_res (r : Results) (s : State) :
    (writeResults r s).res = r := rfl
@[simp] theorem writeResults_valid (r : Results) (s : State) :
    (writeResults r s).valid = s.valid := rfl
@[simp] theorem writeResults_cnt (r : Results) (s : State) :
    (writeResults r s).cnt = s.cnt := rfl
@[simp] theorem writeResults_errInfo (r : Results) (s : State) :
    (writeResults r s).errInfo = s.errInfo := rfl
@[simp] theorem writeResults_snap (r : Results) (s : State) :
    (writeResults r s).snap = s.snap := rfl
@[simp] theorem writeResults_pendingAbort (r : Results) (s : State) :
    (writeResults r s).pendingAbort = s.pendingAbort := rfl
@[simp] theorem writeResults_cursor (r : Results) (s : State) :
    (writeResults r s).cursor = s.cursor := rfl
@[simp] theorem writeResults_pool (r : Results) (s : State) :
    (writeResults r s).pool = s.pool := rfl
@[simp] theorem writeResults_stageBefore (r : Results) (s : State) :
    (writeResults r s).stageBefore = s.stageBefore := rfl
@[simp] theorem writeResults_sat (r : Results) (s : State) :
    (writeResults r s).sat = s.sat := rfl
@[simp] theorem writeResults_nodes (r : Results) (s : State) :
    (writeResults r s).nodes = s.nodes := rfl
@[simp] theorem writeResults_syms (r : Results) (s : State) :
    (writeResults r s).syms = s.syms := rfl
@[simp] theorem writeResults_trie (r : Results) (s : State) :
    (writeResults r s).trie = s.trie := rfl
@[simp] theorem writeResults_mem (r : Results) (s : State) :
    (writeResults r s).mem = s.mem := rfl
@[simp] theorem writeResults_agenda (r : Results) (s : State) :
    (writeResults r s).agenda = s.agenda := rfl
@[simp] theorem writeResults_reads (r : Results) (s : State) :
    (writeResults r s).reads = s.reads := rfl
@[simp] theorem writeResults_freeIx (r : Results) (s : State) :
    (writeResults r s).freeIx = s.freeIx := rfl
@[simp] theorem writeResults_readIx (r : Results) (s : State) :
    (writeResults r s).readIx = s.readIx := rfl

/-! `record` -/

@[simp] theorem record_par (v : Word) (s : State) :
    (record v s).par = s.par := rfl
@[simp] theorem record_irqEn (v : Word) (s : State) :
    (record v s).irqEn = s.irqEn := rfl
@[simp] theorem record_status (v : Word) (s : State) :
    (record v s).status = s.status := rfl
@[simp] theorem record_cmd (v : Word) (s : State) :
    (record v s).cmd = s.cmd := rfl
@[simp] theorem record_cfg (v : Word) (s : State) :
    (record v s).cfg = s.cfg := rfl
@[simp] theorem record_res (v : Word) (s : State) :
    (record v s).res = s.res := rfl
@[simp] theorem record_valid (v : Word) (s : State) :
    (record v s).valid = s.valid := rfl
@[simp] theorem record_cnt (v : Word) (s : State) :
    (record v s).cnt = s.cnt := rfl
@[simp] theorem record_errInfo (v : Word) (s : State) :
    (record v s).errInfo = s.errInfo := rfl
@[simp] theorem record_snap (v : Word) (s : State) :
    (record v s).snap = s.snap := rfl
@[simp] theorem record_pendingAbort (v : Word) (s : State) :
    (record v s).pendingAbort = s.pendingAbort := rfl
@[simp] theorem record_cursor (v : Word) (s : State) :
    (record v s).cursor = s.cursor := rfl
@[simp] theorem record_pool (v : Word) (s : State) :
    (record v s).pool = s.pool := rfl
@[simp] theorem record_stageBefore (v : Word) (s : State) :
    (record v s).stageBefore = s.stageBefore := rfl
@[simp] theorem record_sat (v : Word) (s : State) :
    (record v s).sat = s.sat := rfl
@[simp] theorem record_nodes (v : Word) (s : State) :
    (record v s).nodes = s.nodes := rfl
@[simp] theorem record_syms (v : Word) (s : State) :
    (record v s).syms = s.syms := rfl
@[simp] theorem record_trie (v : Word) (s : State) :
    (record v s).trie = s.trie := rfl
@[simp] theorem record_mem (v : Word) (s : State) :
    (record v s).mem = s.mem := rfl
@[simp] theorem record_agenda (v : Word) (s : State) :
    (record v s).agenda = s.agenda := rfl
@[simp] theorem record_reads (v : Word) (s : State) :
    (record v s).reads = v :: s.reads := rfl
@[simp] theorem record_freeIx (v : Word) (s : State) :
    (record v s).freeIx = s.freeIx := rfl
@[simp] theorem record_readIx (v : Word) (s : State) :
    (record v s).readIx = s.readIx := rfl

/-! `pop` -/

@[simp] theorem pop_par (s : State) :
    (s.pop).par = s.par := rfl
@[simp] theorem pop_irqEn (s : State) :
    (s.pop).irqEn = s.irqEn := rfl
@[simp] theorem pop_status (s : State) :
    (s.pop).status = s.status := rfl
@[simp] theorem pop_cmd (s : State) :
    (s.pop).cmd = s.cmd := rfl
@[simp] theorem pop_cfg (s : State) :
    (s.pop).cfg = s.cfg := rfl
@[simp] theorem pop_res (s : State) :
    (s.pop).res = s.res := rfl
@[simp] theorem pop_valid (s : State) :
    (s.pop).valid = s.valid := rfl
@[simp] theorem pop_cnt (s : State) :
    (s.pop).cnt = s.cnt := rfl
@[simp] theorem pop_errInfo (s : State) :
    (s.pop).errInfo = s.errInfo := rfl
@[simp] theorem pop_snap (s : State) :
    (s.pop).snap = s.snap := rfl
@[simp] theorem pop_pendingAbort (s : State) :
    (s.pop).pendingAbort = s.pendingAbort := rfl
@[simp] theorem pop_cursor (s : State) :
    (s.pop).cursor = s.cursor := rfl
@[simp] theorem pop_pool (s : State) :
    (s.pop).pool = s.pool := rfl
@[simp] theorem pop_stageBefore (s : State) :
    (s.pop).stageBefore = s.stageBefore := rfl
@[simp] theorem pop_sat (s : State) :
    (s.pop).sat = s.sat := rfl
@[simp] theorem pop_nodes (s : State) :
    (s.pop).nodes = s.nodes := rfl
@[simp] theorem pop_syms (s : State) :
    (s.pop).syms = s.syms := rfl
@[simp] theorem pop_trie (s : State) :
    (s.pop).trie = s.trie := rfl
@[simp] theorem pop_mem (s : State) :
    (s.pop).mem = s.mem := rfl
@[simp] theorem pop_agenda (s : State) :
    (s.pop).agenda = s.agenda.tail := rfl
@[simp] theorem pop_reads (s : State) :
    (s.pop).reads = s.reads := rfl
@[simp] theorem pop_freeIx (s : State) :
    (s.pop).freeIx = s.freeIx := rfl
@[simp] theorem pop_readIx (s : State) :
    (s.pop).readIx = s.readIx := rfl

/-! `draw` -/

@[simp] theorem draw_par (s : State) :
    ((draw s).2).par = s.par := rfl
@[simp] theorem draw_irqEn (s : State) :
    ((draw s).2).irqEn = s.irqEn := rfl
@[simp] theorem draw_status (s : State) :
    ((draw s).2).status = s.status := rfl
@[simp] theorem draw_cmd (s : State) :
    ((draw s).2).cmd = s.cmd := rfl
@[simp] theorem draw_cfg (s : State) :
    ((draw s).2).cfg = s.cfg := rfl
@[simp] theorem draw_res (s : State) :
    ((draw s).2).res = s.res := rfl
@[simp] theorem draw_valid (s : State) :
    ((draw s).2).valid = s.valid := rfl
@[simp] theorem draw_cnt (s : State) :
    ((draw s).2).cnt = s.cnt := rfl
@[simp] theorem draw_errInfo (s : State) :
    ((draw s).2).errInfo = s.errInfo := rfl
@[simp] theorem draw_snap (s : State) :
    ((draw s).2).snap = s.snap := rfl
@[simp] theorem draw_pendingAbort (s : State) :
    ((draw s).2).pendingAbort = s.pendingAbort := rfl
@[simp] theorem draw_cursor (s : State) :
    ((draw s).2).cursor = s.cursor := rfl
@[simp] theorem draw_pool (s : State) :
    ((draw s).2).pool = s.pool := rfl
@[simp] theorem draw_stageBefore (s : State) :
    ((draw s).2).stageBefore = s.stageBefore := rfl
@[simp] theorem draw_sat (s : State) :
    ((draw s).2).sat = s.sat := rfl
@[simp] theorem draw_nodes (s : State) :
    ((draw s).2).nodes = s.nodes := rfl
@[simp] theorem draw_syms (s : State) :
    ((draw s).2).syms = s.syms := rfl
@[simp] theorem draw_trie (s : State) :
    ((draw s).2).trie = s.trie := rfl
@[simp] theorem draw_mem (s : State) :
    ((draw s).2).mem = s.mem := rfl
@[simp] theorem draw_agenda (s : State) :
    ((draw s).2).agenda = s.agenda := rfl
@[simp] theorem draw_reads (s : State) :
    ((draw s).2).reads = s.reads := rfl
@[simp] theorem draw_freeIx (s : State) :
    ((draw s).2).freeIx = s.freeIx + 1 := rfl
@[simp] theorem draw_readIx (s : State) :
    ((draw s).2).readIx = s.readIx := rfl

/-! `resetBlock` -/

@[simp] theorem resetBlock_par (s : State) :
    (resetBlock s).par = s.par := rfl
@[simp] theorem resetBlock_irqEn (s : State) :
    (resetBlock s).irqEn = false := rfl
@[simp] theorem resetBlock_status (s : State) :
    (resetBlock s).status = .reset := rfl
@[simp] theorem resetBlock_cmd (s : State) :
    (resetBlock s).cmd = 0 := rfl
@[simp] theorem resetBlock_cfg (s : State) :
    (resetBlock s).cfg = .reset := rfl
@[simp] theorem resetBlock_res (s : State) :
    (resetBlock s).res = .reset := rfl
@[simp] theorem resetBlock_valid (s : State) :
    (resetBlock s).valid = .reset := rfl
@[simp] theorem resetBlock_cnt (s : State) :
    (resetBlock s).cnt = .reset := rfl
@[simp] theorem resetBlock_errInfo (s : State) :
    (resetBlock s).errInfo = 0 := rfl
@[simp] theorem resetBlock_snap (s : State) :
    (resetBlock s).snap = .reset := rfl
@[simp] theorem resetBlock_pendingAbort (s : State) :
    (resetBlock s).pendingAbort = false := rfl
@[simp] theorem resetBlock_cursor (s : State) :
    (resetBlock s).cursor = 0 := rfl
@[simp] theorem resetBlock_pool (s : State) :
    (resetBlock s).pool = none := rfl
@[simp] theorem resetBlock_stageBefore (s : State) :
    (resetBlock s).stageBefore = 0 := rfl
@[simp] theorem resetBlock_sat (s : State) :
    (resetBlock s).sat = [] := rfl
@[simp] theorem resetBlock_nodes (s : State) :
    (resetBlock s).nodes = [] := rfl
@[simp] theorem resetBlock_syms (s : State) :
    (resetBlock s).syms = [] := rfl
@[simp] theorem resetBlock_trie (s : State) :
    (resetBlock s).trie = [] := rfl
@[simp] theorem resetBlock_mem (s : State) :
    (resetBlock s).mem = s.mem := rfl
@[simp] theorem resetBlock_agenda (s : State) :
    (resetBlock s).agenda = s.agenda := rfl
@[simp] theorem resetBlock_reads (s : State) :
    (resetBlock s).reads = s.reads := rfl
@[simp] theorem resetBlock_freeIx (s : State) :
    (resetBlock s).freeIx = s.freeIx := rfl
@[simp] theorem resetBlock_readIx (s : State) :
    (resetBlock s).readIx = s.readIx := rfl

/-! `startStage`: what every stage's start leaves alone. -/

@[simp] theorem startStage_par (k : StageId) (s : State) : (startStage k s).par = s.par := by
  cases k <;> rfl
@[simp] theorem startStage_irqEn (k : StageId) (s : State) : (startStage k s).irqEn = s.irqEn := by
  cases k <;> rfl
@[simp] theorem startStage_cmd (k : StageId) (s : State) : (startStage k s).cmd = s.cmd := by
  cases k <;> rfl
@[simp] theorem startStage_cfg (k : StageId) (s : State) : (startStage k s).cfg = s.cfg := by
  cases k <;> rfl
@[simp] theorem startStage_res (k : StageId) (s : State) : (startStage k s).res = s.res := by
  cases k <;> rfl
@[simp] theorem startStage_cnt (k : StageId) (s : State) : (startStage k s).cnt = s.cnt := by
  cases k <;> rfl
@[simp] theorem startStage_errInfo (k : StageId) (s : State) : (startStage k s).errInfo = s.errInfo := by
  cases k <;> rfl
@[simp] theorem startStage_snap (k : StageId) (s : State) : (startStage k s).snap = s.snap := by
  cases k <;> rfl
@[simp] theorem startStage_pendingAbort (k : StageId) (s : State) : (startStage k s).pendingAbort = s.pendingAbort := by
  cases k <;> rfl
@[simp] theorem startStage_stageBefore (k : StageId) (s : State) : (startStage k s).stageBefore = s.stageBefore := by
  cases k <;> rfl
@[simp] theorem startStage_mem (k : StageId) (s : State) : (startStage k s).mem = s.mem := by
  cases k <;> rfl
@[simp] theorem startStage_agenda (k : StageId) (s : State) : (startStage k s).agenda = s.agenda := by
  cases k <;> rfl
@[simp] theorem startStage_reads (k : StageId) (s : State) : (startStage k s).reads = s.reads := by
  cases k <;> rfl
@[simp] theorem startStage_freeIx (k : StageId) (s : State) : (startStage k s).freeIx = s.freeIx := by
  cases k <;> rfl
@[simp] theorem startStage_readIx (k : StageId) (s : State) : (startStage k s).readIx = s.readIx := by
  cases k <;> rfl
@[simp] theorem startStage_cursor (k : StageId) (s : State) : (startStage k s).cursor = 0 := by
  cases k <;> rfl
@[simp] theorem startStage_pool (k : StageId) (s : State) : (startStage k s).pool = none := by
  cases k <;> rfl
@[simp] theorem startStage_status (k : StageId) (s : State) :
    (startStage k s).status = { s.status with stage := k.code } := by
  cases k <;> rfl
@[simp] theorem startStage_valid (k : StageId) (s : State) : (startStage k s).valid = k.clearValid s.valid := by
  cases k <;> rfl

/-! `startStage`: the internal memories, stage by stage. -/

@[simp] theorem startStage_sat_sat (s : State) : (startStage .sat s).sat = [] := rfl
@[simp] theorem startStage_sat_nodes (s : State) : (startStage .sat s).nodes = s.nodes := rfl
@[simp] theorem startStage_sat_syms (s : State) : (startStage .sat s).syms = s.syms := rfl
@[simp] theorem startStage_sat_trie (s : State) : (startStage .sat s).trie = [] := rfl
@[simp] theorem startStage_qt_sat (s : State) : (startStage .qt s).sat = s.sat := rfl
@[simp] theorem startStage_qt_nodes (s : State) : (startStage .qt s).nodes = [] := rfl
@[simp] theorem startStage_qt_syms (s : State) : (startStage .qt s).syms = [] := rfl
@[simp] theorem startStage_qt_trie (s : State) : (startStage .qt s).trie = [] := rfl
@[simp] theorem startStage_huf_sat (s : State) : (startStage .huf s).sat = s.sat := rfl
@[simp] theorem startStage_huf_nodes (s : State) : (startStage .huf s).nodes = s.nodes := rfl
@[simp] theorem startStage_huf_syms (s : State) : (startStage .huf s).syms = s.syms.map (fun e => { e with code := [] }) := rfl
@[simp] theorem startStage_huf_trie (s : State) : (startStage .huf s).trie = [] := rfl
@[simp] theorem startStage_dec_sat (s : State) : (startStage .dec s).sat = s.sat := rfl
@[simp] theorem startStage_dec_nodes (s : State) : (startStage .dec s).nodes = [] := rfl
@[simp] theorem startStage_dec_syms (s : State) : (startStage .dec s).syms = [] := rfl
@[simp] theorem startStage_dec_trie (s : State) : (startStage .dec s).trie = [⟨none, none, none⟩] := rfl
@[simp] theorem startStage_enc_sat (s : State) : (startStage .enc s).sat = s.sat := rfl
@[simp] theorem startStage_enc_nodes (s : State) : (startStage .enc s).nodes = s.nodes := rfl
@[simp] theorem startStage_enc_syms (s : State) : (startStage .enc s).syms = s.syms := rfl
@[simp] theorem startStage_enc_trie (s : State) : (startStage .enc s).trie = [] := rfl
@[simp] theorem startStage_recon_sat (s : State) : (startStage .recon s).sat = s.sat := rfl
@[simp] theorem startStage_recon_nodes (s : State) : (startStage .recon s).nodes = s.nodes := rfl
@[simp] theorem startStage_recon_syms (s : State) : (startStage .recon s).syms = s.syms := rfl
@[simp] theorem startStage_recon_trie (s : State) : (startStage .recon s).trie = [] := rfl
@[simp] theorem startStage_regionAvg_sat (s : State) : (startStage .regionAvg s).sat = s.sat := rfl
@[simp] theorem startStage_regionAvg_nodes (s : State) : (startStage .regionAvg s).nodes = s.nodes := rfl
@[simp] theorem startStage_regionAvg_syms (s : State) : (startStage .regionAvg s).syms = s.syms := rfl
@[simp] theorem startStage_regionAvg_trie (s : State) : (startStage .regionAvg s).trie = [] := rfl
@[simp] theorem startStage_regionHomog_sat (s : State) : (startStage .regionHomog s).sat = s.sat := rfl
@[simp] theorem startStage_regionHomog_nodes (s : State) : (startStage .regionHomog s).nodes = s.nodes := rfl
@[simp] theorem startStage_regionHomog_syms (s : State) : (startStage .regionHomog s).syms = s.syms := rfl
@[simp] theorem startStage_regionHomog_trie (s : State) : (startStage .regionHomog s).trie = [] := rfl
@[simp] theorem startStage_inspectSat_sat (s : State) : (startStage .inspectSat s).sat = s.sat := rfl
@[simp] theorem startStage_inspectSat_nodes (s : State) : (startStage .inspectSat s).nodes = s.nodes := rfl
@[simp] theorem startStage_inspectSat_syms (s : State) : (startStage .inspectSat s).syms = s.syms := rfl
@[simp] theorem startStage_inspectSat_trie (s : State) : (startStage .inspectSat s).trie = [] := rfl
@[simp] theorem startStage_inspectNode_sat (s : State) : (startStage .inspectNode s).sat = s.sat := rfl
@[simp] theorem startStage_inspectNode_nodes (s : State) : (startStage .inspectNode s).nodes = s.nodes := rfl
@[simp] theorem startStage_inspectNode_syms (s : State) : (startStage .inspectNode s).syms = s.syms := rfl
@[simp] theorem startStage_inspectNode_trie (s : State) : (startStage .inspectNode s).trie = [] := rfl
@[simp] theorem startStage_inspectSym_sat (s : State) : (startStage .inspectSym s).sat = s.sat := rfl
@[simp] theorem startStage_inspectSym_nodes (s : State) : (startStage .inspectSym s).nodes = s.nodes := rfl
@[simp] theorem startStage_inspectSym_syms (s : State) : (startStage .inspectSym s).syms = s.syms := rfl
@[simp] theorem startStage_inspectSym_trie (s : State) : (startStage .inspectSym s).trie = [] := rfl

end Sys2Proof.Machine
end

