-- ==== Sys2Proof/Laws/Ops.lean ====
section
/-! SUPPORT. Each shared operation once: everything it can do. -/

namespace Sys2Proof.Machine

/-! ## Free choices -/

/-- A pick answers one of its candidates. -/
theorem pick_mem {α : Type} (x : α) (xs : List α) (n : Nat) : pick x xs n ∈ x :: xs := by
  cases xs with
  | nil => simp [pick]
  | cons y ys =>
    simp only [pick]
    have hlt : n % ((y :: ys).length + 1) < (x :: y :: ys).length := Nat.mod_lt _ (Nat.succ_pos _)
    rw [List.getD_eq_getElem _ _ hlt]
    exact List.getElem_mem hlt

theorem pick_map {α β : Type} (f : α → β) (x : α) (xs : List α) (n : Nat) :
    pick (f x) (xs.map f) n = f (pick x xs n) := by
  cases xs with
  | nil => rfl
  | cons y ys =>
    have hlt : n % ((y :: ys).length + 1) < (x :: y :: ys).length := Nat.mod_lt _ (Nat.succ_pos _)
    simp only [pick, List.map_cons, List.length_cons, List.length_map] at hlt ⊢
    rw [show (f x :: f y :: ys.map f) = (x :: y :: ys).map f from rfl, List.getD_eq_getElem _ _ (by simpa using hlt),
      List.getD_eq_getElem _ _ (by simpa using hlt), List.getElem_map]

/-- A choice answers one of its candidates. -/
theorem choose_mem {α : Type} (x : α) (xs : List α) (s : State) : (choose x xs s).1 ∈ x :: xs := by
  cases xs with
  | nil => simp [choose]
  | cons y ys => exact pick_mem x (y :: ys) _

/-- A read's choice answers one of its candidates. -/
theorem chooseRead_mem {α : Type} (x : α) (xs : List α) (s : State) : (chooseRead x xs s).1 ∈ x :: xs := by
  cases xs with
  | nil => simp [chooseRead]
  | cons y ys => exact pick_mem x (y :: ys) _

/-- A read's choice changes nothing but the counter of the reads' free values. -/
theorem chooseRead_state {α : Type} (x : α) (xs : List α) (s : State) :
    ∃ n, (chooseRead x xs s).2 = { s with readIx := n } := by
  cases xs with
  | nil => exact ⟨s.readIx, rfl⟩
  | cons y ys => exact ⟨s.readIx + 1, rfl⟩

/-- A choice changes nothing but the counter of the free values. -/
theorem choose_state {α : Type} (x : α) (xs : List α) (s : State) :
    ∃ n, (choose x xs s).2 = { s with freeIx := n } := by
  cases xs with
  | nil => exact ⟨s.freeIx, rfl⟩
  | cons y ys => exact ⟨s.freeIx + 1, rfl⟩

@[simp] theorem choose_nil {α : Type} (x : α) (s : State) : choose x [] s = (x, s) := rfl

/-- Storing some of the bytes changes external memory and the counter alone, and every byte reads as before or as one
of the bytes that were to be stored there. -/
theorem scramble_spec (ws : List Host.Cell) (s : State) :
    ∃ m n, scramble ws s = { s with mem := m, freeIx := n } ∧
      (s.mem.wf = true → m.wf = true) ∧
      (∀ c ∈ m, c ∈ ws ∨ c ∈ s.mem) ∧
      (s.mem.wf = true → ∀ a, m.read a = s.mem.read a ∨ (a, m.read a) ∈ ws) := by
  induction ws generalizing s with
  | nil => exact ⟨s.mem, s.freeIx, rfl, id, fun c hc => .inr hc, fun _ a => .inl rfl⟩
  | cons c ws ih =>
    obtain ⟨a, v⟩ := c
    simp only [scramble]
    split_ifs with h
    · obtain ⟨m, n, he, hwf, hmem, hr⟩ := ih { (draw s).2 with mem := (draw s).2.mem.write a v }
      refine ⟨m, n, by rw [he]; rfl, ?_, ?_, ?_⟩
      · intro hs; exact hwf (Memory.wf_write hs _ _)
      · intro c hc
        rcases hmem c hc with hc | hc
        · exact .inl (by simp [hc])
        · rcases Memory.mem_write hc with rfl | hc
          · exact .inl (by simp)
          · exact .inr hc
      · intro hs b
        rcases hr (Memory.wf_write hs _ _) b with hb | hb
        · by_cases hba : b = a
          · subst hba
            have h2 : m.read b = v := by rw [hb]; exact Memory.read_write_same hs b v
            exact .inr (by simp [h2])
          · refine .inl ?_
            rw [hb]
            exact Memory.read_write_ne _ hba
        · exact .inr (by simp [hb])
    · obtain ⟨m, n, he, hwf, hmem, hr⟩ := ih (draw s).2
      refine ⟨m, n, by rw [he]; rfl, hwf, ?_, ?_⟩
      · intro c hc
        rcases hmem c hc with hc | hc
        · exact .inl (by simp [hc])
        · exact .inr hc
      · intro hs b
        rcases hr hs b with hb | hb
        · exact .inl hb
        · exact .inr (by simp [hb])

/-- After a bus error among the stores, only external memory and the counter differ. -/
theorem choose_scramble {α : Type} (a : α) (as : List α) (ws : List Host.Cell) (s : State) :
    ∃ m k, scramble ws (choose a as s).2 = { s with mem := m, freeIx := k } := by
  obtain ⟨n, hn⟩ := choose_state a as s
  obtain ⟨m, k, hm, _⟩ := scramble_spec ws (choose a as s).2
  rw [hn] at hm
  exact ⟨m, k, by rw [hn]; exact hm⟩

/-! ## Completion -/

/-- An error completion writes one code and one information word: ABORTED(0) if an abort is pending, its own
otherwise. -/
theorem raiseError_spec (e : Err) (s : State) :
    ∃ c i, raiseError e s = completeWith c i s ∧
      ((s.pendingAbort = true ∧ c = ErrCode.aborted.code ∧ i = 0) ∨
        (s.pendingAbort = false ∧ c = e.code.code ∧ i = e.info)) := by
  by_cases h : s.pendingAbort = true
  · exact ⟨_, _, by simp [raiseError, h], .inl ⟨h, rfl, rfl⟩⟩
  · have h' : s.pendingAbort = false := by simpa using h
    exact ⟨_, _, by simp [raiseError, h'], .inr ⟨h', rfl, rfl⟩⟩

theorem raiseError_of_not_pending {e : Err} {s : State} (h : s.pendingAbort = false) :
    raiseError e s = completeWith e.code.code e.info s := by
  simp [raiseError, h]

/-- An aborted command's error is ABORTED(0), whichever error it met. -/
theorem raiseError_aborted {e : Err} {s : State} (h : s.pendingAbort = true) :
    raiseError e s = completeWith ErrCode.aborted.code 0 s := by
  simp [raiseError, h]

theorem completeOk_of_not_pending {s : State} (h : s.pendingAbort = false) : completeOk s = completeWith 0 0 s := by
  simp [completeOk, h]

/-- Every completion is `completeWith` of some code and information word. -/
theorem finish_spec (o : StageOut) :
    ∃ c i, (∃ s, o = .ok s ∧ finish o = completeWith c i s) ∨ (∃ e s, o = .err e s ∧ finish o = completeWith c i s) := by
  cases o with
  | ok s =>
    by_cases h : s.pendingAbort = true
    · exact ⟨_, _, .inl ⟨s, rfl, by simp [finish, completeOk, h]; rfl⟩⟩
    · exact ⟨_, _, .inl ⟨s, rfl, by simp [finish, completeOk, h]; rfl⟩⟩
  | err e s =>
    obtain ⟨c, i, h, _⟩ := raiseError_spec e s
    exact ⟨c, i, .inr ⟨e, s, rfl, h⟩⟩

/-- No error has code 0, and none is above 8. -/
theorem ErrCode.code_bounds (c : ErrCode) : c.code ≠ 0 ∧ c.code.toNat ≤ 8 := by cases c <;> decide

/-! ## Checks -/

@[simp] theorem firstFailure_nil : firstFailure [] = none := rfl

theorem firstFailure_cons_true (e : Err) (cs : List (Bool × Err)) : firstFailure ((true, e) :: cs) = some e := rfl

theorem firstFailure_cons_false (e : Err) (cs : List (Bool × Err)) :
    firstFailure ((false, e) :: cs) = firstFailure cs := rfl

/-- The checks pass exactly when none of their conditions holds. -/
theorem firstFailure_eq_none {cs : List (Bool × Err)} : firstFailure cs = none ↔ ∀ c ∈ cs, c.1 = false := by
  induction cs with
  | nil => simp
  | cons c cs ih =>
    obtain ⟨b, e⟩ := c
    cases b <;> simp [firstFailure, ih]

/-- A failing list answers the error of its first failing check. -/
theorem firstFailure_eq_some {cs : List (Bool × Err)} {e : Err} (h : firstFailure cs = some e) :
    ∃ xs ys, cs = xs ++ (true, e) :: ys ∧ ∀ c ∈ xs, c.1 = false := by
  induction cs with
  | nil => simp at h
  | cons c cs ih =>
    obtain ⟨b, e'⟩ := c
    cases b with
    | true =>
      simp only [firstFailure, if_true, Option.some.injEq] at h
      subst h
      exact ⟨[], cs, rfl, by simp⟩
    | false =>
      obtain ⟨xs, ys, rfl, hx⟩ := ih h
      refine ⟨(false, e') :: xs, ys, rfl, ?_⟩
      intro c hc
      rcases List.mem_cons.mp hc with rfl | hc
      · rfl
      · exact hx c hc

end Sys2Proof.Machine
end

