-- ==== Sys2Proof/Laws/Engine.lean ====
section
/-! SUPPORT. The engine once: what no stage changes, how a stage's run comes apart, and what a command ends with. -/

namespace Sys2Proof.Machine

/-- The state a stage writes in is never: the parameters, the host's registers and moves, the snapshot, and the
completion fields, which only acceptance and completion write. -/
structure Kept (s t : State) : Prop where
  par : t.par = s.par
  irqEn : t.irqEn = s.irqEn
  cmd : t.cmd = s.cmd
  cfg : t.cfg = s.cfg
  snap : t.snap = s.snap
  pendingAbort : t.pendingAbort = s.pendingAbort
  stageBefore : t.stageBefore = s.stageBefore
  agenda : t.agenda = s.agenda
  reads : t.reads = s.reads
  readIx : t.readIx = s.readIx
  errInfo : t.errInfo = s.errInfo
  busy : t.status.busy = s.status.busy
  done : t.status.done = s.status.done
  ovr : t.status.ovr = s.status.ovr
  errCode : t.status.errCode = s.status.errCode

theorem Kept.refl (s : State) : Kept s s := by constructor <;> rfl

theorem Kept.trans {s t u : State} (h : Kept s t) (g : Kept t u) : Kept s u :=
  ⟨g.par.trans h.par, g.irqEn.trans h.irqEn, g.cmd.trans h.cmd, g.cfg.trans h.cfg, g.snap.trans h.snap,
    g.pendingAbort.trans h.pendingAbort, g.stageBefore.trans h.stageBefore, g.agenda.trans h.agenda,
    g.reads.trans h.reads, g.readIx.trans h.readIx, g.errInfo.trans h.errInfo, g.busy.trans h.busy, g.done.trans h.done, g.ovr.trans h.ovr,
    g.errCode.trans h.errCode⟩

/-- The state an outcome carries. -/
def StageOut.state : StageOut → State
  | .ok s => s
  | .err _ s => s

theorem kept_startStage (k : StageId) (s : State) : Kept s (startStage k s) := by
  constructor <;> simp

theorem kept_memFree (s : State) (m : Memory) (n : Nat) : Kept s { s with mem := m, freeIx := n } := by
  constructor <;> rfl

theorem kept_choose {α : Type} (x : α) (xs : List α) (s : State) : Kept s (choose x xs s).2 := by
  obtain ⟨n, h⟩ := choose_state x xs s
  rw [h]
  exact kept_memFree s s.mem n

theorem kept_scramble (ws : List Host.Cell) (s : State) : Kept s (scramble ws s) := by
  obtain ⟨m, n, h, _⟩ := scramble_spec ws s
  rw [h]
  exact kept_memFree s m n

/-- A run of the pool changes the pool and the counter of the free values alone. -/
theorem runPool_state (e : QtEnv) (k : Nat) (s : State) : ∃ p n, runPool e k s = { s with pool := p, freeIx := n } := by
  induction k generalizing s with
  | zero => exact ⟨s.pool, s.freeIx, rfl⟩
  | succ k ih =>
    simp only [runPool]
    split
    · exact ⟨s.pool, s.freeIx, rfl⟩
    · rename_i x xs _
      obtain ⟨m, hm⟩ := choose_state x xs s
      obtain ⟨p, n, h⟩ := ih { (choose x xs s).2 with pool := some (choose x xs s).1 }
      exact ⟨p, n, by rw [h, hm]⟩

/-- A started, run and drained pool. -/
theorem drained_state (e : QtEnv) (k : Nat) (s : State) :
    ∃ p n, drainPool (runPool e k (startPool s)) = { s with pool := p, freeIx := n } := by
  obtain ⟨p, n, h⟩ := runPool_state e k (startPool s)
  exact ⟨_, n, by rw [h]; rfl⟩

theorem qtHalt_state (s : State) : ∃ p n, qtHalt s = { s with pool := p, freeIx := n } :=
  drained_state (qtEnv s) (draw s).1 (draw s).2

/-- QT_BUILD's body ends in its success writes or in an error that changes the pool and the counter alone. -/
theorem qtBody_state (s : State) :
    (∃ b n, qtBody s = .ok (qtDone b { s with freeIx := n })) ∨
      ∃ e p n, qtBody s = .err e { s with pool := p, freeIx := n } := by
  simp only [qtBody]
  split
  · obtain ⟨p, n, h⟩ := runPool_state (qtEnv s) (poolMoves s.par) (startPool s)
    generalize runPool (qtEnv s) (poolMoves s.par) (startPool s) = t at h
    subst h
    exact .inl ⟨_, n, rfl⟩
  · rename_i e _
    obtain ⟨p, n, h⟩ := drained_state (qtEnv s) (poolMoves s.par) s
    exact .inr ⟨e, p, n, by rw [h]⟩

theorem kept_poolFree (s : State) (p : Option BuildRun) (n : Nat) : Kept s { s with pool := p, freeIx := n } := by
  constructor <;> rfl

theorem kept_failBus (a : Nat) (as : List Nat) (s : State) : Kept s (failBus a as s).state := kept_choose a as s

theorem kept_storeAll {ws : List Host.Cell} {s : State} {ok : State → State} (h : ∀ t, Kept t (ok t)) :
    Kept s (storeAll ws s ok).state := by
  unfold storeAll
  split
  · exact (kept_memFree s _ s.freeIx).trans (h _)
  · exact (kept_choose _ _ s).trans (kept_scramble _ _)

theorem kept_decodeBody (s : State) : Kept s (decodeBody s).state := by
  unfold decodeBody
  split
  · constructor <;> rfl
  · exact Kept.refl s
  · exact kept_failBus _ _ s

/-- No body of a stage changes what `Kept` names. -/
theorem kept_body (k : StageId) (s : State) : Kept s (k.stage.body s).state := by
  cases k
  case sat =>
    change Kept s (satBody s).state
    unfold satBody
    split
    · constructor <;> rfl
    · exact kept_failBus _ _ s
  case qt =>
    change Kept s (qtBody s).state
    rcases qtBody_state s with ⟨b, n, h⟩ | ⟨e, p, n, h⟩
    · rw [h]; constructor <;> rfl
    · rw [h]; exact kept_poolFree s p n
  case huf =>
    change Kept s (hufBody s).state
    unfold hufBody
    split
    · exact Kept.refl s
    · constructor <;> rfl
  case enc => exact kept_storeAll fun t => by constructor <;> rfl
  case dec => exact kept_decodeBody s
  case recon => exact kept_storeAll fun t => Kept.refl t
  case regionHomog =>
    change Kept s (regionHomogBody s).state
    unfold regionHomogBody
    split
    · constructor <;> rfl
    · exact kept_failBus _ _ s
  all_goals constructor <;> rfl

@[simp] theorem stage_id (k : StageId) : k.stage.id = k := by cases k <;> rfl

/-- A stage's run is an error of its start checks in the state its start leaves, or its body in that state. -/
theorem runStage_cases (k : StageId) (s : State) :
    (∃ e, firstFailure (k.stage.checks (startStage k s)) = some e ∧ runStage k.stage s = .err e (startStage k s)) ∨
      (firstFailure (k.stage.checks (startStage k s)) = none ∧ runStage k.stage s = k.stage.body (startStage k s)) := by
  simp only [runStage, stage_id]
  split
  · rename_i e h; exact .inl ⟨e, h, rfl⟩
  · rename_i h; exact .inr ⟨h, rfl⟩

theorem runStage_of_passes {k : StageId} {s : State} (h : firstFailure (k.stage.checks (startStage k s)) = none) :
    runStage k.stage s = k.stage.body (startStage k s) := by
  rcases runStage_cases k s with ⟨e, he, _⟩ | ⟨_, hr⟩
  · rw [h] at he; exact absurd he (by simp)
  · exact hr

theorem runStage_of_fails {k : StageId} {s : State} {e : Err}
    (h : firstFailure (k.stage.checks (startStage k s)) = some e) : runStage k.stage s = .err e (startStage k s) := by
  rcases runStage_cases k s with ⟨e', he, hr⟩ | ⟨hn, _⟩
  · rw [h] at he; cases he; exact hr
  · rw [h] at hn; exact absurd hn (by simp)

theorem kept_runStage (k : StageId) (s : State) : Kept s (runStage k.stage s).state := by
  rcases runStage_cases k s with ⟨e, _, h⟩ | ⟨_, h⟩
  · rw [h]; exact kept_startStage k s
  · rw [h]; exact (kept_startStage k s).trans (kept_body k _)

theorem runStages_cons (k : Stage) (ks : List Stage) (s : State) :
    runStages (k :: ks) s = match runStage k s with
      | .ok s' => runStages ks s'
      | .err e s' => .err e s' := rfl

@[simp] theorem runStages_nil (s : State) : runStages [] s = .ok s := rfl

theorem runStages_singleton (k : Stage) (s : State) : runStages [k] s = runStage k s := by
  simp only [runStages]
  split <;> simp_all

theorem kept_runStages (ks : List StageId) (s : State) : Kept s (runStages (ks.map StageId.stage) s).state := by
  induction ks generalizing s with
  | nil => exact Kept.refl s
  | cons k ks ih =>
    have h := kept_runStage k s
    rw [List.map_cons, runStages_cons]
    split
    · rename_i s' he; rw [he] at h; exact h.trans (ih s')
    · rename_i e s' he; rw [he] at h; exact h

theorem kept_stopPoints {ks : List StageId} {s : State} {p : Stage × State}
    (h : p ∈ stopPoints (ks.map StageId.stage) s) : Kept s p.2 := by
  induction ks generalizing s with
  | nil => simp [stopPoints] at h
  | cons k ks ih =>
    rw [List.map_cons, stopPoints, List.mem_cons] at h
    rcases h with rfl | h
    · simpa using kept_startStage k s
    · have hk := kept_runStage k s
      split at h
      · rename_i s' he; rw [he] at hk; exact hk.trans (ih h)
      · simp at h

/-- Stopping a stage inside its body changes the pool and the counter of the free values alone. -/
theorem halt_state (k : StageId) (s : State) : ∃ p n, k.stage.halt s = { s with pool := p, freeIx := n } := by
  cases k
  case qt => exact qtHalt_state s
  all_goals exact ⟨s.pool, s.freeIx, rfl⟩

/-- The stages of a command's stop points are stages of its plan, each in the state its start left. -/
theorem stage_of_stopPoints {ks : List StageId} {s : State} {p : Stage × State}
    (h : p ∈ stopPoints (ks.map StageId.stage) s) : ∃ k ∈ ks, ∃ t, Kept s t ∧ p = (k.stage, startStage k t) := by
  induction ks generalizing s with
  | nil => simp [stopPoints] at h
  | cons k ks ih =>
    simp only [List.map_cons, stopPoints, List.mem_cons, stage_id] at h
    rcases h with rfl | h
    · exact ⟨k, by simp, s, Kept.refl s, rfl⟩
    · have hk := kept_runStage k s
      split at h
      · rename_i s' he
        rw [he] at hk
        obtain ⟨j, hj, t, ht, rfl⟩ := ih h
        exact ⟨j, by simp [hj], t, hk.trans ht, rfl⟩
      · simp at h

/-- A stage that is stopped leaves its start's state, with some of its destination bytes stored. -/
theorem stoppedAt_spec (k : StageId) (s : State) :
    ∃ p n, stoppedAt (k.stage, s) = scramble (pendingWrites (k.stage, s)) { s with pool := p, freeIx := n } := by
  simp only [stoppedAt]
  split
  · obtain ⟨p, n, h⟩ := halt_state k s
    exact ⟨p, n, by rw [h]⟩
  · exact ⟨s.pool, s.freeIx, rfl⟩

/-- An aborted command completes with ABORTED(0): at once if it has no stage, else in a stage that has started, with some
of that stage's destination bytes stored. -/
theorem abortRun_spec (ks : List StageId) {s : State} (h : s.pendingAbort = true) :
    ∃ t, abortRun (ks.map StageId.stage) s = completeWith ErrCode.aborted.code 0 t ∧ Kept s t ∧
      (ks = [] ∧ t = s ∨
        ∃ q ∈ stopPoints (ks.map StageId.stage) (draw s).2, ∃ p n,
          t = scramble (pendingWrites q) { q.2 with pool := p, freeIx := n }) := by
  cases ks with
  | nil => exact ⟨s, raiseError_aborted h, Kept.refl s, .inl ⟨rfl, rfl⟩⟩
  | cons k ks =>
    have hne : ∃ q qs, stopPoints ((k :: ks).map StageId.stage) (draw s).2 = q :: qs := ⟨_, _, rfl⟩
    obtain ⟨q0, qs, hs⟩ := hne
    have hm := pick_mem q0 qs (draw s).1
    rw [← hs] at hm
    obtain ⟨j, _, u, hu, hj⟩ := stage_of_stopPoints hm
    obtain ⟨p, n, hp⟩ := stoppedAt_spec j (startStage j u)
    have hk : Kept s (stoppedAt (pick q0 qs (draw s).1)) := by
      rw [hj, hp]
      exact ((((kept_memFree s s.mem (s.freeIx + 1)).trans hu).trans (kept_startStage j u)).trans
        (kept_poolFree _ p n)).trans (kept_scramble _ _)
    refine ⟨_, ?_, hk, .inr ⟨_, hm, p, n, ?_⟩⟩
    · simp only [abortRun, hs]
      exact raiseError_aborted (hk.pendingAbort.trans h)
    · rw [hj, hp]

/-- Every command ends with one completion, in a state that keeps what no stage changes. -/
theorem runCommand_spec (ks : List StageId) (s : State) :
    ∃ c i t, runCommand (ks.map StageId.stage) s = completeWith c i t ∧ Kept s t := by
  unfold runCommand
  split
  · rename_i h
    obtain ⟨t, ht, hk, _⟩ := abortRun_spec ks h
    exact ⟨_, _, t, ht, hk⟩
  · have hk := kept_runStages ks s
    obtain ⟨c, i, ⟨t, ho, hf⟩ | ⟨e, t, ho, hf⟩⟩ := finish_spec (runStages (ks.map StageId.stage) s)
    · rw [ho] at hk; exact ⟨c, i, t, hf, hk⟩
    · rw [ho] at hk; exact ⟨c, i, t, hf, hk⟩

theorem runCommand_of_not_pending {ks : List Stage} {s : State} (h : s.pendingAbort = false) :
    runCommand ks s = finish (runStages ks s) := by
  simp [runCommand, h]

/-- A command that is not aborted and whose stages succeed completes with success in the state they leave. -/
theorem runCommand_ok {ks : List StageId} {s t : State} (h : s.pendingAbort = false)
    (hr : runStages (ks.map StageId.stage) s = .ok t) : runCommand (ks.map StageId.stage) s = completeWith 0 0 t := by
  have hk := kept_runStages ks s
  rw [hr] at hk
  rw [runCommand_of_not_pending h, hr]
  exact completeOk_of_not_pending (hk.pendingAbort.trans h)

/-- A command that is not aborted and one of whose stages fails completes with that error. -/
theorem runCommand_err {ks : List StageId} {s t : State} {e : Err} (h : s.pendingAbort = false)
    (hr : runStages (ks.map StageId.stage) s = .err e t) :
    runCommand (ks.map StageId.stage) s = completeWith e.code.code e.info t := by
  have hk := kept_runStages ks s
  rw [hr] at hk
  rw [runCommand_of_not_pending h, hr]
  exact raiseError_of_not_pending (hk.pendingAbort.trans h)

/-- The stages of the meanings, as the plan of R92 names them. -/
theorem exec_plan_stages :
    (plan .compress).map StageId.stage = [satStage, qtStage, hufStage, encStage] ∧
      (plan .decompress).map StageId.stage = [decStage, reconStage] := ⟨rfl, rfl⟩

end Sys2Proof.Machine
end

