-- ==== Sys2Proof/Laws/Exec.lean ====
section
/-! SUPPORT. The commands that run stages, once: `exec` is the run of the command's plan, and a command of one stage
ends by its first failing check, by its body's error or by its body's success. -/

namespace Sys2Proof.Machine

/-- Every command but ABORT and SOFT_RESET is the run of its plan (spec/30_encoding.md R92). -/
theorem exec_eq_runCommand {i : Instr} (ha : i ≠ .abort) (hs : i ≠ .softReset) (s : State) :
    exec i s = .next (runCommand ((plan i).map StageId.stage) s) := by
  cases i <;> first | rfl | exact absurd rfl ha | exact absurd rfl hs

/-- A command of one stage whose check fails completes with that check's error (spec/60_exceptions.md R284, R286). -/
theorem exec_single_fails {i : Instr} {k : StageId} (hp : plan i = [k]) {s : State} (h : s.pendingAbort = false) {e : Err}
    (hc : firstFailure (k.stage.checks (startStage k s)) = some e) :
    exec i s = .next (completeWith e.code.code e.info (startStage k s)) := by
  have hi : i ≠ .abort ∧ i ≠ .softReset := by cases i <;> simp_all [plan]
  rw [exec_eq_runCommand hi.1 hi.2, hp]
  congr 1
  refine runCommand_err h ?_
  rw [List.map_singleton, runStages_singleton]
  exact runStage_of_fails hc

/-- A command of one stage whose body succeeds completes with success in the state the body leaves (R287). -/
theorem exec_single_ok {i : Instr} {k : StageId} (hp : plan i = [k]) {s t : State} (h : s.pendingAbort = false)
    (hc : firstFailure (k.stage.checks (startStage k s)) = none) (hb : k.stage.body (startStage k s) = .ok t) :
    exec i s = .next (completeWith 0 0 t) := by
  have hi : i ≠ .abort ∧ i ≠ .softReset := by cases i <;> simp_all [plan]
  rw [exec_eq_runCommand hi.1 hi.2, hp]
  congr 1
  refine runCommand_ok h ?_
  rw [List.map_singleton, runStages_singleton, runStage_of_passes hc, hb]

/-- A command of one stage whose body fails completes with that error (R286). -/
theorem exec_single_err {i : Instr} {k : StageId} (hp : plan i = [k]) {s t : State} {e : Err} (h : s.pendingAbort = false)
    (hc : firstFailure (k.stage.checks (startStage k s)) = none) (hb : k.stage.body (startStage k s) = .err e t) :
    exec i s = .next (completeWith e.code.code e.info t) := by
  have hi : i ≠ .abort ∧ i ≠ .softReset := by cases i <;> simp_all [plan]
  rw [exec_eq_runCommand hi.1 hi.2, hp]
  congr 1
  refine runCommand_err h ?_
  rw [List.map_singleton, runStages_singleton, runStage_of_passes hc, hb]

end Sys2Proof.Machine
end

