-- ==== Sys2Proof/Laws/Outer.lean ====
section
/-! SUPPORT. The engine does not see the fields that only the host, acceptance and completion write: a stage run after such
fields have changed does what it would have done, with the fields changed (spec/60_exceptions.md R283,
spec/10_state.md R44). -/

namespace Sys2Proof.Machine

/-- The fields no stage reads. -/
structure Outer where
  irqEn : Bool
  busy : Bool
  done : Bool
  ovr : Bool
  errCode : BitVec 8
  cmd : Word
  cfg : Operands
  errInfo : Word
  pendingAbort : Bool
  stageBefore : BitVec 4
  agenda : List Event
  reads : List Word
  readIx : Nat
deriving DecidableEq, Repr

/-- `s` with those fields replaced. -/
def Outer.set (o : Outer) (s : State) : State :=
  { s with
    irqEn := o.irqEn
    status := { s.status with busy := o.busy, done := o.done, ovr := o.ovr, errCode := o.errCode }
    cmd := o.cmd
    cfg := o.cfg
    errInfo := o.errInfo
    pendingAbort := o.pendingAbort
    stageBefore := o.stageBefore
    agenda := o.agenda
    reads := o.reads
    readIx := o.readIx }

/-- Those fields of `s`. -/
def Outer.of (s : State) : Outer :=
  ⟨s.irqEn, s.status.busy, s.status.done, s.status.ovr, s.status.errCode, s.cmd, s.cfg, s.errInfo, s.pendingAbort,
    s.stageBefore, s.agenda, s.reads, s.readIx⟩

/-- An outcome with its state changed. -/
def StageOut.map (f : State → State) : StageOut → StageOut
  | .ok s => .ok (f s)
  | .err e s => .err e (f s)

/-- `s` without the in-flight state of a stage. -/
def discard (s : State) : State := { s with cursor := 0, trie := [], pool := none }

/-- A completion discards the in-flight state and replaces outer fields. -/
theorem completeWith_eq_set (c : BitVec 8) (i : Word) (s : State) :
    completeWith c i s =
      { Outer.of s with errInfo := i, errCode := c, busy := false, done := true, pendingAbort := false }.set
        (discard s) := rfl

/-- No stage starts from what an earlier stage had in flight, and a completion leaves nothing of it. -/
theorem startStage_discard (k : StageId) (s : State) : startStage k (discard s) = startStage k s := by cases k <;> rfl

theorem runStage_discard (k : StageId) (s : State) : runStage k.stage (discard s) = runStage k.stage s := by
  simp only [runStage, stage_id, startStage_discard]

theorem completeWith_discard (c : BitVec 8) (i : Word) (s : State) : completeWith c i (discard s) = completeWith c i s :=
  rfl

theorem runPool_set (o : Outer) (e : QtEnv) (n : Nat) (s : State) : runPool e n (o.set s) = o.set (runPool e n s) := by
  induction n generalizing s with
  | zero => rfl
  | succ n ih =>
    simp only [runPool]
    change (match s.build.nexts e with | [] => o.set s | x :: xs => _) = _
    cases s.build.nexts e with
    | nil => rfl
    | cons x xs =>
      cases xs with
      | nil => exact ih { s with pool := some x }
      | cons y ys => exact ih { (draw s).2 with pool := some (pick x (y :: ys) (draw s).1) }

/-- Equal completions stay equal when outer fields are replaced before them. -/
theorem completeWith_set (o : Outer) {c : BitVec 8} {i : Word} {s t : State}
    (h : completeWith c i s = completeWith c i t) : completeWith c i (o.set s) = completeWith c i (o.set t) := by
  have := congrArg (fun u : State => { u with
    irqEn := o.irqEn, cmd := o.cmd, cfg := o.cfg, stageBefore := o.stageBefore, agenda := o.agenda, reads := o.reads
    readIx := o.readIx, status := { u.status with ovr := o.ovr } }) h
  exact this

theorem choose_set {α : Type} (o : Outer) (x : α) (xs : List α) (s : State) :
    choose x xs (o.set s) = ((choose x xs s).1, o.set (choose x xs s).2) := by cases xs <;> rfl

theorem scramble_set (o : Outer) (ws : List Host.Cell) (s : State) : scramble ws (o.set s) = o.set (scramble ws s) := by
  induction ws generalizing s with
  | nil => rfl
  | cons c ws ih =>
    obtain ⟨a, v⟩ := c
    simp only [scramble]
    by_cases h : (draw s).1 % 2 = 1
    · rw [if_pos h, if_pos (by exact h)]
      exact ih { (draw s).2 with mem := (draw s).2.mem.write a v }
    · rw [if_neg h, if_neg (by exact h)]
      exact ih (draw s).2

theorem failBus_set (o : Outer) (a : Nat) (as : List Nat) (s : State) :
    failBus a as (o.set s) = (failBus a as s).map o.set := by
  simp only [failBus, choose_set, StageOut.map]

theorem storeAll_set (o : Outer) (ws : List Host.Cell) (s : State) {ok : State → State}
    (h : ∀ t, ok (o.set t) = o.set (ok t)) : storeAll ws (o.set s) ok = (storeAll ws s ok).map o.set := by
  unfold storeAll
  change (match busErrors s.par .write (ws.map (·.1)) with | [] => _ | a :: as => _) = _
  split
  · rename_i he
    try simp only [he]
    exact congrArg StageOut.ok (h { s with mem := s.mem.writeAll ws })
  · rename_i he
    try simp only [he]
    simp only [choose_set, scramble_set, StageOut.map]

theorem startStage_set (o : Outer) (k : StageId) (s : State) : startStage k (o.set s) = o.set (startStage k s) := by
  cases k <;> rfl

theorem checks_set (o : Outer) (k : StageId) (s : State) : k.stage.checks (o.set s) = k.stage.checks s := by
  cases k <;> rfl

theorem body_set (o : Outer) (k : StageId) (s : State) : k.stage.body (o.set s) = (k.stage.body s).map o.set := by
  cases k
  case sat =>
    change satBody (o.set s) = (satBody s).map o.set
    unfold satBody
    change (match busErrors s.par .read (imageAddrs s.snap) with | [] => _ | a :: as => _) = _
    split
    · rename_i he
      try simp only [he]
      rfl
    · rename_i he
      try simp only [he]
      exact failBus_set o _ _ s
  case qt =>
    have h : runPool (qtEnv (o.set s)) (poolMoves (o.set s).par) (startPool (o.set s)) =
        o.set (runPool (qtEnv s) (poolMoves s.par) (startPool s)) := runPool_set o _ _ (startPool s)
    change qtBody (o.set s) = (qtBody s).map o.set
    simp only [qtBody, h]
    change (match (runPool (qtEnv s) (poolMoves s.par) (startPool s)).build.failure with
      | none => _ | some e => _) = _
    cases (runPool (qtEnv s) (poolMoves s.par) (startPool s)).build.failure <;> rfl
  case huf =>
    change hufBody (o.set s) = (hufBody s).map o.set
    unfold hufBody
    change (if s.par.maxCodeLen < maxCodeLen (withCodes s.syms) then _ else _) = _
    by_cases hl : s.par.maxCodeLen < maxCodeLen (withCodes s.syms)
    · rw [if_pos hl, if_pos hl]
      rfl
    · rw [if_neg hl, if_neg hl]
      rfl
  case enc => exact storeAll_set o _ s fun t => rfl
  case dec =>
    change decodeBody (o.set s) = (decodeBody s).map o.set
    unfold decodeBody
    change (match (decEnv s).decodeAll with | .ok d => _ | .error (.err e) => _ | .error (.bus k) => _) = _
    split
    · rename_i he
      try simp only [he]
      rfl
    · rename_i he
      try simp only [he]
      rfl
    · rename_i he
      try simp only [he]
      exact failBus_set o _ _ s
  case recon => exact storeAll_set o _ s fun t => rfl
  case regionHomog =>
    change regionHomogBody (o.set s) = (regionHomogBody s).map o.set
    unfold regionHomogBody
    change (match busErrors s.par .read (pixelAddrs s.snap.pixBase.toNat s.snap.imgW.toNat (queryRect s.snap)) with
      | [] => _ | a :: as => _) = _
    split
    · rename_i he
      try simp only [he]
      rfl
    · rename_i he
      try simp only [he]
      exact failBus_set o _ _ s
  all_goals rfl

/-- A stage does not see the outer fields. -/
theorem runStage_set (o : Outer) (k : StageId) (s : State) :
    runStage k.stage (o.set s) = (runStage k.stage s).map o.set := by
  simp only [runStage, stage_id, startStage_set, checks_set, body_set]
  split <;> rfl

theorem runStages_set (o : Outer) (ks : List StageId) (s : State) :
    runStages (ks.map StageId.stage) (o.set s) = (runStages (ks.map StageId.stage) s).map o.set := by
  induction ks generalizing s with
  | nil => rfl
  | cons k ks ih =>
    simp only [List.map_cons, runStages_cons, runStage_set]
    cases runStage k.stage s with
    | ok t => exact ih t
    | err e t => rfl

theorem stopPoints_set (o : Outer) (ks : List StageId) (s : State) :
    stopPoints (ks.map StageId.stage) (o.set s) =
      (stopPoints (ks.map StageId.stage) s).map fun p => (p.1, o.set p.2) := by
  induction ks generalizing s with
  | nil => rfl
  | cons k ks ih =>
    simp only [List.map_cons, stopPoints, stage_id, startStage_set, runStage_set]
    cases runStage k.stage s with
    | ok t => simp only [StageOut.map, ih]
    | err e t => rfl

theorem pendingWrites_set (o : Outer) (k : StageId) (s : State) :
    pendingWrites (k.stage, o.set s) = pendingWrites (k.stage, s) := by
  simp only [pendingWrites, checks_set]
  cases k <;> rfl

theorem stoppedAt_set (o : Outer) (k : StageId) (s : State) :
    stoppedAt (k.stage, o.set s) = o.set (stoppedAt (k.stage, s)) := by
  have hh : k.stage.halt (o.set s) = o.set (k.stage.halt s) := by
    cases k
    case qt => exact congrArg drainPool (runPool_set o _ _ (startPool (draw s).2))
    all_goals rfl
  simp only [stoppedAt, pendingWrites_set, checks_set]
  split
  · rw [hh, scramble_set]
  · rw [scramble_set]

/-- A command does not see the outer fields: it ends with the same completion, in the state it would have ended in with
those fields changed. -/
theorem runCommand_set (o : Outer) (ks : List StageId) (s : State) (hp : o.pendingAbort = s.pendingAbort) :
    ∃ c i t, Kept s t ∧ runCommand (ks.map StageId.stage) s = completeWith c i t ∧
      runCommand (ks.map StageId.stage) (o.set s) = completeWith c i (o.set t) := by
  by_cases h : s.pendingAbort = true
  · have ho : (o.set s).pendingAbort = true := hp.trans h
    obtain ⟨t, ht, hk, _⟩ := abortRun_spec ks h
    refine ⟨ErrCode.aborted.code, 0, t, hk, by rw [runCommand, if_pos h, ht], ?_⟩
    rw [runCommand, if_pos ho]
    cases ks with
    | nil =>
      have ht' : completeWith ErrCode.aborted.code 0 s = completeWith ErrCode.aborted.code 0 t := by
        rw [← ht]; exact (raiseError_aborted h).symm
      change raiseError ⟨.aborted, 0⟩ (o.set s) = _
      rw [raiseError_aborted ho]
      exact completeWith_set o ht'
    | cons k ks =>
      obtain ⟨q0, qs, hs⟩ : ∃ q qs, stopPoints ((k :: ks).map StageId.stage) (draw s).2 = q :: qs := ⟨_, _, rfl⟩
      have hm := pick_mem q0 qs (draw s).1
      rw [← hs] at hm
      obtain ⟨j, _, u, hu, hj⟩ := stage_of_stopPoints hm
      have hso : stopPoints ((k :: ks).map StageId.stage) (o.set (draw s).2) =
          (q0.1, o.set q0.2) :: qs.map fun p => (p.1, o.set p.2) := by rw [stopPoints_set, hs]; rfl
      have ht' : completeWith ErrCode.aborted.code 0 (stoppedAt (j.stage, startStage j u)) =
          completeWith ErrCode.aborted.code 0 t := by
        rw [← ht]
        simp only [abortRun, hs, hj]
        refine (raiseError_aborted ?_).symm
        obtain ⟨p, n, hpn⟩ := stoppedAt_spec j (startStage j u)
        rw [hpn]
        exact ((((kept_memFree s s.mem (s.freeIx + 1)).trans hu).trans (kept_startStage j u)).trans
          (kept_poolFree _ p n)).trans (kept_scramble _ _) |>.pendingAbort.trans h
      have hab : abortRun ((k :: ks).map StageId.stage) (o.set s) =
          raiseError ⟨.aborted, 0⟩ (o.set (stoppedAt (j.stage, startStage j u))) := by
        simp only [abortRun]
        rw [show (draw (o.set s)).2 = o.set (draw s).2 from rfl, hso]
        change raiseError _ (stoppedAt (pick _ _ (draw s).1)) = _
        rw [pick_map (fun p : Stage × State => (p.1, o.set p.2)) q0 qs, hj, stoppedAt_set]
      rw [hab]
      exact (raiseError_aborted (s := o.set (stoppedAt (j.stage, startStage j u))) ho).trans (completeWith_set o ht')
  · have h' : s.pendingAbort = false := by simpa using h
    have hk := kept_runStages ks s
    rw [runCommand_of_not_pending h', runCommand_of_not_pending (hp.trans h'), runStages_set]
    cases hr : runStages (ks.map StageId.stage) s with
    | ok t =>
      rw [hr] at hk
      exact ⟨0, 0, t, hk, completeOk_of_not_pending (hk.pendingAbort.trans h'), completeOk_of_not_pending (hp.trans h')⟩
    | err e t =>
      rw [hr] at hk
      exact ⟨_, _, t, hk, raiseError_of_not_pending (hk.pendingAbort.trans h'), raiseError_of_not_pending (hp.trans h')⟩

theorem runStages_discard (ks : List StageId) (s : State) (h : ks ≠ []) :
    runStages (ks.map StageId.stage) (discard s) = runStages (ks.map StageId.stage) s := by
  cases ks with
  | nil => exact absurd rfl h
  | cons k ks => simp only [List.map_cons, runStages_cons, runStage_discard]

/-- A command that starts in a state another command's completion has left does what it would have done before it. -/
theorem runCommand_completeWith (ks : List StageId) (c : BitVec 8) (i : Word) {s : State} (h : s.pendingAbort = false) :
    runCommand (ks.map StageId.stage) (completeWith c i s) = runCommand (ks.map StageId.stage) s := by
  obtain ⟨c', i', t, hk, e1, e2⟩ := runCommand_set
    { Outer.of s with errInfo := i, errCode := c, busy := false, done := true, pendingAbort := false } ks (discard s)
    h.symm
  have hd : runCommand (ks.map StageId.stage) (discard s) = runCommand (ks.map StageId.stage) s := by
    rw [runCommand_of_not_pending h, runCommand_of_not_pending (s := discard s) h]
    cases ks with
    | nil => exact (completeOk_of_not_pending (s := discard s) h).trans (completeOk_of_not_pending h).symm
    | cons k ks => rw [runStages_discard _ _ (by simp)]
  rw [completeWith_eq_set, ← hd, e1, e2]
  simp only [completeWith, Outer.set, Outer.of, hk.irqEn, hk.cmd, hk.cfg, hk.stageBefore, hk.agenda, hk.reads, hk.readIx,
    hk.ovr, discard]

end Sys2Proof.Machine
end

