-- ==== Sys2Proof/Laws/Bus.lean ====
section
/-! SUPPORT. The bus once: which register an address reaches, what one step does with each event, and what a host write
to a register other than STATUS and CMD changes. -/

namespace Sys2Proof.Machine

/-- A register's own address reaches it (spec/10_state.md R20). -/
theorem target_regAddress (p : Params) (r : Reg) : target p (regAddress p r) 4 = .reg r := by
  have h : r.offset < 4096 ∧ r.offset % 4 = 0 ∧ Reg.ofOffset r.offset = some r := by cases r <;> decide
  unfold target regAddress
  rw [if_neg (by omega), Nat.add_sub_cancel_left, if_neg (by omega), h.2.2]

/-- With an event next on the agenda, a step is that event's handling on the rest (spec/00_scope.md R12). -/
theorem step_cons {s : State} {e : Event} {rest : List Event} (h : s.agenda = e :: rest) :
    step s = react e (s.withRest rest) := by
  have hp : s.pop = s.withRest rest := by simp [State.pop, State.withRest, h]
  unfold step
  rw [h, hp]

/-- A host write to a register other than CMD. -/
theorem step_write {s : State} {r : Reg} {v : Word} {rest : List Event} (hr : r ≠ .cmd)
    (h : s.agenda = .write (regAddress s.par r) 4 v :: rest) : step s = .next (regWrite r v (s.withRest rest)) := by
  rw [step_cons h]
  simp only [react, hostWrite]
  rw [show (s.withRest rest).par = s.par from rfl, target_regAddress]
  cases r <;> first | rfl | exact absurd rfl hr

/-- A host write to CMD. -/
theorem step_write_cmd {s : State} {v : Word} {rest : List Event}
    (h : s.agenda = .write (regAddress s.par .cmd) 4 v :: rest) : step s = commandWrite v (s.withRest rest) := by
  rw [step_cons h]
  simp only [react, hostWrite]
  rw [show (s.withRest rest).par = s.par from rfl, target_regAddress]

/-- A host read of a register. -/
theorem step_read {s : State} {r : Reg} {rest : List Event} (h : s.agenda = .read (regAddress s.par r) 4 :: rest) :
    step s = .next (record (hostRegRead r (s.withRest rest)).1 (hostRegRead r (s.withRest rest)).2) := by
  rw [step_cons h]
  simp only [react, hostRead]
  rw [show (s.withRest rest).par = s.par from rfl, target_regAddress]

/-- A write to a register other than STATUS sets CTRL.IRQ_EN and the configuration to values that depend on those two
alone (spec/10_state.md R22, R44, R46). -/
theorem regWrite_frame {r : Reg} (v : Word) (s : State) (h : r ≠ .status) :
    ∃ b o, ∀ t : State, t.irqEn = s.irqEn → t.cfg = s.cfg → regWrite r v t = { t with irqEn := b, cfg := o } := by
  cases r <;> first
    | exact absurd rfl h
    | exact ⟨v.getLsbD 0, s.cfg, fun t _ h2 => by rw [← h2]; rfl⟩
    | exact ⟨s.irqEn, cfgWrite _ v s.cfg, fun t h1 h2 => by simp only [regWrite]; rw [← h1, ← h2]⟩

/-- No read of a register changes anything but the reads' supply of free values (spec/70_reset_and_hazards.md R325). -/
theorem hostRegRead_state (r : Reg) (s : State) : ∃ n, (hostRegRead r s).2 = { s with readIx := n } := by
  unfold hostRegRead
  split
  · exact chooseRead_state _ _ s
  · exact ⟨s.readIx, rfl⟩

/-- A turn of the WAIT loop records a value, draws for the read alone, and while BUSY puts the engine's turn and itself next
(spec/30_encoding.md R96). -/
theorem hostWait_state (s : State) :
    ∃ v n, hostWait s = .next { s with
      agenda := if s.status.busy then .engine :: .wait :: s.agenda else s.agenda
      reads := v :: s.reads
      readIx := n } := by
  unfold hostWait
  split_ifs
  · obtain ⟨n, hn⟩ := hostRegRead_state .status { s with agenda := .engine :: .wait :: s.agenda }
    exact ⟨_, n, congrArg (fun t => Host.Outcome.next (record _ t)) hn⟩
  · obtain ⟨n, hn⟩ := hostRegRead_state .status s
    exact ⟨_, n, congrArg (fun t => Host.Outcome.next (record _ t)) hn⟩

end Sys2Proof.Machine
end

