-- ==== Sys2Proof/Laws/Frame.lean ====
section
/-! SUPPORT. External memory under a command: outside the bytes its stages may store nothing changes, whichever way it
ends (spec/20_memory.md R64, R67, R73). -/

namespace Sys2Proof.Machine

/-- Memory `m` comes from memory `n` by storing some of the bytes `ws`. -/
structure StoredFrom (ws : List Host.Cell) (n m : Memory) : Prop where
  wf : n.wf = true → m.wf = true
  mem : ∀ c ∈ m, c ∈ ws ∨ c ∈ n
  read : n.wf = true → ∀ a, (∀ c ∈ ws, c.1 ≠ a) → m.read a = n.read a

theorem StoredFrom.refl (ws : List Host.Cell) (m : Memory) : StoredFrom ws m m :=
  ⟨id, fun _ h => .inr h, fun _ _ _ => rfl⟩

theorem StoredFrom.mono {ws vs : List Host.Cell} {n m : Memory} (h : StoredFrom ws n m) (hs : ∀ c ∈ ws, c ∈ vs) :
    StoredFrom vs n m :=
  ⟨h.wf, fun c hc => (h.mem c hc).imp (hs c) id, fun hw a ha => h.read hw a fun c hc => ha c (hs c hc)⟩

theorem StoredFrom.trans {ws : List Host.Cell} {n m k : Memory} (h : StoredFrom ws n m) (g : StoredFrom ws m k) :
    StoredFrom ws n k :=
  ⟨fun hw => g.wf (h.wf hw), fun c hc => (g.mem c hc).elim .inl fun hm => h.mem c hm,
    fun hw a ha => (g.read (h.wf hw) a ha).trans (h.read hw a ha)⟩

theorem storedFrom_writeAll (ws : List Host.Cell) (m : Memory) : StoredFrom ws m (m.writeAll ws) :=
  ⟨fun h => Memory.wf_writeAll h ws, fun _ h => Memory.mem_writeAll h, fun _ _ h => Memory.read_writeAll_ne h⟩

theorem storedFrom_scramble (ws : List Host.Cell) (s : State) : StoredFrom ws s.mem (scramble ws s).mem := by
  obtain ⟨m, n, h, h1, h2, h3⟩ := scramble_spec ws s
  rw [h]
  refine ⟨h1, h2, fun hw a ha => ?_⟩
  rcases h3 hw a with h | h
  · exact h
  · exact absurd rfl (ha _ h)

theorem choose_mem_field {α : Type} (x : α) (xs : List α) (s : State) : (choose x xs s).2.mem = s.mem := by
  obtain ⟨n, h⟩ := choose_state x xs s
  rw [h]

theorem storedFrom_storeAll (ws : List Host.Cell) (s : State) (ok : State → State) (hok : ∀ t, (ok t).mem = t.mem) :
    StoredFrom ws s.mem (storeAll ws s ok).state.mem := by
  unfold storeAll
  split
  · simp only [StageOut.state, hok]
    exact storedFrom_writeAll ws s.mem
  · rename_i a as _
    have h := storedFrom_scramble ws (choose a as s).2
    rw [choose_mem_field] at h
    exact h

/-- A stage's body stores no byte but those its `writes` name. -/
theorem storedFrom_body (k : StageId) (s : State) : StoredFrom (k.stage.writes s) s.mem (k.stage.body s).state.mem := by
  cases k
  case sat =>
    change StoredFrom _ s.mem (satBody s).state.mem
    unfold satBody
    split
    · exact .refl _ _
    · simp only [failBus, StageOut.state, choose_mem_field]; exact .refl _ _
  case qt =>
    change StoredFrom _ s.mem (qtBody s).state.mem
    rcases qtBody_state s with ⟨b, n, h⟩ | ⟨e, p, n, h⟩ <;> rw [h] <;> exact .refl _ _
  case huf =>
    change StoredFrom _ s.mem (hufBody s).state.mem
    unfold hufBody
    split <;> exact .refl _ _
  case enc => exact storedFrom_storeAll _ _ _ fun _ => rfl
  case dec =>
    change StoredFrom _ s.mem (decodeBody s).state.mem
    unfold decodeBody
    split
    · exact .refl _ _
    · exact .refl _ _
    · simp only [failBus, StageOut.state, choose_mem_field]; exact .refl _ _
  case recon => exact storedFrom_storeAll _ _ _ fun _ => rfl
  case regionHomog =>
    change StoredFrom _ s.mem (regionHomogBody s).state.mem
    unfold regionHomogBody
    split
    · exact .refl _ _
    · simp only [failBus, StageOut.state, choose_mem_field]; exact .refl _ _
  all_goals exact .refl _ _

theorem storedFrom_runStage (k : StageId) (s : State) :
    StoredFrom (pendingWrites (k.stage, startStage k s)) s.mem (runStage k.stage s).state.mem := by
  rcases runStage_cases k s with ⟨e, h, hr⟩ | ⟨h, hr⟩
  · rw [hr]
    simp only [StageOut.state, startStage_mem]
    exact .refl _ _
  · rw [hr]
    have := storedFrom_body k (startStage k s)
    rw [startStage_mem] at this
    simpa [pendingWrites, h] using this

/-- The bytes a command may store. -/
def commandStores (ks : List Stage) (s : State) : List Host.Cell := (stopPoints ks s).flatMap pendingWrites

theorem commandStores_cons (k : StageId) (ks : List StageId) (s : State) :
    commandStores (StageId.stage k :: ks.map StageId.stage) s =
      pendingWrites (k.stage, startStage k s) ++
        (match runStage k.stage s with
        | .ok s' => commandStores (ks.map StageId.stage) s'
        | .err _ _ => []) := by
  unfold commandStores
  rw [stopPoints, stage_id, List.flatMap_cons]
  congr 1
  split <;> simp_all

theorem storedFrom_runStages (ks : List StageId) (s : State) :
    StoredFrom (commandStores (ks.map StageId.stage) s) s.mem (runStages (ks.map StageId.stage) s).state.mem := by
  induction ks generalizing s with
  | nil => exact .refl _ _
  | cons k ks ih =>
    have h := storedFrom_runStage k s
    rw [List.map_cons, commandStores_cons, runStages_cons]
    cases hr : runStage k.stage s with
    | ok s' =>
      rw [hr] at h
      exact (h.mono fun c hc => by simp [hc]).trans ((ih s').mono fun c hc => by simp [hc])
    | err e s' =>
      rw [hr] at h
      exact h.mono fun c hc => by simp [hc]

theorem storedFrom_stopPoints (ks : List StageId) (s : State) :
    ∀ q ∈ stopPoints (ks.map StageId.stage) s, StoredFrom (commandStores (ks.map StageId.stage) s) s.mem q.2.mem := by
  induction ks generalizing s with
  | nil => intro q hq; simp [stopPoints] at hq
  | cons k ks ih =>
    intro q hq
    have h := storedFrom_runStage k s
    rw [List.map_cons, commandStores_cons]
    rw [List.map_cons, stopPoints, List.mem_cons] at hq
    rcases hq with rfl | hq
    · simp only [stage_id, startStage_mem]
      exact .refl _ _
    · cases hr : runStage k.stage s with
      | ok s' =>
        rw [hr] at h hq
        exact (h.mono fun c hc => by simp [hc]).trans ((ih s' q hq).mono fun c hc => by simp [hc])
      | err e s' =>
        rw [hr] at hq
        simp at hq

theorem finish_mem (o : StageOut) : (finish o).mem = o.state.mem := by
  obtain ⟨c, i, ⟨t, ho, hf⟩ | ⟨e, t, ho, hf⟩⟩ := finish_spec o <;> rw [hf, ho] <;> rfl

/-- Whichever way a command ends, it stored no byte but those its stages may store (R67, R73). -/
theorem storedFrom_runCommand (ks : List StageId) (s : State) :
    ∃ n, StoredFrom (commandStores (ks.map StageId.stage) { s with freeIx := n }) s.mem
      (runCommand (ks.map StageId.stage) s).mem := by
  unfold runCommand
  split
  · rename_i h
    obtain ⟨t, ht, _, ⟨rfl, rfl⟩ | ⟨q, hq, p, n, rfl⟩⟩ := abortRun_spec ks h
    · exact ⟨t.freeIx, by rw [ht]; exact .refl _ _⟩
    · refine ⟨s.freeIx + 1, ?_⟩
      rw [ht, completeWith_mem]
      have h1 := storedFrom_stopPoints ks (draw s).2 q hq
      have h2 := storedFrom_scramble (pendingWrites q) { q.2 with pool := p, freeIx := n }
      exact h1.trans (h2.mono fun c hc => List.mem_flatMap.mpr ⟨q, hq, hc⟩)
  · rw [finish_mem]
    exact ⟨s.freeIx, storedFrom_runStages ks s⟩

end Sys2Proof.Machine
end

