-- ==== Sys2Proof/Laws/Huffman.lean ====
section
/-! SUPPORT. The Huffman codes (spec/42_huffman.md R191 to R193): the work tree has each symbol at exactly one leaf, so
its paths are a full prefix-free code. -/

namespace Sys2Proof.Machine

/-! ## Trees -/

/-- The symbols at the leaves, left to right. -/
def hufSyms : HufTree → List Nat
  | .leaf i => [i]
  | .node l r => hufSyms l ++ hufSyms r

/-- The subtree at the end of a path. -/
def hufAt : HufTree → List Bool → Option HufTree
  | t, [] => some t
  | .leaf _, _ :: _ => none
  | .node l _, false :: p => hufAt l p
  | .node _ r, true :: p => hufAt r p

/-- The paths to all nodes of a tree. -/
def hufPaths : HufTree → List (List Bool)
  | .leaf _ => [[]]
  | .node l r => [] :: ((hufPaths l).map (false :: ·) ++ (hufPaths r).map (true :: ·))

theorem hufPath_isSome {t : HufTree} {i : Nat} : (hufPath t i).isSome = true ↔ i ∈ hufSyms t := by
  induction t with
  | leaf j => by_cases h : i = j <;> simp [hufPath, hufSyms, h]
  | node l r il ir =>
    simp only [hufPath, hufSyms, List.mem_append, ← il, ← ir]
    split
    · rename_i p hp; simp [hp]
    · rename_i hp; simp [hp]

theorem hufPath_at {t : HufTree} {i : Nat} {p : List Bool} (h : hufPath t i = some p) : hufAt t p = some (.leaf i) := by
  induction t generalizing p with
  | leaf j =>
    by_cases hj : i = j
    · simp [hufPath, hj] at h; subst h; simp [hufAt, hj]
    · simp [hufPath, hj] at h
  | node l r il ir =>
    simp only [hufPath] at h
    split at h
    · rename_i q hq
      simp only [Option.some.injEq] at h
      subst h
      exact il hq
    · rw [Option.map_eq_some_iff] at h
      obtain ⟨q, hq, rfl⟩ := h
      exact ir hq

theorem hufAt_append (t : HufTree) (p q : List Bool) : hufAt t (p ++ q) = (hufAt t p).bind fun u => hufAt u q := by
  induction p generalizing t with
  | nil => simp [hufAt]
  | cons b p ih => cases t <;> cases b <;> simp [hufAt, ih]

/-- A path to a leaf is no proper prefix of a path to a node. -/
theorem hufAt_leaf_prefix {t u : HufTree} {p q : List Bool} {i : Nat} (hp : hufAt t p = some (.leaf i))
    (hq : hufAt t q = some u) (h : p <+: q) : p = q := by
  obtain ⟨r, rfl⟩ := h
  rw [hufAt_append, hp] at hq
  cases r with
  | nil => simp
  | cons b r => simp [hufAt] at hq

theorem mem_hufPaths {t : HufTree} {p : List Bool} : p ∈ hufPaths t ↔ (hufAt t p).isSome = true := by
  induction t generalizing p with
  | leaf i => cases p <;> simp [hufPaths, hufAt]
  | node l r il ir =>
    cases p with
    | nil => simp [hufPaths, hufAt]
    | cons b p => cases b <;> simp [hufPaths, hufAt, il, ir]

theorem hufPaths_length (t : HufTree) : (hufPaths t).length + 1 = 2 * (hufSyms t).length := by
  induction t with
  | leaf i => rfl
  | node l r il ir => simp [hufPaths, hufSyms]; omega

theorem hufAt_prefix {t : HufTree} {p q : List Bool} (h : (hufAt t q).isSome = true) (hp : p <+: q) :
    (hufAt t p).isSome = true := by
  obtain ⟨r, rfl⟩ := hp
  rw [hufAt_append] at h
  cases hh : hufAt t p with
  | none => simp [hh] at h
  | some u => rfl

theorem hufPath_ne_nil {l r : HufTree} {i : Nat} {p : List Bool} (h : hufPath (.node l r) i = some p) : p ≠ [] := by
  simp only [hufPath] at h
  split at h
  · simp at h; subst h; simp
  · rw [Option.map_eq_some_iff] at h
    obtain ⟨q, _, rfl⟩ := h
    simp

/-- The Kraft sum of the leaves of a tree whose symbols are distinct (R193). -/
theorem hufPath_kraft (t : HufTree) (h : (hufSyms t).Nodup) :
    ((hufSyms t).map fun i => (1 / 2 : ℚ) ^ ((hufPath t i).getD []).length).sum = 1 := by
  induction t with
  | leaf i => simp [hufSyms, hufPath]
  | node l r il ir =>
    simp only [hufSyms] at h ⊢
    rw [List.nodup_append'] at h
    obtain ⟨hl, hr, hd⟩ := h
    rw [List.map_append, List.sum_append]
    have e1 : (hufSyms l).map (fun i => (1 / 2 : ℚ) ^ ((hufPath (.node l r) i).getD []).length) =
        (hufSyms l).map (fun i => (1 / 2 : ℚ) * (1 / 2 : ℚ) ^ ((hufPath l i).getD []).length) := by
      refine List.map_congr_left fun i hi => ?_
      obtain ⟨p, hp⟩ := Option.isSome_iff_exists.mp (hufPath_isSome.mpr hi)
      simp [hufPath, hp, pow_succ, mul_comm]
    have e2 : (hufSyms r).map (fun i => (1 / 2 : ℚ) ^ ((hufPath (.node l r) i).getD []).length) =
        (hufSyms r).map (fun i => (1 / 2 : ℚ) * (1 / 2 : ℚ) ^ ((hufPath r i).getD []).length) := by
      refine List.map_congr_left fun i hi => ?_
      obtain ⟨p, hp⟩ := Option.isSome_iff_exists.mp (hufPath_isSome.mpr hi)
      have hn : hufPath l i = none := by
        rw [← Option.not_isSome_iff_eq_none, hufPath_isSome]
        exact fun hm => hd hm hi
      simp [hufPath, hp, hn, pow_succ, mul_comm]
    rw [e1, e2, List.sum_map_mul_left, List.sum_map_mul_left, il hl, ir hr]
    norm_num

/-! ## The queue -/

/-- The symbols of a queue. -/
def queueSyms (q : List HufItem) : List Nat := q.flatMap fun a => hufSyms a.tree

theorem queueSyms_insert (a : HufItem) (q : List HufItem) :
    (queueSyms (hufInsert a q)).Perm (hufSyms a.tree ++ queueSyms q) := by
  induction q with
  | nil => simp [hufInsert, queueSyms]
  | cons b q ih =>
    simp only [hufInsert]
    split_ifs
    · simp [queueSyms]
    · simp only [queueSyms, List.flatMap_cons] at ih ⊢
      refine (ih.append_left _).trans ?_
      rw [← List.append_assoc, ← List.append_assoc]
      exact List.perm_append_comm.append_right _

theorem hufInsert_length (a : HufItem) (q : List HufItem) : (hufInsert a q).length = q.length + 1 := by
  induction q with
  | nil => rfl
  | cons b q ih =>
    simp only [hufInsert]
    split_ifs <;> simp [ih]

theorem hufLeaves_length (i : Nat) (fs : List Nat) : (hufLeaves i fs).length = fs.length := by
  induction fs generalizing i with
  | nil => rfl
  | cons f fs ih => simp [hufLeaves, hufInsert_length, ih]

theorem queueSyms_leaves (i : Nat) (fs : List Nat) : (queueSyms (hufLeaves i fs)).Perm (List.range' i fs.length) := by
  induction fs generalizing i with
  | nil => simp [hufLeaves, queueSyms]
  | cons f fs ih =>
    simp only [hufLeaves, List.length_cons, List.range'_succ]
    exact (queueSyms_insert _ _).trans ((ih (i + 1)).cons i)

theorem hufMerge_spec (n next : Nat) (q : List HufItem) (h : q ≠ []) (hn : q.length ≤ n + 1) :
    ∃ a, hufMerge n next q = [a] ∧ (hufSyms a.tree).Perm (queueSyms q) := by
  induction n generalizing next q with
  | zero =>
    match q, h, hn with
    | [a], _, _ => exact ⟨a, rfl, by simp [queueSyms]⟩
  | succ n ih =>
    match q, h with
    | [a], _ => exact ⟨a, rfl, by simp [queueSyms]⟩
    | a :: b :: q, _ =>
      simp only [hufMerge]
      have hl := hufInsert_length ⟨a.freq + b.freq, next, .node a.tree b.tree⟩ q
      have hne : hufInsert ⟨a.freq + b.freq, next, .node a.tree b.tree⟩ q ≠ [] := by
        intro he; rw [he] at hl; simp at hl
      obtain ⟨c, hc, hp⟩ := ih (next + 1) _ hne (by simp only [List.length_cons] at hn; omega)
      refine ⟨c, hc, hp.trans ?_⟩
      refine (queueSyms_insert _ _).trans ?_
      simp [queueSyms, hufSyms]

/-- The work tree has each symbol at exactly one leaf. -/
theorem hufTree_syms (fs : List Nat) (h : fs ≠ []) : (hufSyms (hufTree fs)).Perm (List.range fs.length) := by
  have hl := hufLeaves_length 0 fs
  have hne : hufLeaves 0 fs ≠ [] := by
    intro he; rw [he] at hl; exact h (List.length_eq_zero_iff.mp hl.symm)
  obtain ⟨a, ha, hp⟩ := hufMerge_spec fs.length fs.length (hufLeaves 0 fs) hne (by omega)
  simp only [hufTree, ha]
  refine hp.trans ?_
  rw [List.range_eq_range']
  exact queueSyms_leaves 0 fs

/-! ## The codes -/

theorem hufCodes_length (fs : List Nat) : (hufCodes fs).length = fs.length := by
  unfold hufCodes
  split_ifs with h <;> simp [h]

/-- With two symbols or more the code of symbol i is its path in the work tree. -/
theorem hufCodes_path {fs : List Nat} (h : 2 ≤ fs.length) {i : Nat} (hi : i < fs.length) :
    hufPath (hufTree fs) i = some ((hufCodes fs)[i]'(by rw [hufCodes_length]; exact hi)) := by
  have hne : fs ≠ [] := by intro he; simp [he] at h
  have hm : i ∈ hufSyms (hufTree fs) := (hufTree_syms fs hne).mem_iff.mpr (List.mem_range.mpr hi)
  obtain ⟨p, hp⟩ := Option.isSome_iff_exists.mp (hufPath_isSome.mpr hm)
  have h1 : fs.length ≠ 1 := by omega
  simp [hufCodes, h1, hp]

theorem hufTree_node {fs : List Nat} (h : 2 ≤ fs.length) : ∃ l r, hufTree fs = .node l r := by
  have hne : fs ≠ [] := by intro he; simp [he] at h
  have := (hufTree_syms fs hne).length_eq
  cases ht : hufTree fs with
  | leaf i => rw [ht] at this; simp [hufSyms] at this; omega
  | node l r => exact ⟨l, r, rfl⟩

/-- Every code has a bit (R193). -/
theorem hufCodes_ne_nil {fs : List Nat} {c : List Bool} (hc : c ∈ hufCodes fs) : c ≠ [] := by
  obtain ⟨i, hi, rfl⟩ := List.getElem_of_mem hc
  rw [hufCodes_length] at hi
  by_cases h1 : fs.length = 1
  · have : i = 0 := by omega
    simp [hufCodes, h1]
  · have h2 : 2 ≤ fs.length := by omega
    obtain ⟨l, r, ht⟩ := hufTree_node h2
    have := hufCodes_path h2 hi
    rw [ht] at this
    exact hufPath_ne_nil this

/-- No code begins another symbol's code (R193). -/
theorem hufCodes_prefix {fs : List Nat} {i j : Nat} (hi : i < (hufCodes fs).length) (hj : j < (hufCodes fs).length)
    (h : (hufCodes fs)[i] <+: (hufCodes fs)[j]) : i = j := by
  have hi' := hi
  have hj' := hj
  rw [hufCodes_length] at hi' hj'
  by_cases h1 : fs.length = 1
  · omega
  · have h2 : 2 ≤ fs.length := by omega
    have pi := hufPath_at (hufCodes_path h2 hi')
    have pj := hufPath_at (hufCodes_path h2 hj')
    have := hufAt_leaf_prefix pi pj h
    rw [this, pj] at pi
    simp at pi
    exact pi.symm

theorem hufCodes_prefixFree (fs : List Nat) : PrefixFree (hufCodes fs) := by
  unfold PrefixFree
  rw [List.pairwise_iff_getElem]
  intro i j hi hj hij
  exact ⟨fun h => by have := hufCodes_prefix hi hj h; omega, fun h => by have := hufCodes_prefix hj hi h; omega⟩

/-- The Kraft equality: with two symbols or more the code is full (R193). -/
theorem hufCodes_kraft {fs : List Nat} (h : 2 ≤ fs.length) :
    ((hufCodes fs).map fun c => (1 / 2 : ℚ) ^ c.length).sum = 1 := by
  have hne : fs ≠ [] := by intro he; simp [he] at h
  have hp := hufTree_syms fs hne
  have hk := hufPath_kraft (hufTree fs) (hp.nodup_iff.mpr List.nodup_range)
  rw [(hp.map _).sum_eq] at hk
  have h1 : fs.length ≠ 1 := by omega
  simpa [hufCodes, h1, Function.comp_def] using hk

end Sys2Proof.Machine
end

