-- ==== Sys2Proof/Laws/Reconstruct.lean ====
section
/-! SUPPORT. Painting (spec/44_reconstruct_control.md R251, R252): each store stays in the output buffer, and the colour
at a pixel is its leaf's. -/

namespace Sys2Proof.Machine

theorem mem_pixels {r : Rect} {p : Nat × Nat} : p ∈ r.pixels ↔ inRect r p.1 p.2 = true := by
  rw [inRect_iff]
  unfold Rect.pixels
  simp only [List.mem_flatMap, List.mem_map, List.mem_range]
  constructor
  · rintro ⟨j, hj, i, hi, rfl⟩
    simp only
    omega
  · rintro ⟨h1, h2, h3, h4⟩
    exact ⟨p.2 - r.y, by omega, p.1 - r.x, by omega, by ext <;> simp <;> omega⟩

/-- A byte that painting stores is a channel of a leaf's colour at one of its pixels (R251). -/
theorem mem_paintWrites {B W H : Nat} {ns : List NodeRec} {c : Host.Cell} (h : c ∈ paintWrites B W H ns) :
    ∃ n ∈ ns, ∃ col, n.kind = .leaf col ∧ ∃ px py, inRect n.rect px py = true ∧ px < W ∧ py < H ∧
      ∃ ch : Chan, c = (pixAddr B W px py + ch.index, col.get ch) := by
  obtain ⟨n, hn, h⟩ := List.mem_flatMap.mp h
  refine ⟨n, hn, ?_⟩
  unfold paintNode at h
  split at h
  · simp at h
  · rename_i col hk
    obtain ⟨p, hp, h⟩ := List.mem_flatMap.mp h
    rw [clampedPixels, List.mem_filter, mem_pixels] at hp
    obtain ⟨hp1, hp2⟩ := hp
    simp only [Bool.and_eq_true, decide_eq_true_eq] at hp2
    refine ⟨col, hk, p.1, p.2, hp1, hp2.1, hp2.2, ?_⟩
    simp only [cellsAt_cons, cellsAt_nil, List.mem_cons, List.not_mem_nil, or_false] at h
    rcases h with rfl | rfl | rfl
    · exact ⟨.r, rfl⟩
    · exact ⟨.g, rfl⟩
    · exact ⟨.b, rfl⟩

/-- Every pixel of every leaf, inside the buffer, is stored. -/
theorem paintWrites_mem {B W H : Nat} {ns : List NodeRec} {n : NodeRec} {col : Color} (hn : n ∈ ns)
    (hk : n.kind = .leaf col) {px py : Nat} (hp : inRect n.rect px py = true) (hx : px < W) (hy : py < H) (ch : Chan) :
    (pixAddr B W px py + ch.index, col.get ch) ∈ paintWrites B W H ns := by
  refine List.mem_flatMap.mpr ⟨n, hn, ?_⟩
  unfold paintNode
  rw [hk]
  refine List.mem_flatMap.mpr ⟨(px, py), ?_, ?_⟩
  · rw [clampedPixels, List.mem_filter, mem_pixels]
    exact ⟨hp, by simp [hx, hy]⟩
  · cases ch <;> simp [cellsAt, Chan.index, Rgb.get]

theorem pixAddr_lt {B W H px py : Nat} (hx : px < W) (hy : py < H) (ch : Chan) :
    pixAddr B W px py + ch.index < B + 3 * (W * H) := by
  have hm : (py + 1) * W ≤ H * W := Nat.mul_le_mul_right W hy
  rw [Nat.add_mul, Nat.one_mul, Nat.mul_comm H W] at hm
  unfold pixAddr
  cases ch <;> simp only [Chan.index] <;> omega

/-- No byte outside the output buffer is stored (R252). -/
theorem paintWrites_range {B W H : Nat} {ns : List NodeRec} {c : Host.Cell} (h : c ∈ paintWrites B W H ns) :
    B ≤ c.1 ∧ c.1 < B + 3 * (W * H) := by
  obtain ⟨n, _, col, _, px, py, _, hx, hy, ch, rfl⟩ := mem_paintWrites h
  exact ⟨by unfold pixAddr; simp only; omega, pixAddr_lt hx hy ch⟩

/-- Distinct bytes of an image have distinct addresses (spec/20_memory.md R61). -/
theorem pixAddr_inj {B W px py qx qy : Nat} {c d : Chan} (hp : px < W) (hq : qx < W)
    (h : pixAddr B W px py + c.index = pixAddr B W qx qy + d.index) : px = qx ∧ py = qy ∧ c = d := by
  unfold pixAddr at h
  have h1 : 3 * (py * W + px) + c.index = 3 * (qy * W + qx) + d.index := by omega
  have hc : c.index < 3 := by cases c <;> decide
  have hd : d.index < 3 := by cases d <;> decide
  have h2 : py * W + px = qy * W + qx := by omega
  have h3 : c.index = d.index := by omega
  have hW : 0 < W := by omega
  have e1 : (py * W + px) / W = py := by rw [Nat.mul_comm, Nat.mul_add_div hW, Nat.div_eq_of_lt hp, Nat.add_zero]
  have e2 : (qy * W + qx) / W = qy := by rw [Nat.mul_comm, Nat.mul_add_div hW, Nat.div_eq_of_lt hq, Nat.add_zero]
  have e3 : py = qy := by rw [← e1, h2, e2]
  subst e3
  refine ⟨by omega, rfl, ?_⟩
  cases c <;> cases d <;> first | rfl | (simp [Chan.index] at h3)

/-- Two leaves of a quadtree that hold the same pixel have the same colour (spec/41_quadtree.md R164). -/
theorem PreOrder.leaf_unique {f d : Nat} {r : Rect} {ns : List NodeRec} (h : PreOrder f d r ns)
    (hr : inside (2 ^ 32 - 1) (2 ^ 32 - 1) r) {n m : NodeRec} {a b : Color} (hn : n ∈ ns) (hm : m ∈ ns)
    (ha : n.kind = .leaf a) (hb : m.kind = .leaf b) {px py : Nat} (hpn : inRect n.rect px py = true)
    (hpm : inRect m.rect px py = true) : a = b := by
  have ht := h.tiles hr px py
  have hle : leavesAt ns px py ≤ 1 := by rw [ht]; split_ifs <;> omega
  have hn' : n ∈ ns.filter fun n => n.leafColor?.isSome && inRect n.rect px py := by
    rw [List.mem_filter]; exact ⟨hn, by simp [NodeRec.leafColor?, ha, hpn]⟩
  have hm' : m ∈ ns.filter fun n => n.leafColor?.isSome && inRect n.rect px py := by
    rw [List.mem_filter]; exact ⟨hm, by simp [NodeRec.leafColor?, hb, hpm]⟩
  unfold leavesAt at hle
  match hl : ns.filter fun n => n.leafColor?.isSome && inRect n.rect px py with
  | [] => rw [hl] at hn'; simp at hn'
  | [x] =>
    rw [hl, List.mem_singleton] at hn' hm'
    subst hn'
    subst hm'
    rw [ha] at hb
    simpa using hb
  | x :: y :: zs => rw [hl] at hle; simp at hle

/-- After painting, a leaf's pixel holds the leaf's colour (R251). -/
theorem read_paint {m : Memory} (hwf : m.wf = true) {B : Nat} {w h : Word} {f : Nat} {ns : List NodeRec}
    (ht : PreOrder f 0 (rootRect w h) ns) {n : NodeRec} {col : Color} (hn : n ∈ ns) (hk : n.kind = .leaf col)
    {px py : Nat} (hp : inRect n.rect px py = true) :
    pix (m.writeAll (paintWrites B w.toNat h.toNat ns)) B w.toNat px py = col := by
  have hroot : inside w.toNat h.toNat (rootRect w h) := by unfold inside rootRect; simp
  have hroot' : inside (2 ^ 32 - 1) (2 ^ 32 - 1) (rootRect w h) := by
    unfold inside rootRect
    have := w.isLt
    have := h.isLt
    simp only
    omega
  have hin := ht.rect_inside hroot w.isLt h.isLt n hn
  have hpx : px < w.toNat ∧ py < h.toNat := by
    rw [inRect_iff] at hp
    unfold inside at hin
    omega
  have key : ∀ ch : Chan, Memory.read (m.writeAll (paintWrites B w.toNat h.toNat ns)) (pixAddr B w.toNat px py + ch.index) =
      col.get ch := by
    intro ch
    refine Memory.read_writeAll_of_forall hwf ⟨_, paintWrites_mem hn hk hp hpx.1 hpx.2 ch, rfl⟩ ?_
    intro c hc he
    obtain ⟨n', hn', col', hk', qx, qy, hq, hqx, hqy, ch', rfl⟩ := mem_paintWrites hc
    simp only at he ⊢
    obtain ⟨rfl, rfl, rfl⟩ := pixAddr_inj hqx hpx.1 he
    rw [ht.leaf_unique hroot' hn' hn hk' hk hq hp]
  unfold pix
  have : col = Rgb.ofFn col.get := rfl
  rw [this]
  exact congrArg Rgb.ofFn (funext key)

end Sys2Proof.Machine
end

