-- ==== Sys2Proof/Laws/Workers.lean ====
section
/-! SUPPORT. The worker pool of QT_BUILD (spec/41_quadtree.md R170, R171): what every move keeps, that every schedule runs
out of moves, and what a pool without moves has come to: the sequential build, or an error that the build justifies. -/

namespace Sys2Proof

open Sys2Proof.Machine

/-! ## What a task amounts to -/

/-- The sequential builds of a list of frames, one after another. -/
def Machine.QtEnv.buildAll (e : QtEnv) : List Frame → BuildOut
  | [] => ⟨[], []⟩
  | t :: ts =>
    ⟨(e.build t.left t.depth t.rect).nodes ++ (e.buildAll ts).nodes,
      (e.build t.left t.depth t.rect).bad ++ (e.buildAll ts).bad⟩

/-- What a task amounts to when everything outstanding is built sequentially. -/
def Task.collapse (e : QtEnv) : Task → BuildOut
  | .queued t => e.build t.left t.depth t.rect
  | .running t stack nodes => ⟨nodes ++ (e.buildAll (t :: stack)).nodes, (e.buildAll (t :: stack)).bad⟩
  | .counting _ stack nodes => ⟨nodes ++ (e.buildAll stack).nodes, (e.buildAll stack).bad⟩
  | .joining d r c0 c1 c2 c3 => assemble d r (c0.collapse e) (c1.collapse e) (c2.collapse e) (c3.collapse e)
  | .ended nodes => ⟨nodes, []⟩

/-- How many moves are due that append no node: tasks to take from the queue, and colours to count. -/
def Task.waiting : Task → Nat
  | .queued _ => 1
  | .running _ _ _ => 0
  | .counting _ _ _ => 1
  | .joining _ _ c0 c1 c2 c3 => c0.waiting + c1.waiting + c2.waiting + c3.waiting
  | .ended _ => 0

/-- The colours of the LEAF records made whose counting is still due. -/
def Task.uncounted : Task → List Color
  | .queued _ => []
  | .running _ _ _ => []
  | .counting c _ _ => [c]
  | .joining _ _ c0 c1 c2 c3 => c0.uncounted ++ c1.uncounted ++ c2.uncounted ++ c3.uncounted
  | .ended _ => []

/-- The records made so far are among those the task amounts to, in their order. -/
theorem Task.records_sublist (e : QtEnv) (t : Task) : t.records.Sublist (t.collapse e).nodes := by
  induction t with
  | queued t => exact List.nil_sublist _
  | running t stack nodes => exact List.sublist_append_left _ _
  | counting c stack nodes => exact List.sublist_append_left _ _
  | joining d r c0 c1 c2 c3 i0 i1 i2 i3 => exact (((i0.append i1).append i2).append i3).cons_cons _
  | ended nodes => exact List.Sublist.refl _

/-- The place of an outstanding task: what is made and what is outstanding around it does not depend on the task. -/
structure Place (e : QtEnv) (put : Task → Task) : Prop where
  records : ∃ as bs, ∀ y, (put y).records = as ++ y.records ++ bs
  collapse : ∃ as bs us vs, ∀ y, (put y).collapse e = ⟨as ++ (y.collapse e).nodes ++ bs, us ++ (y.collapse e).bad ++ vs⟩
  waiting : ∃ n, ∀ y, (put y).waiting = y.waiting + n
  uncounted : ∃ us vs, ∀ y, (put y).uncounted = us ++ y.uncounted ++ vs

theorem Place.id (e : QtEnv) : Place e id :=
  ⟨⟨[], [], fun y => by simp⟩, ⟨[], [], [], [], fun y => by simp⟩, ⟨0, fun _ => rfl⟩,
    ⟨[], [], fun y => by simp⟩⟩

theorem Place.comp {e : QtEnv} {g put : Task → Task} (hg : Place e g) (hp : Place e put) :
    Place e (fun x => g (put x)) := by
  obtain ⟨⟨a, b, h1⟩, ⟨a', b', u', v', h2⟩, ⟨n, h3⟩, ⟨u, v, h4⟩⟩ := hg
  obtain ⟨⟨c, d, k1⟩, ⟨c', d', x', y', k2⟩, ⟨m, k3⟩, ⟨x, y, k4⟩⟩ := hp
  exact ⟨⟨a ++ c, d ++ b, fun y => by rw [h1, k1]; simp only [List.append_assoc]⟩,
    ⟨a' ++ c', d' ++ b', u' ++ x', y' ++ v', fun y => by rw [h2, k2]; simp only [List.append_assoc]⟩,
    ⟨m + n, fun y => by rw [h3, k3]; omega⟩, ⟨u ++ x, y ++ v, fun y => by rw [h4, k4]; simp only [List.append_assoc]⟩⟩

theorem Place.join0 (e : QtEnv) (d : Nat) (r : Rect) (c1 c2 c3 : Task) :
    Place e (fun x => .joining d r x c1 c2 c3) :=
  ⟨⟨[NodeRec.ofRect .internal d r], c1.records ++ c2.records ++ c3.records, fun y => by simp [Task.records]⟩,
    ⟨[NodeRec.ofRect .internal d r], (c1.collapse e).nodes ++ (c2.collapse e).nodes ++ (c3.collapse e).nodes, [],
      (c1.collapse e).bad ++ (c2.collapse e).bad ++ (c3.collapse e).bad, fun y => by simp [Task.collapse, assemble]⟩,
    ⟨c1.waiting + c2.waiting + c3.waiting, fun y => by simp only [Task.waiting]; omega⟩,
    ⟨[], c1.uncounted ++ c2.uncounted ++ c3.uncounted, fun y => by simp [Task.uncounted]⟩⟩

theorem Place.join1 (e : QtEnv) (d : Nat) (r : Rect) (c0 c2 c3 : Task) :
    Place e (fun x => .joining d r c0 x c2 c3) :=
  ⟨⟨NodeRec.ofRect .internal d r :: c0.records, c2.records ++ c3.records, fun y => by simp [Task.records]⟩,
    ⟨NodeRec.ofRect .internal d r :: (c0.collapse e).nodes, (c2.collapse e).nodes ++ (c3.collapse e).nodes,
      (c0.collapse e).bad, (c2.collapse e).bad ++ (c3.collapse e).bad, fun y => by simp [Task.collapse, assemble]⟩,
    ⟨c0.waiting + c2.waiting + c3.waiting, fun y => by simp only [Task.waiting]; omega⟩,
    ⟨c0.uncounted, c2.uncounted ++ c3.uncounted, fun y => by simp [Task.uncounted]⟩⟩

theorem Place.join2 (e : QtEnv) (d : Nat) (r : Rect) (c0 c1 c3 : Task) :
    Place e (fun x => .joining d r c0 c1 x c3) :=
  ⟨⟨NodeRec.ofRect .internal d r :: (c0.records ++ c1.records), c3.records, fun y => by simp [Task.records]⟩,
    ⟨NodeRec.ofRect .internal d r :: ((c0.collapse e).nodes ++ (c1.collapse e).nodes), (c3.collapse e).nodes,
      (c0.collapse e).bad ++ (c1.collapse e).bad, (c3.collapse e).bad, fun y => by simp [Task.collapse, assemble]⟩,
    ⟨c0.waiting + c1.waiting + c3.waiting, fun y => by simp only [Task.waiting]; omega⟩,
    ⟨c0.uncounted ++ c1.uncounted, c3.uncounted, fun y => by simp [Task.uncounted]⟩⟩

theorem Place.join3 (e : QtEnv) (d : Nat) (r : Rect) (c0 c1 c2 : Task) :
    Place e (fun x => .joining d r c0 c1 c2 x) :=
  ⟨⟨NodeRec.ofRect .internal d r :: (c0.records ++ c1.records ++ c2.records), [], fun y => by simp [Task.records]⟩,
    ⟨NodeRec.ofRect .internal d r :: ((c0.collapse e).nodes ++ (c1.collapse e).nodes ++ (c2.collapse e).nodes), [],
      (c0.collapse e).bad ++ (c1.collapse e).bad ++ (c2.collapse e).bad, [], fun y => by
        simp [Task.collapse, assemble]⟩,
    ⟨c0.waiting + c1.waiting + c2.waiting, fun y => by simp only [Task.waiting]; omega⟩,
    ⟨c0.uncounted ++ c1.uncounted ++ c2.uncounted, [], fun y => by simp [Task.uncounted]⟩⟩

theorem mem_focusUnder {g : Task → Task} {fs : List (Task × (Task → Task))} {p : Task × (Task → Task)}
    (h : p ∈ focusUnder g fs) : ∃ put, (p.1, put) ∈ fs ∧ p.2 = fun x => g (put x) := by
  obtain ⟨q, hq, rfl⟩ := List.mem_map.mp h
  exact ⟨q.2, hq, rfl⟩

/-- An outstanding task is queued, running or counting, and stands at its place. -/
theorem Task.foci_spec (e : QtEnv) {t : Task} {p : Task × (Task → Task)} (h : p ∈ t.foci) :
    p.2 p.1 = t ∧ Place e p.2 ∧ ((∃ f, p.1 = .queued f) ∨ (∃ f stack nodes, p.1 = .running f stack nodes) ∨
      ∃ c stack nodes, p.1 = .counting c stack nodes) := by
  induction t generalizing p with
  | queued f =>
    obtain rfl := List.mem_singleton.mp h
    exact ⟨rfl, Place.id e, .inl ⟨f, rfl⟩⟩
  | running f stack nodes =>
    obtain rfl := List.mem_singleton.mp h
    exact ⟨rfl, Place.id e, .inr (.inl ⟨f, stack, nodes, rfl⟩)⟩
  | counting c stack nodes =>
    obtain rfl := List.mem_singleton.mp h
    exact ⟨rfl, Place.id e, .inr (.inr ⟨c, stack, nodes, rfl⟩)⟩
  | joining d r c0 c1 c2 c3 i0 i1 i2 i3 =>
    simp only [Task.foci, List.mem_append] at h
    obtain ⟨x, put⟩ := p
    rcases h with ((h | h) | h) | h <;> obtain ⟨q, hq, rfl⟩ := mem_focusUnder h
    · obtain ⟨h1, h2, h3⟩ := i0 hq
      exact ⟨congrArg (fun x => Task.joining d r x c1 c2 c3) h1, (Place.join0 e d r c1 c2 c3).comp h2, h3⟩
    · obtain ⟨h1, h2, h3⟩ := i1 hq
      exact ⟨congrArg (fun x => Task.joining d r c0 x c2 c3) h1, (Place.join1 e d r c0 c2 c3).comp h2, h3⟩
    · obtain ⟨h1, h2, h3⟩ := i2 hq
      exact ⟨congrArg (fun x => Task.joining d r c0 c1 x c3) h1, (Place.join2 e d r c0 c1 c3).comp h2, h3⟩
    · obtain ⟨h1, h2, h3⟩ := i3 hq
      exact ⟨congrArg (fun x => Task.joining d r c0 c1 c2 x) h1, (Place.join3 e d r c0 c1 c2).comp h2, h3⟩
  | ended nodes => simp [Task.foci] at h

/-- A task with nothing outstanding amounts to its records, and their colours are counted. -/
theorem Task.collapse_of_foci (e : QtEnv) {t : Task} (h : t.foci = []) :
    t.collapse e = ⟨t.records, []⟩ ∧ t.uncounted = [] := by
  induction t with
  | queued f => simp [Task.foci] at h
  | running f stack nodes => simp [Task.foci] at h
  | counting c stack nodes => simp [Task.foci] at h
  | joining d r c0 c1 c2 c3 i0 i1 i2 i3 =>
    simp only [Task.foci, focusUnder, List.append_eq_nil_iff, List.map_eq_nil_iff] at h
    obtain ⟨⟨⟨h0, h1⟩, h2⟩, h3⟩ := h
    simp only [Task.collapse, Task.uncounted, i0 h0, i1 h1, i2 h2, i3 h3, assemble, Task.records, List.append_nil,
      and_self]
  | ended nodes => exact ⟨rfl, rfl⟩

/-- Where a worker holds a task, a task that is not queued is outstanding. -/
theorem Task.held_of_active {t : Task} (h : t.active ≠ 0) : ∃ p ∈ t.foci, ∀ f, p.1 ≠ .queued f := by
  induction t with
  | queued f => exact absurd rfl h
  | running f stack nodes => exact ⟨_, List.mem_singleton.mpr rfl, fun _ => by simp⟩
  | counting c stack nodes => exact ⟨_, List.mem_singleton.mpr rfl, fun _ => by simp⟩
  | joining d r c0 c1 c2 c3 i0 i1 i2 i3 =>
    have key : ∀ {g : Task → Task} {c : Task}, (∃ p ∈ c.foci, ∀ f, p.1 ≠ .queued f) →
        ∃ p ∈ focusUnder g c.foci, ∀ f, p.1 ≠ .queued f := by
      rintro g c ⟨p, hm, hq⟩
      exact ⟨_, List.mem_map.mpr ⟨p, hm, rfl⟩, hq⟩
    simp only [Task.active] at h
    simp only [Task.foci, List.mem_append]
    by_cases h0 : c0.active = 0
    · by_cases h1 : c1.active = 0
      · by_cases h2 : c2.active = 0
        · obtain ⟨p, hm, hq⟩ := key (g := fun x => .joining d r c0 c1 c2 x) (i3 (by omega))
          exact ⟨p, .inr hm, hq⟩
        · obtain ⟨p, hm, hq⟩ := key (g := fun x => .joining d r c0 c1 x c3) (i2 h2)
          exact ⟨p, .inl (.inr hm), hq⟩
      · obtain ⟨p, hm, hq⟩ := key (g := fun x => .joining d r c0 x c2 c3) (i1 h1)
        exact ⟨p, .inl (.inl (.inr hm)), hq⟩
    · obtain ⟨p, hm, hq⟩ := key (g := fun x => .joining d r x c1 c2 c3) (i0 h0)
      exact ⟨p, .inl (.inl (.inl hm)), hq⟩
  | ended nodes => exact absurd rfl h

/-- A drained pool has nothing outstanding (spec/10_state.md R57, spec/41_quadtree.md R171). -/
theorem Task.foci_drained (t : Task) : t.drained.foci = [] := by
  induction t with
  | joining d r c0 c1 c2 c3 i0 i1 i2 i3 =>
    simp only [Task.drained, Task.foci, focusUnder, i0, i1, i2, i3, List.map_nil, List.append_nil]
  | _ => rfl

end Sys2Proof

namespace Sys2Proof.Machine

/-! ## One node -/

/-- The sequential build of a frame goes by its test. -/
theorem QtEnv.build_test (e : QtEnv) (t : Frame) :
    (e.test t = .leaf → e.build t.left t.depth t.rect = e.leaf t.depth t.rect) ∧
      (∀ a as, e.test t = .busError a as → e.build t.left t.depth t.rect = ⟨[], a :: as⟩) ∧
        (e.test t = .split →
          e.build t.left t.depth t.rect = assemble t.depth t.rect (e.build (t.left - 1) (t.depth + 1) t.rect.child0)
            (e.build (t.left - 1) (t.depth + 1) t.rect.child1) (e.build (t.left - 1) (t.depth + 1) t.rect.child2)
            (e.build (t.left - 1) (t.depth + 1) t.rect.child3)) := by
  obtain ⟨f, d, r⟩ := t
  cases f with
  | zero => simp [QtEnv.test, QtEnv.build]
  | succ f =>
    simp only [QtEnv.test, Nat.add_sub_cancel, Nat.succ_ne_zero, if_false]
    exact ⟨fun h => e.build_leaf h f, fun a as h => e.build_busError h f, fun h => e.build_split h f⟩

/-- A worker that goes on with its stack. -/
theorem resume_spec (e : QtEnv) (ns : List NodeRec) (stack : List Frame) :
    (Task.resume ns stack).collapse e = ⟨ns ++ (e.buildAll stack).nodes, (e.buildAll stack).bad⟩ ∧
      (Task.resume ns stack).records = ns ∧ (Task.resume ns stack).waiting = 0 ∧ (Task.resume ns stack).uncounted = [] := by
  cases stack <;> simp [Task.resume, Task.collapse, Task.records, Task.waiting, Task.uncounted, QtEnv.buildAll]

/-- What an append in the place of a running task `x` does, `y` being the task after it: it amounts to the same, has one
record more, leaves no colour uncounted but the record's own, and makes at most four moves due. -/
structure Appends (e : QtEnv) (x y : Task) (ns : List NodeRec) (n : NodeRec) : Prop where
  collapse : y.collapse e = x.collapse e
  records : y.records = ns ++ [n]
  uncounted : y.uncounted = leafColors [n]
  waiting : y.waiting ≤ 4

theorem appends_leaf {e : QtEnv} {t : Frame} (h : e.test t = .leaf) (stack : List Frame) (ns : List NodeRec) :
    Appends e (.running t stack ns) (e.emit t stack ns) ns (NodeRec.ofRect (.leaf (e.avg t.rect)) t.depth t.rect) :=
  ⟨by simp only [QtEnv.emit, Task.collapse, QtEnv.buildAll, (e.build_test t).1 h, QtEnv.leaf, List.append_assoc,
      List.nil_append], rfl, rfl, by simp [QtEnv.emit, Task.waiting]⟩

theorem appends_split {e : QtEnv} {t : Frame} (h : e.test t = .split) (stack : List Frame) (ns : List NodeRec) :
    Appends e (.running t stack ns) (e.descend t stack ns) ns (NodeRec.ofRect .internal t.depth t.rect) := by
  have hb := (e.build_test t).2.2 h
  unfold QtEnv.descend
  split
  · rename_i hc
    obtain ⟨_, rfl, rfl⟩ := hc
    refine ⟨?_, by simp [Task.records], by simp [Task.uncounted, leafColors, NodeRec.leafColor?, NodeRec.ofRect],
      by simp [Task.waiting]⟩
    simp only [Task.collapse, QtEnv.buildAll, hb, Frame.below, List.nil_append, List.append_nil]
  · refine ⟨?_, rfl, rfl, by simp [Task.waiting]⟩
    simp only [Task.collapse, QtEnv.buildAll, hb, Frame.below, assemble, List.append_assoc, List.cons_append,
      List.nil_append]

/-! ## What every move keeps -/

/-- An error of QT_BUILD that the build `o` justifies (spec/41_quadtree.md R167, R172): a limit that the complete tree
exceeds, or a byte of a scan that does not answer. -/
def Justified (p : Params) (o : BuildOut) (err : Err) : Prop :=
  err = .capacity 1 ∧ p.maxNodes < o.nodes.length ∨
    err = .capacity 2 ∧ p.maxSymbols < (symbolTable (leafColors o.nodes)).length ∨ ∃ a ∈ o.bad, err = .io a

/-- A pool on its way to the build `o`: it amounts to `o`, its count is that of the records made, its counters are those of
the colours counted so far, and both are within their limits. -/
structure BuildRun.OnWay (e : QtEnv) (o : BuildOut) (b : BuildRun) : Prop where
  collapse : b.task.collapse e = o
  count : b.count = b.task.records.length
  freq : ∃ cs, SymbolsOf cs b.freq ∧ (cs ++ b.task.uncounted).Perm (leafColors b.task.records)
  fits : b.count ≤ e.par.maxNodes ∧ b.freq.length ≤ e.par.maxSymbols

/-- What every pool that a schedule reaches is: on its way, or stopped by an error that the build justifies. -/
def BuildRun.Sound (e : QtEnv) (o : BuildOut) (b : BuildRun) : Prop :=
  (b.failure = none ∧ b.OnWay e o) ∨ ∃ err, b.failure = some err ∧ Justified e.par o err

/-- A bound on the moves that a pool still has. -/
def BuildRun.remaining (e : QtEnv) (b : BuildRun) : Nat :=
  5 * (e.par.maxNodes + 1 - b.count) + b.task.waiting + if b.failure.isSome then 0 else 1

theorem BuildRun.OnWay.append {e : QtEnv} {o : BuildOut} {b : BuildRun} (h : b.OnWay e o) (hf : b.failure = none)
    {t : Frame} {stack : List Frame} {ns : List NodeRec} {n : NodeRec} {put : Task → Task} {y : Task} (hp : Place e put)
    (hb : put (.running t stack ns) = b.task) (hy : Appends e (.running t stack ns) y ns n) :
    (b.append e (put y)).Sound e o ∧ (b.append e (put y)).remaining e < b.remaining e := by
  obtain ⟨hcol, hcount, ⟨cs, hcs, hperm⟩, hfit⟩ := h
  obtain ⟨⟨as, bs, hrec⟩, ⟨_, _, _, _, hc⟩, ⟨k, hw⟩, ⟨us, vs, hu⟩⟩ := hp
  have hcol' : (put y).collapse e = o := by rw [hc, hy.collapse, ← hc, hb, hcol]
  have hrec' : (put y).records = as ++ (ns ++ [n]) ++ bs := by rw [hrec, hy.records]
  have hold : b.task.records = as ++ ns ++ bs := by rw [← hb, hrec]; rfl
  have hlen := ((put y).records_sublist e).length_le
  rw [hcol'] at hlen
  have hcount' : b.count + 1 = (put y).records.length := by
    rw [hcount, hold, hrec']
    simp only [List.length_append, List.length_cons, List.length_nil]
    omega
  have hperm' : (cs ++ (put y).uncounted).Perm (leafColors (put y).records) := by
    rw [← hb, hu, hrec] at hperm
    rw [hu, hrec', hy.uncounted]
    simp only [Task.uncounted, Task.records, leafColors_append] at hperm ⊢
    rw [← Multiset.coe_eq_coe] at hperm ⊢
    simp only [← Multiset.coe_add, Multiset.coe_nil, add_zero] at hperm ⊢
    calc _ = (↑cs + (↑us + ↑vs)) + (↑(leafColors [n]) : Multiset Color) := by abel
      _ = _ := by rw [hperm]; abel
  have hwb : b.task.waiting = k := by rw [← hb, hw]; simp [Task.waiting]
  have hwn := hw y
  have hw4 := hy.waiting
  unfold BuildRun.append
  split_ifs with h1
  · refine ⟨.inr ⟨_, rfl, .inl ⟨rfl, by omega⟩⟩, ?_⟩
    simp [BuildRun.remaining, BuildRun.fail, hf]
  · refine ⟨.inl ⟨hf, hcol', hcount', ⟨cs, hcs, hperm'⟩, Nat.not_lt.mp h1, hfit.2⟩, ?_⟩
    simp only [BuildRun.remaining, hwb, hwn]
    omega

theorem BuildRun.OnWay.countColor {e : QtEnv} {o : BuildOut} {b : BuildRun} (h : b.OnWay e o) (hf : b.failure = none)
    {c : Color} {stack : List Frame} {ns : List NodeRec} {put : Task → Task} (hp : Place e put)
    (hb : put (.counting c stack ns) = b.task) :
    (b.countColor e c (put (.resume ns stack))).Sound e o ∧
      (b.countColor e c (put (.resume ns stack))).remaining e < b.remaining e := by
  obtain ⟨hcol, hcount, ⟨cs, hcs, hperm⟩, hfit⟩ := h
  obtain ⟨⟨as, bs, hrec⟩, ⟨_, _, _, _, hc⟩, ⟨k, hw⟩, ⟨us, vs, hu⟩⟩ := hp
  obtain ⟨r1, r2, r3, r4⟩ := resume_spec e ns stack
  have hcol' : (put (.resume ns stack)).collapse e = o := by
    rw [hc, r1, ← hcol, ← hb, hc (.counting c stack ns)]
    rfl
  have hrec' : (put (.resume ns stack)).records = b.task.records := by rw [hrec, r2, ← hb, hrec]; rfl
  have hs' := hcs.increment c
  have hperm' : ((cs ++ [c]) ++ (put (.resume ns stack)).uncounted).Perm (leafColors b.task.records) := by
    refine List.Perm.trans ?_ hperm
    rw [hu, r4, ← hb, hu]
    simp only [Task.uncounted]
    rw [← Multiset.coe_eq_coe]
    simp only [← Multiset.coe_add, Multiset.coe_nil, add_zero]
    abel
  have hsub := b.task.records_sublist e
  rw [hcol] at hsub
  have hwb : b.task.waiting = k + 1 := by rw [← hb, hw]; simp only [Task.waiting]; omega
  have hwn : (put (.resume ns stack)).waiting = k := by rw [hw, r3, Nat.zero_add]
  unfold BuildRun.countColor
  simp only
  split_ifs with h1
  · refine ⟨.inr ⟨_, rfl, .inr (.inl ⟨rfl, lt_of_lt_of_le h1 (hs'.length_le (symbolTable_spec _) ?_)⟩)⟩, ?_⟩
    · intro x hx
      exact (List.Sublist.filterMap _ hsub).subset (hperm'.subset (List.mem_append_left _ hx))
    · simp [BuildRun.remaining, BuildRun.fail, hf]
  · refine ⟨.inl ⟨hf, hcol', by rw [hrec']; exact hcount, ⟨_, hs', by rw [hrec']; exact hperm'⟩, hfit.1,
      Nat.not_lt.mp h1⟩, ?_⟩
    simp only [BuildRun.remaining, hwb, hwn]
    omega

/-- Every move keeps a pool sound and brings it nearer to its end. -/
theorem BuildRun.Sound.next {e : QtEnv} {o : BuildOut} {b c : BuildRun} (h : b.Sound e o) (hc : c ∈ b.nexts e) :
    c.Sound e o ∧ c.remaining e < b.remaining e := by
  unfold BuildRun.nexts at hc
  rcases h with ⟨hf, h⟩ | ⟨err, hf, _⟩
  · rw [hf] at hc
    simp only [Option.isSome_none, Bool.false_eq_true, if_false, List.mem_flatMap] at hc
    obtain ⟨⟨x, put⟩, hm, hc⟩ := hc
    obtain ⟨hb, hp, ⟨t, rfl⟩ | ⟨t, stack, ns, rfl⟩ | ⟨col, stack, ns, rfl⟩⟩ := Task.foci_spec e hm
    · simp only [BuildRun.movesAt] at hc
      split_ifs at hc
      · obtain rfl := List.mem_singleton.mp hc
        simp only at hb hp
        obtain ⟨⟨as, bs, hrec⟩, ⟨_, _, _, _, hcc⟩, ⟨n, hw⟩, ⟨us, vs, hu⟩⟩ := hp
        have hrun : (Task.running t [] []).collapse e = (Task.queued t).collapse e := by
          simp [Task.collapse, QtEnv.buildAll]
        have hr : (put (.running t [] [])).records = b.task.records := by rw [← hb, hrec, hrec]; rfl
        have hn : (put (.running t [] [])).uncounted = b.task.uncounted := by rw [← hb, hu, hu]; rfl
        refine ⟨.inl ⟨hf, ?_, ?_, ?_, h.fits⟩, ?_⟩
        · simp only; rw [hcc, hrun, ← hcc, hb]; exact h.collapse
        · simp only [hr]; exact h.count
        · simp only [hr, hn]; exact h.freq
        · have h1 := hw (.running t [] [])
          have h2 := hw (.queued t)
          rw [hb] at h2
          simp only [Task.waiting] at h1 h2
          simp only [BuildRun.remaining]
          omega
      · simp at hc
    · simp only [BuildRun.movesAt] at hc
      split at hc
      · rename_i ht
        obtain rfl := List.mem_singleton.mp hc
        exact h.append hf hp hb (appends_leaf ht stack ns)
      · rename_i ht
        obtain rfl := List.mem_singleton.mp hc
        exact h.append hf hp hb (appends_split ht stack ns)
      · rename_i a as ht
        obtain ⟨x, hx, rfl⟩ := List.mem_map.mp hc
        refine ⟨.inr ⟨_, rfl, .inr (.inr ⟨x, ?_, rfl⟩)⟩, by simp [BuildRun.remaining, BuildRun.fail, hf]⟩
        obtain ⟨_, ⟨_, _, us, vs, hcc⟩, _, _⟩ := hp
        rw [← h.collapse, ← hb, hcc]
        simp only [Task.collapse, QtEnv.buildAll, (e.build_test t).2.1 a as ht, List.mem_append]
        exact .inl (.inr (.inl hx))
    · obtain rfl := List.mem_singleton.mp hc
      exact h.countColor hf hp hb
  · rw [hf] at hc
    simp at hc

/-- A pool without a failure and without a move has nothing outstanding: a free worker takes a queued task, and a worker
that holds a task always has a move. -/
theorem BuildRun.foci_of_nexts {e : QtEnv} {b : BuildRun} (hf : b.failure = none) (h : b.nexts e = []) :
    b.task.foci = [] := by
  simp only [BuildRun.nexts, hf, Option.isSome_none, Bool.false_eq_true, if_false, List.flatMap_eq_nil_iff] at h
  have hheld : ∀ p ∈ b.task.foci, ∃ f, p.1 = .queued f := by
    rintro ⟨x, put⟩ hm
    have hn := h _ hm
    obtain ⟨_, _, hx | ⟨t, stack, ns, rfl⟩ | ⟨c, stack, ns, rfl⟩⟩ := Task.foci_spec e hm
    · exact hx
    · simp only [BuildRun.movesAt] at hn
      split at hn <;> simp at hn
    · simp [BuildRun.movesAt] at hn
  have ha : b.task.active = 0 := by
    by_contra hne
    obtain ⟨p, hm, hq⟩ := Task.held_of_active hne
    obtain ⟨f, hf⟩ := hheld p hm
    exact hq f hf
  rw [List.eq_nil_iff_forall_not_mem]
  rintro ⟨x, put⟩ hm
  obtain ⟨f, rfl⟩ : ∃ f, x = .queued f := hheld _ hm
  have hn := h _ hm
  simp [BuildRun.movesAt, ha] at hn

/-- What a schedule that has run out of moves comes to: the sequential build, within both limits and without a bus error,
or an error that the build justifies. -/
theorem BuildRun.Sound.ended {e : QtEnv} {o : BuildOut} {b : BuildRun} (h : b.Sound e o) (hn : b.nexts e = []) :
    (b.failure = none ∧ b.task.records = o.nodes ∧ o.bad = [] ∧ b.freq = symbolTable (leafColors o.nodes) ∧
        b.count = o.nodes.length ∧ o.nodes.length ≤ e.par.maxNodes ∧
          (symbolTable (leafColors o.nodes)).length ≤ e.par.maxSymbols) ∨
      ∃ err, b.failure = some err ∧ Justified e.par o err := by
  rcases h with ⟨hf, h⟩ | h
  · refine .inl ⟨hf, ?_⟩
    obtain ⟨hcf, hu⟩ := Task.collapse_of_foci e (BuildRun.foci_of_nexts hf hn)
    have hcol := hcf.symm.trans h.collapse
    obtain ⟨cs, hcs, hp⟩ := h.freq
    rw [hu, List.append_nil] at hp
    have hr : b.task.records = o.nodes := congrArg BuildOut.nodes hcol
    have hb : o.bad = [] := (congrArg BuildOut.bad hcol).symm
    have hs : b.freq = symbolTable (leafColors o.nodes) := hcs.unique (symbolTable_spec _) (by rw [← hr]; exact hp)
    have hc : b.count = o.nodes.length := by rw [h.count, hr]
    have hfit := h.fits
    rw [hs, hc] at hfit
    exact ⟨hr, hb, hs, hc, hfit⟩
  · exact .inr h

theorem BuildRun.Sound.start (e : QtEnv) (maxD : Nat) (root : Rect) :
    (BuildRun.start maxD root).Sound e (e.build maxD 0 root) :=
  .inl ⟨rfl, rfl, rfl, ⟨[], ⟨by simp [BuildRun.start], by simp [BuildRun.start], by simp⟩, List.Perm.nil⟩,
    by simp [BuildRun.start]⟩

theorem BuildRun.remaining_start (e : QtEnv) (maxD : Nat) (root : Rect) :
    (BuildRun.start maxD root).remaining e ≤ poolMoves e.par := by
  simp only [BuildRun.start, BuildRun.remaining, Task.waiting, poolMoves, Option.isSome_none, Bool.false_eq_true, if_false]
  omega

theorem BuildRun.Sound.follow {e : QtEnv} {o : BuildOut} {b : BuildRun} (h : b.Sound e o) (ks : List Nat) :
    (b.follow e ks).Sound e o ∧ (b.remaining e ≤ ks.length → (b.follow e ks).nexts e = []) := by
  induction ks generalizing b with
  | nil =>
    refine ⟨h, fun hr => ?_⟩
    cases hn : b.nexts e with
    | nil => exact hn
    | cons x xs =>
      have := (h.next (c := x) (by simp [hn])).2
      simp only [List.length_nil] at hr
      omega
  | cons k ks ih =>
    simp only [BuildRun.follow]
    split
    · rename_i hn; exact ⟨h, fun _ => hn⟩
    · rename_i x xs hn
      obtain ⟨h1, h2⟩ := h.next (c := pick x xs k) (by rw [hn]; exact pick_mem x xs k)
      obtain ⟨h3, h4⟩ := ih h1
      exact ⟨h3, fun hr => h4 (by simp only [List.length_cons] at hr; omega)⟩

/-! ## QT_BUILD -/

theorem runPool_sound {e : QtEnv} {o : BuildOut} {s : State} (h : s.build.Sound e o) (k : Nat) :
    (runPool e k s).build.Sound e o ∧ (s.build.remaining e ≤ k → (runPool e k s).build.nexts e = []) := by
  induction k generalizing s with
  | zero =>
    refine ⟨h, fun hr => ?_⟩
    cases hn : s.build.nexts e with
    | nil => exact hn
    | cons x xs =>
      have := (h.next (c := x) (by simp [hn])).2
      omega
  | succ k ih =>
    simp only [runPool]
    split
    · rename_i hn; exact ⟨h, fun _ => hn⟩
    · rename_i x xs hn
      obtain ⟨h1, h2⟩ := h.next (c := (choose x xs s).1) (by rw [hn]; exact choose_mem x xs s)
      obtain ⟨h3, h4⟩ := ih (s := { (choose x xs s).2 with pool := some (choose x xs s).1 }) h1
      exact ⟨h3, fun hr => h4 (by
        change (choose x xs s).1.remaining e ≤ k
        omega)⟩

/-- The sequential build of QT_BUILD, from the root rectangle at depth 0 (R160, R161). -/
def qtBuild (s : State) : BuildOut := (qtEnv s).build s.snap.maxDepth.toNat 0 (rootRect s.cnt.satW s.cnt.satH)

/-- QT_BUILD's body: the success writes of the sequential build, where it fits and meets no bus error; or an error that
the sequential build justifies. -/
theorem qtBody_spec (s : State) :
    (∃ b n, qtBody s = .ok (qtDone b { s with freeIx := n }) ∧ b.task.records = (qtBuild s).nodes ∧
        (qtBuild s).bad = [] ∧ b.freq = symbolTable (leafColors (qtBuild s).nodes) ∧
          b.count = (qtBuild s).nodes.length ∧ (qtBuild s).nodes.length ≤ s.par.maxNodes ∧
            (symbolTable (leafColors (qtBuild s).nodes)).length ≤ s.par.maxSymbols) ∨
      ∃ e p n, qtBody s = .err e { s with pool := p, freeIx := n } ∧ Justified s.par (qtBuild s) e := by
  have h0 : (startPool s).build.Sound (qtEnv s) (qtBuild s) :=
    BuildRun.Sound.start (qtEnv s) s.snap.maxDepth.toNat (rootRect s.cnt.satW s.cnt.satH)
  obtain ⟨h1, h2⟩ := runPool_sound h0 (poolMoves s.par)
  have hn := h2 (BuildRun.remaining_start (qtEnv s) _ _)
  obtain ⟨p, n, hp⟩ := runPool_state (qtEnv s) (poolMoves s.par) (startPool s)
  simp only [qtBody]
  generalize runPool (qtEnv s) (poolMoves s.par) (startPool s) = t at h1 hn hp
  rcases h1.ended hn with ⟨hf, h⟩ | ⟨err, hf, h⟩
  · refine .inl ⟨t.build, n, ?_, h⟩
    rw [hf]
    subst hp
    rfl
  · refine .inr ⟨err, (drainPool t).pool, n, ?_, h⟩
    rw [hf]
    subst hp
    rfl

end Sys2Proof.Machine
end

