-- ==== Sys2Proof/Laws/Invariant.lean ====
section
/-! SUPPORT. What a stage keeps of the machine's invariant: the internal memories stay as VALID promises (spec/10_state.md
R37, spec/60_exceptions.md R285), and no byte outside the external address space is stored. -/

namespace Sys2Proof.Machine

theorem Params.bounds {p : Params} (h : p.wellFormed = true) :
    p.maxPixels ≤ 8421504 ∧ p.maxTreeDepth ≤ 255 ∧ p.maxNodes ≤ 2 ^ 26 ∧ p.maxSymbols ≤ 2 ^ 24 ∧ p.maxCodeLen ≤ 64 ∧
      2 * p.maxSymbols - 1 ≤ p.maxTrieNodes ∧ 1 ≤ p.maxTrieNodes := by
  simp only [Params.wellFormed, Params.pixelsOk, Params.depthOk, Params.nodesOk, Params.symbolsOk, Params.codeLenOk,
    Params.trieOk, Bool.and_eq_true, decide_eq_true_eq] at h
  omega

/-- The tables' promise speaks of these parts of the state alone. -/
theorem State.TablesOk.congr {s t : State} (h : s.TablesOk) (hp : t.par = s.par) (hs : t.sat = s.sat)
    (hn : t.nodes = s.nodes) (hy : t.syms = s.syms) (ht : t.trie = s.trie) (hv : t.valid = s.valid)
    (hc : t.cnt.satW = s.cnt.satW ∧ t.cnt.satH = s.cnt.satH ∧ t.cnt.treeW = s.cnt.treeW ∧ t.cnt.treeH = s.cnt.treeH ∧
      t.cnt.nodeCount = s.cnt.nodeCount ∧ t.cnt.leafCount = s.cnt.leafCount ∧ t.cnt.symCount = s.cnt.symCount) :
    t.TablesOk := by
  obtain ⟨c1, c2, c3, c4, c5, c6, c7⟩ := hc
  constructor
  · rw [hv, hs, c1, c2, hp]; exact h.sat
  · rw [hv, hn, c3, c4, c5, c6, hp]; exact h.tree
  · rw [hv, c3, c4]; exact h.root
  · rw [hv, hy, c7, hp]; exact h.syms
  · rw [hv, hn, hy]; exact h.freq
  · rw [hv, hy, hp]; exact h.codes
  · rw [hv, hy]; exact h.huf
  · rw [ht, hp]; exact h.trie
  · rw [hv]; exact h.flags

/-- Two states with the same internal memories, counters, VALID bits and parameters. -/
theorem State.TablesOk.congr' {s t : State} (h : s.TablesOk) (hp : t.par = s.par) (hs : t.sat = s.sat)
    (hn : t.nodes = s.nodes) (hy : t.syms = s.syms) (ht : t.trie = s.trie) (hv : t.valid = s.valid)
    (hc : t.cnt = s.cnt) : t.TablesOk :=
  h.congr hp hs hn hy ht hv (by simp only [hc, and_self])

/-- A completion keeps the promise: it discards the trie (spec/10_state.md R55). -/
theorem State.TablesOk.completed {s : State} (h : s.TablesOk) (c : BitVec 8) (i : Word) :
    (completeWith c i s).TablesOk :=
  ⟨h.sat, h.tree, h.root, h.syms, h.freq, h.codes, h.huf, by simp, h.flags⟩

/-- A stage's start keeps the promise: it clears the bits of what it forgets (R285). -/
theorem tablesOk_startStage (k : StageId) {s : State} (hp : s.par.wellFormed = true) (h : s.TablesOk) :
    (startStage k s).TablesOk := by
  have htrie := (Params.bounds hp).2.2.2.2.2.2
  cases k
  case sat =>
    exact ⟨by simp [StageId.clearValid], h.tree, h.root, h.syms, h.freq, h.codes, h.huf, by simp, h.flags⟩
  case qt =>
    exact ⟨h.sat, by simp [StageId.clearValid], by simp [StageId.clearValid], by simp [StageId.clearValid],
      by simp [StageId.clearValid], by simp, by simp [StageId.clearValid], by simp, by simp [StageId.clearValid]⟩
  case dec =>
    exact ⟨h.sat, by simp [StageId.clearValid], by simp [StageId.clearValid], by simp [StageId.clearValid],
      by simp [StageId.clearValid], by simp, by simp [StageId.clearValid], by simpa using htrie,
      by simp [StageId.clearValid]⟩
  case huf =>
    refine ⟨h.sat, h.tree, h.root, ?_, ?_, ?_, by simp [StageId.clearValid], by simp, ?_⟩
    · intro ht
      have := h.syms ht
      simpa using this
    · intro hf
      have := h.freq hf
      simpa [Function.comp_def] using this
    · intro e he
      simp only [startStage_huf_syms, List.mem_map] at he
      obtain ⟨x, _, rfl⟩ := he
      simp [StageId.clearValid]
    · have := h.flags
      simp only [startStage_valid, StageId.clearValid] at this ⊢
      exact ⟨this.1, by simp, this.2.2⟩
  all_goals exact ⟨h.sat, h.tree, h.root, h.syms, h.freq, h.codes, h.huf, by simp, h.flags⟩

theorem le_maxCodeLen {es : List SymEntry} {x : SymEntry} (h : x ∈ es) : x.code.length ≤ maxCodeLen es := by
  have key : ∀ (es : List SymEntry) (m : Nat), m ≤ es.foldl (fun m e => max m e.code.length) m ∧
      ∀ x ∈ es, x.code.length ≤ es.foldl (fun m e => max m e.code.length) m := by
    intro es
    induction es with
    | nil => intro m; simp
    | cons e es ih =>
      intro m
      obtain ⟨h1, h2⟩ := ih (max m e.code.length)
      simp only [List.foldl_cons]
      refine ⟨by omega, ?_⟩
      intro x hx
      rcases List.mem_cons.mp hx with rfl | hx
      · omega
      · exact h2 x hx
  exact (key es 0).2 x h

theorem withCodes_length (es : List SymEntry) : (withCodes es).length = es.length := by
  simp [withCodes, hufCodes_length, symFreqs]

theorem withCodes_codes (es : List SymEntry) : (withCodes es).map (·.code) = hufCodes (symFreqs es) := by
  apply List.ext_getElem
  · simp [withCodes, hufCodes_length, symFreqs]
  · intro i h1 h2
    simp [withCodes]

theorem withCodes_getElem (es : List SymEntry) (i : Nat) (h : i < es.length) :
    (withCodes es)[i]'(by rw [withCodes_length]; exact h) =
      { es[i] with code := (hufCodes (symFreqs es))[i]'(by rw [hufCodes_length]; simpa [symFreqs] using h) } := by
  simp [withCodes]

theorem withCodes_clear (es : List SymEntry) :
    (withCodes es).map (fun e => { e with code := [] }) = es.map fun e => { e with code := [] } := by
  apply List.ext_getElem
  · simp [withCodes_length]
  · intro i h1 h2
    simp [withCodes]

theorem withCodes_freqs (es : List SymEntry) : symFreqs (withCodes es) = symFreqs es := by
  apply List.ext_getElem
  · simp [symFreqs, withCodes_length]
  · intro i h1 h2
    simp [symFreqs, withCodes]

theorem symbolTable_clear (cs : List Color) :
    (symbolTable cs).map (fun e => { e with code := [] }) = symbolTable cs := by
  have h : ∀ e ∈ symbolTable cs, e.code = [] := fun e he => ((symbolTable_spec cs).counted e he).2.1
  conv_rhs => rw [← List.map_id (symbolTable cs)]
  refine List.map_congr_left fun e he => ?_
  have := h e he
  cases e
  simp_all

theorem ofNat32_toNat {n : Nat} (h : n < 2 ^ 32) : (BitVec.ofNat 32 n).toNat = n := by
  rw [BitVec.toNat_ofNat]; exact Nat.mod_eq_of_lt h

/-! ## Bodies -/

theorem tablesOk_satBody {s : State} (h : s.TablesOk) (hc : firstFailure (satStage.checks s) = none) :
    (satBody s).state.TablesOk := by
  unfold satBody
  split
  · rw [firstFailure_eq_none] at hc
    simp only [satStage, imageChecks, imageRange, badConfig, List.mem_append, List.mem_cons, List.not_mem_nil, or_false,
      forall_eq, or_imp, forall_and] at hc
    obtain ⟨⟨h1, h2, h3⟩, _⟩ := hc
    simp only [beq_eq_false_iff_ne, ne_eq, decide_eq_false_iff_not, Nat.not_lt] at h1 h2 h3
    refine ⟨?_, h.tree, h.root, h.syms, h.freq, h.codes, h.huf, h.trie, h.flags⟩
    intro _
    simp only [StageOut.state, satDone, satTable_length]
    refine ⟨trivial, h3, ?_, ?_⟩
    · exact Nat.pos_of_ne_zero fun h0 => h1 (BitVec.eq_of_toNat_eq (by simpa using h0))
    · exact Nat.pos_of_ne_zero fun h0 => h2 (BitVec.eq_of_toNat_eq (by simpa using h0))
  · obtain ⟨n, hn⟩ := choose_state (α := Nat) ‹_› ‹_› s
    simp only [failBus, StageOut.state, hn]
    exact h.congr' rfl rfl rfl rfl rfl rfl rfl

theorem tablesOk_qtBody {s : State} (hp : s.par.wellFormed = true) (h : s.TablesOk)
    (hv : s.valid.codeV = false ∧ s.valid.treeDec = false)
    (hc : firstFailure (qtStage.checks s) = none) : (qtBody s).state.TablesOk := by
  obtain ⟨b1, b2, b3, b4, _, _⟩ := Params.bounds hp
  rcases qtBody_spec s with ⟨b, n, hb, hrec, hbad, hfreq, hcount, hcap1, hcap2⟩ | ⟨e, p, n, hb, _⟩
  · rw [firstFailure_eq_none] at hc
    simp only [qtStage, qtChecks, badConfig, badSequence, List.mem_cons, List.not_mem_nil, or_false, forall_eq_or_imp,
      forall_eq, decide_eq_false_iff_not, Nat.not_lt, Bool.not_eq_false'] at hc
    obtain ⟨hmin, hmax, _, hsat, _⟩ := hc
    obtain ⟨hlen, hpix, hw1, hh1⟩ := h.sat hsat
    have hbuilt := (qtEnv s).build_built (f := s.snap.maxDepth.toNat) (d := 0)
      (r := rootRect s.cnt.satW s.cnt.satH) hmin rfl hbad
    have hpre := (hbuilt.preOrder hmin (Nat.zero_le _)).mono (g := s.par.maxTreeDepth) (by simpa using hmax)
    have hwle : s.cnt.satW.toNat ≤ s.cnt.satW.toNat * s.cnt.satH.toNat := Nat.le_mul_of_pos_right _ hh1
    have hhle : s.cnt.satH.toNat ≤ s.cnt.satW.toNat * s.cnt.satH.toNat := Nat.le_mul_of_pos_left _ hw1
    have hleaf := leafColors_length_le (qtBuild s).nodes
    rw [hb]
    constructor
    · exact h.sat
    · intro _
      simp only [StageOut.state, qtDone, hrec, hcount]
      exact ⟨hpre, (ofNat32_toNat (n := (qtBuild s).nodes.length) (by omega)).symm, hcap1,
        (ofNat32_toNat (n := (leafColors (qtBuild s).nodes).length) (by omega)).symm⟩
    · intro _
      simp only [StageOut.state, qtDone]
      rw [BitVec.toInt_eq_toNat_of_lt (by omega), BitVec.toInt_eq_toNat_of_lt (by omega)]
      omega
    · intro _
      simp only [StageOut.state, qtDone, hfreq]
      exact ⟨(ofNat32_toNat (by omega)).symm, hcap2⟩
    · intro _
      simp only [StageOut.state, qtDone, hrec, hfreq, symbolTable_clear]
      exact symbolTable_spec _
    · intro e he
      simp only [StageOut.state, qtDone, hfreq] at he
      have hcode := ((symbolTable_spec (leafColors (qtBuild s).nodes)).counted e he).2.1
      simp [StageOut.state, qtDone, StageId.setValid, hv.1, hcode]
    · intro _ hcv
      simp [StageOut.state, qtDone, StageId.setValid, hv.1] at hcv
    · exact h.trie
    · simp [StageOut.state, qtDone, StageId.setValid, hv.1, hv.2]
  · rw [hb]
    exact h.congr' rfl rfl rfl rfl rfl rfl rfl

theorem tablesOk_hufBody {s : State} (h : s.TablesOk) (hc : firstFailure (hufStage.checks s) = none) :
    (hufBody s).state.TablesOk := by
  unfold hufBody
  split
  · exact h
  · rename_i hcap
    rw [firstFailure_eq_none] at hc
    simp only [hufStage, badSequence, List.mem_cons, List.not_mem_nil, or_false, forall_eq, Bool.not_eq_false'] at hc
    refine ⟨h.sat, h.tree, h.root, ?_, ?_, ?_, ?_, h.trie, ?_⟩
    · intro ht
      have := h.syms ht
      simpa [StageOut.state, hufDone, writeResults, withCodes_length] using this
    · intro hf
      simp only [StageOut.state, hufDone, writeResults, withCodes_clear]
      exact h.freq hf
    · intro e he
      have hm : e.code ∈ (withCodes s.syms).map (·.code) := List.mem_map_of_mem he
      rw [withCodes_codes] at hm
      have h1 := hufCodes_ne_nil hm
      have h2 := le_maxCodeLen (show e ∈ withCodes s.syms from he)
      have h3 : 1 ≤ e.code.length := by
        cases hcd : e.code with
        | nil => exact absurd hcd h1
        | cons => simp
      simp only [StageOut.state, hufDone, writeResults, StageId.setValid, if_true]
      omega
    · intro _ _
      simp only [StageOut.state, hufDone, writeResults, withCodes_codes, withCodes_freqs]
    · have := h.flags
      simp only [StageOut.state, hufDone, writeResults, StageId.setValid]
      exact ⟨this.1, fun _ => this.1 hc, this.2.2⟩

theorem tablesOk_decodeBody {s : State} (hp : s.par.wellFormed = true) (h : s.TablesOk)
    (hv : s.valid.freqV = false) : (decodeBody s).state.TablesOk := by
  obtain ⟨b1, b2, b3, b4, _, _, b5⟩ := Params.bounds hp
  unfold decodeBody
  split
  · rename_i d hd
    obtain ⟨hw, hh, hpre, hn, hs, hcodes, htrie⟩ := decodeAll_spec hd b5
    have hleaf := leafColors_length_le d.nodes
    change PreOrder s.par.maxTreeDepth 0 _ _ at hpre
    change _ ≤ s.par.maxNodes at hn
    change _ ≤ s.par.maxSymbols at hs
    change _ ≤ s.par.maxTrieNodes at htrie
    constructor
    · exact h.sat
    · intro _
      exact ⟨hpre, (ofNat32_toNat (n := d.nodes.length) (by omega)).symm, hn,
        (ofNat32_toNat (n := (leafColors d.nodes).length) (by omega)).symm⟩
    · intro _
      exact ⟨hw, hh⟩
    · intro _
      exact ⟨(ofNat32_toNat (n := d.syms.length) (by omega)).symm, hs⟩
    · intro hf
      simp [StageOut.state, decodeDone, StageId.setValid, hv] at hf
    · intro e he
      simp only [StageOut.state, decodeDone, StageId.setValid, if_true]
      exact (hcodes e he).2
    · intro hf
      simp [StageOut.state, decodeDone, StageId.setValid, hv] at hf
    · exact htrie
    · simp [StageOut.state, decodeDone, StageId.setValid, hv]
  · exact h
  · rename_i k _
    obtain ⟨n, hn⟩ := choose_state (s.snap.cntBase.toNat + k) ((decEnv s).busErrorsFrom (k + 1)) s
    simp only [failBus, StageOut.state, hn]
    exact h.congr' rfl rfl rfl rfl rfl rfl rfl

theorem storeAll_tables {ws : List Host.Cell} {s : State} {ok : State → State} (h : s.TablesOk)
    (hok : ∀ t, t.TablesOk → (ok t).TablesOk) : (storeAll ws s ok).state.TablesOk := by
  unfold storeAll
  split
  · exact hok _ (h.congr' rfl rfl rfl rfl rfl rfl rfl)
  · rename_i a as _
    obtain ⟨m, k, hm⟩ := choose_scramble a as ws s
    simp only [StageOut.state, hm]
    exact h.congr' rfl rfl rfl rfl rfl rfl rfl

/-- A stage keeps the promise of the tables, whichever way it ends. -/
theorem tablesOk_runStage (k : StageId) {s : State} (hp : s.par.wellFormed = true) (h : s.TablesOk) :
    (runStage k.stage s).state.TablesOk := by
  have h1 := tablesOk_startStage k hp h
  have hp1 : (startStage k s).par.wellFormed = true := by rw [startStage_par]; exact hp
  rcases runStage_cases k s with ⟨e, _, hr⟩ | ⟨hc, hr⟩
  · rw [hr]; exact h1
  · rw [hr]
    cases k
    case sat => exact tablesOk_satBody h1 hc
    case qt => exact tablesOk_qtBody hp1 h1 ⟨rfl, rfl⟩ hc
    case huf => exact tablesOk_hufBody h1 hc
    case dec => exact tablesOk_decodeBody hp1 h1 rfl
    case enc => exact storeAll_tables h1 fun t ht => ht.congr rfl rfl rfl rfl rfl rfl ⟨rfl, rfl, rfl, rfl, rfl, rfl, rfl⟩
    case recon => exact storeAll_tables h1 fun t ht => ht
    case regionHomog =>
      change (regionHomogBody (startStage .regionHomog s)).state.TablesOk
      unfold regionHomogBody
      split
      · exact h1.congr' rfl rfl rfl rfl rfl rfl rfl
      · rename_i a as _
        obtain ⟨n, hn⟩ := choose_state a as (startStage .regionHomog s)
        simp only [failBus, StageOut.state, hn]
        exact h1.congr' rfl rfl rfl rfl rfl rfl rfl
    all_goals exact h1.congr' rfl rfl rfl rfl rfl rfl rfl

theorem tablesOk_runStages (ks : List StageId) {s : State} (hp : s.par.wellFormed = true) (h : s.TablesOk) :
    (runStages (ks.map StageId.stage) s).state.TablesOk := by
  induction ks generalizing s with
  | nil => exact h
  | cons k ks ih =>
    have h1 := tablesOk_runStage k hp h
    have h2 := (kept_runStage k s).par
    rw [List.map_cons, runStages_cons]
    split
    · rename_i s' he
      rw [he] at h1 h2
      exact ih (by rw [show s'.par = s.par from h2]; exact hp) h1
    · rename_i e s' he
      rw [he] at h1
      exact h1

theorem tablesOk_stopPoints (ks : List StageId) {s : State} (hp : s.par.wellFormed = true) (h : s.TablesOk) :
    ∀ q ∈ stopPoints (ks.map StageId.stage) s, q.2.TablesOk := by
  induction ks generalizing s with
  | nil => intro q hq; simp [stopPoints] at hq
  | cons k ks ih =>
    intro q hq
    have h1 := tablesOk_runStage k hp h
    have h2 := (kept_runStage k s).par
    rw [List.map_cons, stopPoints, List.mem_cons] at hq
    rcases hq with rfl | hq
    · simpa using tablesOk_startStage k hp h
    · split at hq
      · rename_i s' he
        rw [he] at h1 h2
        have h2' : s'.par = s.par := h2
        exact ih (s := s') (by rw [h2']; exact hp) h1 q hq
      · simp at hq

/-! ## Addresses -/

/-- The bytes a stage may store lie in the external address space: its range check passed (spec/20_memory.md R65). -/
theorem pendingWrites_bound (k : StageId) (s : State) : ∀ c ∈ pendingWrites (k.stage, startStage k s), c.1 < addressSpace := by
  intro c hc
  unfold pendingWrites at hc
  simp only at hc
  split at hc
  · rename_i hn
    have hnone : firstFailure (k.stage.checks (startStage k s)) = none := Option.isNone_iff_eq_none.mp hn
    rw [firstFailure_eq_none] at hnone
    cases k
    case enc =>
      simp only [StageId.stage, encStage, encodeChecks, rangeCheck, badSequence, List.mem_cons, List.not_mem_nil,
        or_false, forall_eq_or_imp, forall_eq, decide_eq_false_iff_not, Nat.not_lt] at hnone
      obtain ⟨_, h2, h3⟩ := hnone
      simp only [StageId.stage, encStage, encodeWrites] at hc
      obtain ⟨i, hi, rfl⟩ := mem_cellsAt.mp hc
      rw [container_length] at hi
      simp only
      omega
    case recon =>
      simp only [StageId.stage, reconStage, reconChecks, rangeCheck, badSequence, List.mem_cons, List.not_mem_nil,
        or_false, forall_eq_or_imp, forall_eq, decide_eq_false_iff_not, Nat.not_lt] at hnone
      obtain ⟨_, h2, h3⟩ := hnone
      simp only [StageId.stage, reconStage, reconWrites] at hc
      have := (paintWrites_range hc).2
      unfold reconNeed at h3
      omega
    all_goals simp [StageId.stage, satStage, qtStage, hufStage, decStage, regionAvgStage, regionHomogStage,
      inspectSatStage, inspectNodeStage, inspectSymStage] at hc
  · simp at hc

theorem commandStores_bound (ks : List StageId) (s : State) :
    ∀ c ∈ commandStores (ks.map StageId.stage) s, c.1 < addressSpace := by
  induction ks generalizing s with
  | nil => intro c hc; simp [commandStores, stopPoints] at hc
  | cons k ks ih =>
    intro c hc
    rw [List.map_cons, commandStores_cons, List.mem_append] at hc
    rcases hc with hc | hc
    · exact pendingWrites_bound k s c hc
    · split at hc
      · exact ih _ c hc
      · simp at hc

/-! ## STAGE -/

theorem stageCode_le (k : StageId) : k.code.toNat ≤ 7 := by cases k <;> decide

theorem stage_body (k : StageId) (s : State) : (k.stage.body s).state.status = s.status := by
  have hs : ∀ (ws : List Host.Cell) (ok : State → State), (∀ t, (ok t).status = t.status) →
      (storeAll ws s ok).state.status = s.status := by
    intro ws ok hok
    unfold storeAll
    split
    · simp only [StageOut.state, hok]
    · rename_i a as _
      obtain ⟨m, k, hm⟩ := choose_scramble a as ws s
      simp only [StageOut.state, hm]
  have hf : ∀ a as, (failBus a as s).state.status = s.status := by
    intro a as
    obtain ⟨n, hn⟩ := choose_state a as s
    simp only [failBus, StageOut.state, hn]
  cases k
  case sat =>
    change (satBody s).state.status = s.status
    unfold satBody
    split
    · rfl
    · exact hf _ _
  case qt =>
    change (qtBody s).state.status = s.status
    rcases qtBody_state s with ⟨b, n, h⟩ | ⟨e, p, n, h⟩ <;> rw [h] <;> rfl
  case huf =>
    change (hufBody s).state.status = s.status
    unfold hufBody
    split <;> rfl
  case enc => exact hs _ _ fun _ => rfl
  case dec =>
    change (decodeBody s).state.status = s.status
    unfold decodeBody
    split
    · rfl
    · rfl
    · exact hf _ _
  case recon => exact hs _ _ fun _ => rfl
  case regionHomog =>
    change (regionHomogBody s).state.status = s.status
    unfold regionHomogBody
    split
    · rfl
    · exact hf _ _
  all_goals rfl

/-- STAGE after a stage is the stage's code (spec/10_state.md R24). -/
theorem stage_runStage (k : StageId) (s : State) : (runStage k.stage s).state.status = { s.status with stage := k.code } := by
  rcases runStage_cases k s with ⟨e, _, hr⟩ | ⟨_, hr⟩
  · rw [hr]; exact startStage_status k s
  · rw [hr, stage_body]; exact startStage_status k s

theorem stage_runStages (ks : List StageId) (s : State) (h : s.status.stage.toNat ≤ 7) :
    (runStages (ks.map StageId.stage) s).state.status.stage.toNat ≤ 7 := by
  induction ks generalizing s with
  | nil => exact h
  | cons k ks ih =>
    have h1 := stage_runStage k s
    rw [List.map_cons, runStages_cons]
    split
    · rename_i s' he
      rw [he] at h1
      exact ih s' (by rw [show s'.status = _ from h1]; exact stageCode_le k)
    · rename_i e s' he
      rw [he] at h1
      simp only [StageOut.state] at h1 ⊢
      rw [h1]
      exact stageCode_le k

theorem stage_stopPoints (ks : List StageId) (s : State) :
    ∀ q ∈ stopPoints (ks.map StageId.stage) s, q.2.status.stage.toNat ≤ 7 := by
  induction ks generalizing s with
  | nil => intro q hq; simp [stopPoints] at hq
  | cons k ks ih =>
    intro q hq
    rw [List.map_cons, stopPoints, List.mem_cons] at hq
    rcases hq with rfl | hq
    · simp only [stage_id, startStage_status]
      exact stageCode_le k
    · split at hq
      · exact ih _ q hq
      · simp at hq

end Sys2Proof.Machine
end

