-- ==== Sys2Proof/Laws/PerInstr.lean ====
section
/-! SUPPORT. The family of statements made per command: the decoder reads a command's word as that command
(spec/30_encoding.md R91, R92). -/

/-- The decoder reads the word of `i` as `i`. -/
def Sys2Proof.Laws.DecodeEncode.Statement (i : Sys2Proof.Instr) : Prop := Sys2Proof.decode (Sys2Proof.encode i) = .ok i

namespace Sys2Proof.Laws.DecodeEncode

theorem nop : Statement .nop := rfl

theorem satBuild : Statement .satBuild := rfl

theorem regionAvg : Statement .regionAvg := rfl

theorem regionHomog : Statement .regionHomog := rfl

theorem qtBuild : Statement .qtBuild := rfl

theorem hufBuild : Statement .hufBuild := rfl

theorem encode : Statement .encode := rfl

theorem decode : Statement .decode := rfl

theorem reconstruct : Statement .reconstruct := rfl

theorem compress : Statement .compress := rfl

theorem decompress : Statement .decompress := rfl

theorem inspectSat : Statement .inspectSat := rfl

theorem inspectNode : Statement .inspectNode := rfl

theorem inspectSym : Statement .inspectSym := rfl

theorem abort : Statement .abort := rfl

theorem softReset : Statement .softReset := rfl

end Sys2Proof.Laws.DecodeEncode
end

