-- ==== Sys2Proof/Laws/Trie.lean ====
section
/-! SUPPORT. The decoder trie (spec/43_bitstream.md R222): planting a prefix-free set of codes succeeds, and walking a
planted code from the root ends at its colour (R225, R228). -/

namespace Sys2Proof.Machine

/-- The arena `trie` is the trie whose node i stands at path `ps[i]`, with the codes `done` planted. -/
structure TrieRep (trie : List TrieNode) (ps : List (List Bool)) (done : List (List Bool × Color)) : Prop where
  len : ps.length = trie.length
  nodup : ps.Nodup
  root : ps[0]? = some []
  closed : ∀ x b, x ++ [b] ∈ ps → x ∈ ps
  child : ∀ (i : Nat) (p : List Bool) (b : Bool) (j : Nat), ps[i]? = some p → (trieChild (trieAt trie i) b = some j ↔ ps[j]? = some (p ++ [b]))
  color : ∀ (i : Nat) (p : List Bool) (c : Color), ps[i]? = some p → ((trieAt trie i).color = some c ↔ (p, c) ∈ done)
  planted : ∀ x ∈ done, x.1 ∈ ps

theorem trieChild_withChild_same (n : TrieNode) (b : Bool) (i : Nat) : trieChild (trieWithChild n b i) b = some i := by
  cases b <;> rfl

theorem trieChild_withChild_ne (n : TrieNode) {b b' : Bool} (h : b' ≠ b) (i : Nat) :
    trieChild (trieWithChild n b i) b' = trieChild n b' := by
  cases b <;> cases b' <;> first | exact absurd rfl h | rfl

theorem trieWithChild_color (n : TrieNode) (b : Bool) (i : Nat) : (trieWithChild n b i).color = n.color := by
  cases b <;> rfl

theorem trieAt_set_same {trie : List TrieNode} {t : Nat} (h : t < trie.length) (n : TrieNode) :
    trieAt (trie.set t n) t = n := by
  simp [trieAt, h]

theorem trieAt_set_ne {trie : List TrieNode} {t i : Nat} (h : i ≠ t) (n : TrieNode) :
    trieAt (trie.set t n) i = trieAt trie i := by
  simp [trieAt, List.getElem?_set_ne (Ne.symm h)]

theorem trieAt_append_lt {trie us : List TrieNode} {i : Nat} (h : i < trie.length) :
    trieAt (trie ++ us) i = trieAt trie i := by
  simp [trieAt, List.getElem?_append_left h]

theorem trieAt_append_new (trie : List TrieNode) (n : TrieNode) : trieAt (trie ++ [n]) trie.length = n := by
  simp [trieAt]

theorem trieChild_empty (b : Bool) : trieChild ⟨none, none, none⟩ b = none := by cases b <;> rfl

theorem TrieRep.index {trie : List TrieNode} {ps : List (List Bool)} {done : List (List Bool × Color)}
    (h : TrieRep trie ps done) {i j : Nat} {p : List Bool} (hi : ps[i]? = some p) (hj : ps[j]? = some p) : i = j := by
  obtain ⟨h1, e1⟩ := List.getElem?_eq_some_iff.mp hi
  obtain ⟨h2, e2⟩ := List.getElem?_eq_some_iff.mp hj
  exact (h.nodup.getElem_inj_iff).mp (e1.trans e2.symm)

/-- The trie of R220: its root alone. -/
theorem TrieRep.init : TrieRep [⟨none, none, none⟩] [[]] [] := by
  refine ⟨rfl, by simp, rfl, by simp, ?_, ?_, by simp⟩
  · intro i p b j hi
    have : i = 0 := by
      obtain ⟨h, _⟩ := List.getElem?_eq_some_iff.mp hi
      simpa using h
    subst this
    have hc : trieChild (trieAt [⟨none, none, none⟩] 0) b = none := by cases b <;> rfl
    rw [hc]
    refine ⟨by simp, fun hj => ?_⟩
    have := List.mem_of_getElem? hj
    simp at this
  · intro i p c hi
    have : i = 0 := by
      obtain ⟨h, _⟩ := List.getElem?_eq_some_iff.mp hi
      simpa using h
    subst this
    simp [trieAt]

/-- A code planted at an existing node. -/
theorem TrieRep.setColor {trie : List TrieNode} {ps : List (List Bool)} {done : List (List Bool × Color)}
    (h : TrieRep trie ps done) {t : Nat} {p : List Bool} (ht : ps[t]? = some p) (hp : ∀ c, (p, c) ∉ done) (col : Color) :
    TrieRep (trie.set t { trieAt trie t with color := some col }) ps ((p, col) :: done) := by
  have htl : t < trie.length := by
    obtain ⟨h1, _⟩ := List.getElem?_eq_some_iff.mp ht
    rw [← h.len]; exact h1
  refine ⟨by simpa using h.len, h.nodup, h.root, h.closed, ?_, ?_, ?_⟩
  · intro i q b j hi
    by_cases hit : i = t
    · subst hit
      rw [trieAt_set_same htl]
      have : trieChild { trieAt trie i with color := some col } b = trieChild (trieAt trie i) b := by cases b <;> rfl
      rw [this]
      exact h.child i q b j hi
    · rw [trieAt_set_ne hit]
      exact h.child i q b j hi
  · intro i q c hi
    by_cases hit : i = t
    · subst hit
      rw [trieAt_set_same htl]
      have hqp : q = p := by rw [hi] at ht; exact Option.some.inj ht
      subst hqp
      simp only [Option.some.injEq, List.mem_cons, Prod.mk.injEq, true_and]
      exact ⟨fun hc => .inl hc.symm, fun hc => hc.elim Eq.symm fun hm => absurd hm (hp c)⟩
    · rw [trieAt_set_ne hit, h.color i q c hi]
      have hqp : q ≠ p := fun he => hit (h.index hi (he ▸ ht))
      simp [hqp]
  · intro x hx
    rcases List.mem_cons.mp hx with rfl | hx
    · exact List.mem_of_getElem? ht
    · exact h.planted x hx

/-- A new node at the end of a path. -/
theorem TrieRep.newNode {trie : List TrieNode} {ps : List (List Bool)} {done : List (List Bool × Color)}
    (h : TrieRep trie ps done) {t : Nat} {p : List Bool} {b : Bool} (ht : ps[t]? = some p) (hb : p ++ [b] ∉ ps) :
    TrieRep (trie.set t (trieWithChild (trieAt trie t) b trie.length) ++ [⟨none, none, none⟩]) (ps ++ [p ++ [b]]) done := by
  have htl : t < trie.length := by
    obtain ⟨h1, _⟩ := List.getElem?_eq_some_iff.mp ht
    rw [← h.len]; exact h1
  have hlen := h.len
  -- where an entry of the extended path list stands
  have hidx : ∀ {j : Nat} {q : List Bool}, (ps ++ [p ++ [b]])[j]? = some q ↔
      ps[j]? = some q ∨ (j = ps.length ∧ q = p ++ [b]) := by
    intro j q
    rcases Nat.lt_trichotomy j ps.length with hj | hj | hj
    · rw [List.getElem?_append_left hj]
      exact ⟨.inl, fun hh => hh.elim id fun hh => absurd hh.1 (by omega)⟩
    · subst hj
      simp [eq_comm]
    · rw [List.getElem?_append_right (by omega)]
      have h1 : ps[j]? = none := List.getElem?_eq_none (by omega)
      have h2 : ([p ++ [b]] : List (List Bool))[j - ps.length]? = none := List.getElem?_eq_none (by simp; omega)
      rw [h1, h2]
      simp
      omega
  refine ⟨by simp [hlen], ?_, ?_, ?_, ?_, ?_, ?_⟩
  · rw [List.nodup_append']
    exact ⟨h.nodup, by simp, by simpa using hb⟩
  · rw [List.getElem?_append_left (by omega)]
    exact h.root
  · intro x b' hx
    rcases List.mem_append.mp hx with hx | hx
    · exact List.mem_append_left _ (h.closed x b' hx)
    · rw [List.mem_singleton] at hx
      have : x = p := (List.append_inj' hx rfl).1
      rw [this]
      exact List.mem_append_left _ (List.mem_of_getElem? ht)
  · intro i q b' j hi
    rcases hidx.mp hi with hold | ⟨hnewIx, rfl⟩
    · have hil : i < trie.length := by
        obtain ⟨h1, _⟩ := List.getElem?_eq_some_iff.mp hold
        omega
      rw [trieAt_append_lt (by simpa using hil), hidx]
      by_cases hit : i = t
      · subst hit
        rw [trieAt_set_same hil]
        have hqp : q = p := by rw [hold] at ht; exact Option.some.inj ht
        subst hqp
        by_cases hbb : b' = b
        · subst hbb
          rw [trieChild_withChild_same]
          constructor
          · intro hj; exact .inr ⟨by rw [hlen]; exact (Option.some.inj hj).symm, rfl⟩
          · rintro (hj | ⟨hj, _⟩)
            · exact absurd (List.mem_of_getElem? hj) hb
            · rw [hj, hlen]
        · rw [trieChild_withChild_ne _ hbb, h.child i q b' j hold]
          exact ⟨.inl, fun hh => hh.elim id fun hh => absurd (by simpa using hh.2) hbb⟩
      · rw [trieAt_set_ne hit, h.child i q b' j hold]
        refine ⟨.inl, fun hh => hh.elim id fun hh => ?_⟩
        have : q = p := (List.append_inj' hh.2 rfl).1
        exact absurd (h.index hold (this ▸ ht)) hit
    · subst hnewIx
      have hnew : trieAt (trie.set t (trieWithChild (trieAt trie t) b trie.length) ++ [⟨none, none, none⟩])
          trie.length = ⟨none, none, none⟩ := by
        have := trieAt_append_new (trie.set t (trieWithChild (trieAt trie t) b trie.length)) ⟨none, none, none⟩
        rwa [List.length_set] at this
      rw [hlen]
      rw [hnew, trieChild_empty, hidx]
      refine ⟨by simp, ?_⟩
      rintro (hj | ⟨_, hj⟩)
      · exact absurd (h.closed _ _ (List.mem_of_getElem? hj)) hb
      · have := congrArg List.length hj
        simp at this
  · intro i q c hi
    rcases hidx.mp hi with hold | ⟨hnewIx, rfl⟩
    · have hil : i < trie.length := by
        obtain ⟨h1, _⟩ := List.getElem?_eq_some_iff.mp hold
        omega
      rw [trieAt_append_lt (by simpa using hil)]
      by_cases hit : i = t
      · subst hit
        rw [trieAt_set_same hil, trieWithChild_color]
        exact h.color i q c hold
      · rw [trieAt_set_ne hit]
        exact h.color i q c hold
    · subst hnewIx
      have hnew : trieAt (trie.set t (trieWithChild (trieAt trie t) b trie.length) ++ [⟨none, none, none⟩])
          trie.length = ⟨none, none, none⟩ := by
        have := trieAt_append_new (trie.set t (trieWithChild (trieAt trie t) b trie.length)) ⟨none, none, none⟩
        rwa [List.length_set] at this
      rw [hlen]
      rw [hnew]
      exact ⟨by simp, fun hm => absurd (h.planted _ hm) hb⟩
  · intro x hx
    exact List.mem_append_left _ (h.planted x hx)

/-- Planting a code succeeds where no planted code begins it, it begins no node's path properly, and the paths fit the
capacity (R222). -/
theorem plant_ok {q : Params} {off : Nat} {col : Color} {T : List (List Bool)} (hT : T.length ≤ q.maxTrieNodes)
    {code : List Bool} (hcode : ∀ x, x <+: code → x ∈ T) :
    ∀ (bs : List Bool) (t : Nat) (p : List Bool) (trie : List TrieNode) (ps : List (List Bool))
      (done : List (List Bool × Color)),
      TrieRep trie ps done → ps[t]? = some p → code = p ++ bs → (∀ x ∈ done, ¬x.1 <+: code) →
      (∀ b, code ++ [b] ∉ ps) → (∀ x ∈ ps, x ∈ T) →
      ∃ trie' ps', plant q off col bs t trie = .ok trie' ∧ TrieRep trie' ps' ((code, col) :: done) ∧
        ∀ x ∈ ps', x ∈ ps ∨ x <+: code := by
  intro bs
  induction bs with
  | nil =>
    intro t p trie ps done h ht hc ha hb hps
    rw [List.append_nil] at hc
    subst hc
    have hnot : ∀ c, (code, c) ∉ done := fun c hm => ha _ hm (List.prefix_refl _)
    have hcol : (trieAt trie t).color = none := by
      cases hcc : (trieAt trie t).color with
      | none => rfl
      | some c => exact absurd ((h.color t code c ht).mp hcc) (hnot c)
    have hch : ∀ b, trieChild (trieAt trie t) b = none := by
      intro b
      cases hcc : trieChild (trieAt trie t) b with
      | none => rfl
      | some j => exact absurd (List.mem_of_getElem? ((h.child t code b j ht).mp hcc)) (hb b)
    have hl : (trieAt trie t).left = none := hch false
    have hr : (trieAt trie t).right = none := hch true
    refine ⟨_, ps, ?_, h.setColor ht hnot col, fun x hx => .inl hx⟩
    simp [plant, hcol, hl, hr]
  | cons b bs ih =>
    intro t p trie ps done h ht hc ha hb hps
    have hpc : p <+: code := hc ▸ List.prefix_append _ _
    have hpb : p ++ [b] <+: code := by rw [hc]; exact ⟨bs, by simp⟩
    have hcol : (trieAt trie t).color = none := by
      cases hcc : (trieAt trie t).color with
      | none => rfl
      | some c => exact absurd hpc (ha _ ((h.color t p c ht).mp hcc))
    have hc' : code = (p ++ [b]) ++ bs := by rw [hc]; simp
    cases hcc : trieChild (trieAt trie t) b with
    | some u =>
      obtain ⟨trie', ps', h1, h2, h3⟩ := ih u (p ++ [b]) trie ps done h ((h.child t p b u ht).mp hcc) hc' ha hb hps
      refine ⟨trie', ps', ?_, h2, h3⟩
      simp [plant, hcol, hcc, h1]
    | none =>
      have hnb : p ++ [b] ∉ ps := by
        intro hm
        obtain ⟨j, hj⟩ := List.getElem?_of_mem hm
        rw [(h.child t p b j ht).mpr hj] at hcc
        exact absurd hcc (by simp)
      have hn := h.newNode ht hnb
      have hps' : ∀ x ∈ ps ++ [p ++ [b]], x ∈ T := by
        intro x hx
        rcases List.mem_append.mp hx with hx | hx
        · exact hps x hx
        · rw [List.mem_singleton] at hx; subst hx; exact hcode _ hpb
      have hcap : trie.length < q.maxTrieNodes := by
        have h1 := (List.Nodup.subperm hn.nodup fun x hx => hps' x hx).length_le
        simp only [List.length_append, List.length_singleton] at h1
        have := h.len
        omega
      have hnew : (ps ++ [p ++ [b]])[trie.length]? = some (p ++ [b]) := by rw [← h.len]; simp
      have hb' : ∀ b', code ++ [b'] ∉ ps ++ [p ++ [b]] := by
        intro b' hm
        rcases List.mem_append.mp hm with hm | hm
        · exact hb b' hm
        · rw [List.mem_singleton] at hm
          have hl := congrArg List.length hm
          have hl2 := hpb.length_le
          simp at hl hl2
          omega
      obtain ⟨trie', ps', h1, h2, h3⟩ := ih trie.length (p ++ [b]) _ _ done hn hnew hc' ha hb' hps'
      refine ⟨trie', ps', ?_, h2, ?_⟩
      · simp [plant, hcol, hcc, Nat.not_le.mpr hcap, h1]
      · intro x hx
        rcases h3 x hx with h3 | h3
        · rcases List.mem_append.mp h3 with h3 | h3
          · exact .inl h3
          · rw [List.mem_singleton] at h3; subst h3; exact .inr hpb
        · exact .inr h3

/-! ## Walking -/

/-- The bits of the container from a cursor on. -/
def ReadsBits (e : DecEnv) (pos : Nat) (bits : List Bool) : Prop :=
  ∀ i (h : i < bits.length), e.readBit (pos + i) = .ok bits[i]

theorem ReadsBits.append {e : DecEnv} {pos : Nat} {as bs : List Bool} (h : ReadsBits e pos (as ++ bs)) :
    ReadsBits e pos as ∧ ReadsBits e (pos + as.length) bs := by
  constructor
  · intro i hi
    have := h i (by simp; omega)
    rwa [List.getElem_append_left hi] at this
  · intro i hi
    have := h (as.length + i) (by simp; omega)
    rw [List.getElem_append_right (by omega)] at this
    simpa [Nat.add_assoc] using this

theorem ReadsBits.head {e : DecEnv} {pos : Nat} {b : Bool} {bs : List Bool} (h : ReadsBits e pos (b :: bs)) :
    e.readBit pos = .ok b ∧ ReadsBits e (pos + 1) bs := by
  refine ⟨h 0 (by simp), fun i hi => ?_⟩
  have := h (i + 1) (by simpa using hi)
  simpa [Nat.add_assoc, Nat.add_comm 1 i] using this

/-- Walking a planted code ends at its colour: no other planted code begins it (R225, R228). -/
theorem walk_ok {e : DecEnv} {trie : List TrieNode} {ps : List (List Bool)} {done : List (List Bool × Color)}
    (h : TrieRep trie ps done) (hd : ∀ x ∈ done, ∀ y ∈ done, x.1 <+: y.1 → x = y) {code : List Bool} {c : Color}
    (hm : (code, c) ∈ done) :
    ∀ (bs : List Bool) (n pos t : Nat) (p : List Bool), bs ≠ [] → ps[t]? = some p → code = p ++ bs → bs.length ≤ n →
      ReadsBits e pos bs → e.walk trie n pos t = .ok (c, pos + bs.length) := by
  have hprefix : ∀ x, x <+: code → x ∈ ps := by
    intro x hx
    obtain ⟨r, rfl⟩ := hx
    have hmem := h.planted _ hm
    clear hm
    induction r using List.reverseRecOn with
    | nil => simpa using hmem
    | append_singleton r b ih =>
      refine ih ?_
      have : x ++ (r ++ [b]) = (x ++ r) ++ [b] := by simp
      rw [this] at hmem
      exact h.closed _ _ hmem
  intro bs
  induction bs with
  | nil => intro n pos t p hne; exact absurd rfl hne
  | cons b bs ih =>
    intro n pos t p _ ht hc hn hr
    obtain ⟨n', rfl⟩ : ∃ n', n = n' + 1 := ⟨n - 1, by simp at hn; omega⟩
    obtain ⟨hb, hr'⟩ := hr.head
    have hpb : p ++ [b] <+: code := by rw [hc]; exact ⟨bs, by simp⟩
    obtain ⟨u, hu⟩ := List.getElem?_of_mem (hprefix _ hpb)
    have hchild := (h.child t p b u ht).mpr hu
    simp only [DecEnv.walk, hb, hchild, bind, Except.bind]
    cases hbs : bs with
    | nil =>
      have hcode : code = p ++ [b] := by rw [hc, hbs]
      have hcol := (h.color u (p ++ [b]) c hu).mpr (hcode ▸ hm)
      simp [hcol, pure, Except.pure]
    | cons b' bs' =>
      have hcol : (trieAt trie u).color = none := by
        cases hcc : (trieAt trie u).color with
        | none => rfl
        | some c' =>
          have hm' := (h.color u (p ++ [b]) c' hu).mp hcc
          have he := hd _ hm' _ hm hpb
          have hl := congrArg (fun x => x.1.length) he
          rw [hc, hbs] at hl
          simp at hl
      rw [hcol]
      have := ih n' (pos + 1) u (p ++ [b]) (by rw [hbs]; simp) hu (by rw [hc]; simp) (by simp at hn; omega) hr'
      simp only [this, hbs]
      simp
      omega

end Sys2Proof.Machine
end

