-- ==== Sys2Proof/Laws/RoundTrip.lean ====
section
/-! SUPPORT. Decoding a container that ENCODE wrote (spec/43_bitstream.md R227): each field is read back as it was
written. -/

namespace Sys2Proof.Machine

/-- The container holds these bytes from an offset on. -/
def Reads (e : DecEnv) (off : Nat) (bs : List Byte) : Prop :=
  ∀ i (h : i < bs.length), e.byteAt (off + i) = .ok bs[i]

theorem Reads.append {e : DecEnv} {off : Nat} {as bs : List Byte} (h : Reads e off (as ++ bs)) :
    Reads e off as ∧ Reads e (off + as.length) bs := by
  constructor
  · intro i hi
    have := h i (by simp; omega)
    rwa [List.getElem_append_left hi] at this
  · intro i hi
    have := h (as.length + i) (by simp; omega)
    rw [List.getElem_append_right (by omega)] at this
    simpa [Nat.add_assoc] using this

theorem Reads.head {e : DecEnv} {off : Nat} {b : Byte} {bs : List Byte} (h : Reads e off (b :: bs)) :
    e.byteAt off = .ok b ∧ Reads e (off + 1) bs := by
  refine ⟨h 0 (by simp), fun i hi => ?_⟩
  have := h (i + 1) (by simpa using hi)
  simpa [Nat.add_assoc, Nat.add_comm 1 i] using this

theorem bytesAt_ok {e : DecEnv} {off : Nat} {bs : List Byte} (h : Reads e off bs) : e.bytesAt off bs.length = .ok bs := by
  induction bs generalizing off with
  | nil => rfl
  | cons b bs ih =>
    obtain ⟨h1, h2⟩ := h.head
    simp [DecEnv.bytesAt, h1, ih h2, bind, Except.bind, pure, Except.pure]

theorem wordAt_ok {e : DecEnv} {off : Nat} {v : Word} (h : Reads e off (s32be v)) : e.wordAt off = .ok v := by
  have h0 := h 0 (by simp)
  have h1 := h 1 (by simp)
  have h2 := h 2 (by simp)
  have h3 := h 3 (by simp)
  simp only [s32be, List.getElem_cons_zero, List.getElem_cons_succ, Nat.add_zero] at h0 h1 h2 h3
  simp only [DecEnv.wordAt, h0, h1, h2, h3, bind, Except.bind, pure, Except.pure, wordOfBytes_s32be]

/-- The packed bits are read back one by one (R211). -/
theorem readsBits_of_packBits {e : DecEnv} {off : Nat} {bits : List Bool} (h : Reads e off (packBits bits)) :
    ReadsBits e (8 * off) bits := by
  intro i hi
  have h8 : i / 8 < (packBits bits).length := by rw [packBits_length]; unfold ceil8; omega
  have hb := h (i / 8) h8
  unfold DecEnv.readBit
  have e1 : (8 * off + i) / 8 = off + i / 8 := by omega
  have e2 : (8 * off + i) % 8 = i % 8 := by omega
  rw [e1, e2, hb]
  have := bit_of_packBits bits i hi
  rw [List.getD_eq_getElem _ _ h8] at this
  simp [bind, Except.bind, pure, Except.pure, this]

/-! ## The header and the code table -/

theorem parseHeader_ok {e : DecEnv} {w h n : Word} (hr : Reads e 0 (s32be w ++ s32be h ++ s32be n)) (hw : 0 < w.toInt)
    (hh : 0 < h.toInt) (hn : 0 ≤ n.toInt) (hm : n.toNat ≤ e.par.maxSymbols) : e.parseHeader = .ok (w, h, n.toNat) := by
  obtain ⟨h12, h3⟩ := hr.append
  obtain ⟨h1, h2⟩ := h12.append
  simp only [DecEnv.parseHeader, wordAt_ok h1, bind, Except.bind]
  have e2 := wordAt_ok h2
  have e3 := wordAt_ok h3
  simp only [s32be_length, List.length_append] at e2 e3
  norm_num at e2 e3
  rw [if_neg (by omega), e2]
  simp only
  rw [if_neg (by omega), e3]
  simp only
  rw [if_neg (by omega), if_neg (by omega)]
  rfl

/-- What a decoded symbol table holds of an encoded one: the same colours and codes, no frequencies (R226). -/
def decodedSym (x : SymEntry) : SymEntry := { x with freq := 0 }

theorem parseEntry_ok {e : DecEnv} {off : Nat} {trie trie' : List TrieNode} {x : SymEntry}
    (hr : Reads e off (entryBytes x)) (h1 : 1 ≤ x.code.length) (h2 : x.code.length ≤ e.par.maxCodeLen)
    (h3 : x.code.length < 65536) (hp : plant e.par off x.color x.code 0 trie = .ok trie') :
    e.parseEntry off trie = .ok (decodedSym x, trie', off + (entryBytes x).length) := by
  obtain ⟨hr1, hr2⟩ := hr.append
  obtain ⟨hr0, hr1⟩ := hr1.append
  have b0 := hr0 0 (by simp)
  have b1 := hr0 1 (by simp)
  have b2 := hr0 2 (by simp)
  have l1 := hr1 0 (by simp)
  have l0 := hr1 1 (by simp)
  have hbytes := bytesAt_ok hr2
  rw [packBits_length] at hbytes
  simp only [u16be, List.length_cons, List.length_nil, List.length_append, List.getElem_cons_zero,
    List.getElem_cons_succ, Nat.add_zero, Nat.reduceAdd] at b0 b1 b2 l1 l0 hbytes
  rw [Nat.add_assoc] at l0
  norm_num at l0
  have hlen := u16be_value x.code.length h3
  simp only [DecEnv.parseEntry, b0, b1, b2, l1, l0, bind, Except.bind, hlen]
  rw [if_neg (by omega), if_neg (by omega), hbytes]
  simp only [unpackBits_packBits]
  rw [show (⟨x.color.r, x.color.g, x.color.b⟩ : Color) = x.color from rfl, hp]
  simp [pure, Except.pure, decodedSym, entryBytes_length, Nat.add_assoc]

/-- The codes of a table may be planted one after another (R222). -/
theorem parseEntries_ok {e : DecEnv} {T : List (List Bool)} (hT : T.length ≤ e.par.maxTrieNodes) :
    ∀ (es : List SymEntry) (off : Nat) (trie : List TrieNode) (ps : List (List Bool)) (done : List (List Bool × Color)),
      Reads e off (es.flatMap entryBytes) → TrieRep trie ps done →
      (∀ x ∈ es, 1 ≤ x.code.length ∧ x.code.length ≤ e.par.maxCodeLen ∧ x.code.length < 65536 ∧
        ∀ p, p <+: x.code → p ∈ T) →
      (es.map (·.code)).Pairwise (fun a b => ¬a <+: b ∧ ¬b <+: a) →
      (∀ d ∈ done, ∀ x ∈ es, ¬d.1 <+: x.code ∧ ¬x.code <+: d.1) →
      (∀ p ∈ ps, p ∈ T ∧ (p = [] ∨ ∃ d ∈ done, p <+: d.1)) →
      ∃ trie' ps' done', e.parseEntries es.length off trie =
          .ok (es.map decodedSym, trie', off + (es.flatMap entryBytes).length) ∧
        TrieRep trie' ps' done' ∧ (∀ d, d ∈ done' ↔ d ∈ done ∨ ∃ x ∈ es, d = (x.code, x.color)) := by
  intro es
  induction es with
  | nil =>
    intro off trie ps done _ h _ _ _ _
    exact ⟨trie, ps, done, rfl, h, by simp⟩
  | cons x es ih =>
    intro off trie ps done hr h hx hpw hd hps
    rw [List.flatMap_cons] at hr
    obtain ⟨hr1, hr2⟩ := hr.append
    obtain ⟨x1, x2, x3, x4⟩ := hx x (by simp)
    rw [List.map_cons, List.pairwise_cons] at hpw
    have hb : ∀ b, x.code ++ [b] ∉ ps := by
      intro b hm
      rcases (hps _ hm).2 with he | ⟨d, hdm, hpre⟩
      · simp at he
      · exact (hd d hdm x (by simp)).2 ((List.prefix_append _ _).trans hpre)
    obtain ⟨t1, ps1, hp1, hrep1, hps1⟩ := plant_ok (q := e.par) (off := off) (col := x.color) hT x4 x.code 0 [] trie ps done
      h h.root (by simp) (fun d hdm => (hd d hdm x (by simp)).1) hb (fun p hp => (hps p hp).1)
    have hentry := parseEntry_ok hr1 x1 x2 x3 hp1
    have hps1' : ∀ p ∈ ps1, p ∈ T ∧ (p = [] ∨ ∃ d ∈ (x.code, x.color) :: done, p <+: d.1) := by
      intro p hp
      rcases hps1 p hp with hp | hp
      · refine ⟨(hps p hp).1, (hps p hp).2.imp id ?_⟩
        rintro ⟨d, hdm, hpre⟩
        exact ⟨d, by simp [hdm], hpre⟩
      · exact ⟨x4 p hp, .inr ⟨_, List.mem_cons_self, hp⟩⟩
    have hd1 : ∀ d ∈ (x.code, x.color) :: done, ∀ y ∈ es, ¬d.1 <+: y.code ∧ ¬y.code <+: d.1 := by
      intro d hdm y hy
      rcases List.mem_cons.mp hdm with rfl | hdm
      · exact hpw.1 y.code (List.mem_map_of_mem hy)
      · exact hd d hdm y (by simp [hy])
    obtain ⟨t2, ps2, done2, hp2, hrep2, hdone2⟩ := ih (off + (entryBytes x).length) t1 ps1 _ hr2 hrep1
      (fun y hy => hx y (by simp [hy])) hpw.2 hd1 hps1'
    refine ⟨t2, ps2, done2, ?_, hrep2, ?_⟩
    · simp only [List.length_cons, DecEnv.parseEntries, hentry, hp2, bind, Except.bind, pure, Except.pure, List.map_cons,
        List.flatMap_cons, List.length_append, Nat.add_assoc]
    · intro d
      rw [hdone2]
      simp only [List.mem_cons]
      constructor
      · rintro ((rfl | h) | ⟨y, hy, rfl⟩)
        · exact .inr ⟨x, .inl rfl, rfl⟩
        · exact .inl h
        · exact .inr ⟨y, .inr hy, rfl⟩
      · rintro (h | ⟨y, rfl | hy, rfl⟩)
        · exact .inl (.inr h)
        · exact .inl (.inl rfl)
        · exact .inr ⟨y, hy, rfl⟩

/-! ## The payload -/

theorem payload_append (es : List SymEntry) (ms ns : List NodeRec) :
    payload es (ms ++ ns) = payload es ms ++ payload es ns := by simp [payload]

/-- The payload of a tree decodes to the tree (R225, R227). -/
theorem decodeNode_ok {e : DecEnv} {trie : List TrieNode} {ps : List (List Bool)} {done : List (List Bool × Color)}
    (hrep : TrieRep trie ps done) (hd : ∀ x ∈ done, ∀ y ∈ done, x.1 <+: y.1 → x = y) {es : List SymEntry} {f d : Nat}
    {r : Rect} {ns : List NodeRec} (h : PreOrder f d r ns)
    (hc : ∀ c ∈ leafColors ns, (codeFor es c, c) ∈ done ∧ codeFor es c ≠ []) {pos cnt : Nat}
    (hr : ReadsBits e pos (payload es ns)) (hlen : pos + (payload es ns).length ≤ 8 * e.len)
    (hcnt : cnt + ns.length ≤ e.par.maxNodes) :
    e.decodeNode trie f d r pos cnt = .ok (ns, pos + (payload es ns).length) := by
  have hleaf : ∀ (c : Color) (d : Nat) (r : Rect) (pos cnt : Nat), (codeFor es c, c) ∈ done → codeFor es c ≠ [] →
      ReadsBits e pos (true :: codeFor es c) → pos + (true :: codeFor es c).length ≤ 8 * e.len →
      cnt + 1 ≤ e.par.maxNodes →
      e.readBit pos = .ok true ∧ e.decodeLeaf trie d r (pos + 1) cnt =
        .ok ([NodeRec.ofRect (.leaf c) d r], pos + (true :: codeFor es c).length) := by
    intro c d r pos cnt hm hne hr hlen hcnt
    obtain ⟨h1, h2⟩ := hr.head
    refine ⟨h1, ?_⟩
    have := walk_ok hrep hd hm (codeFor es c) (8 * e.len - (pos + 1)) (pos + 1) 0 [] hne hrep.root (by simp)
      (by simp at hlen; omega) h2
    simp only [DecEnv.decodeLeaf, this, bind, Except.bind]
    rw [if_neg (by omega)]
    simp [pure, Except.pure]
    omega
  induction h generalizing pos cnt with
  | leaf f d r c =>
    have hp : payload es [NodeRec.ofRect (.leaf c) d r] = true :: codeFor es c := by
      simp [payload, nodeBits, NodeRec.ofRect]
    rw [hp] at hr hlen ⊢
    obtain ⟨c1, c2⟩ := hc c (by simp [leafColors, NodeRec.leafColor?, NodeRec.ofRect])
    obtain ⟨l1, l2⟩ := hleaf c d r pos cnt c1 c2 hr hlen (by simpa using hcnt)
    cases f with
    | zero => simp only [DecEnv.decodeNode, l1, bind, Except.bind, if_true, l2]
    | succ f => simp only [DecEnv.decodeNode, l1, bind, Except.bind, if_true, l2]
  | internal f d r n0 n1 n2 n3 _ _ _ _ i0 i1 i2 i3 =>
    have hp : payload es (NodeRec.ofRect .internal d r :: (n0 ++ n1 ++ n2 ++ n3)) =
        false :: (payload es n0 ++ payload es n1 ++ payload es n2 ++ payload es n3) := by
      rw [← payload_append, ← payload_append, ← payload_append]
      simp [payload, nodeBits, NodeRec.ofRect]
    have hcol : leafColors (NodeRec.ofRect .internal d r :: (n0 ++ n1 ++ n2 ++ n3)) =
        leafColors n0 ++ leafColors n1 ++ leafColors n2 ++ leafColors n3 := by
      rw [leafColors_internal, leafColors_append, leafColors_append, leafColors_append]
    rw [hp] at hr hlen ⊢
    rw [hcol] at hc
    obtain ⟨hb, hr⟩ := hr.head
    obtain ⟨hr, r3⟩ := hr.append
    obtain ⟨hr, r2⟩ := hr.append
    obtain ⟨r0, r1⟩ := hr.append
    simp only [List.length_cons, List.length_append] at hlen hcnt r1 r2 r3
    have e0 := i0 (fun c hm => hc c (by simp [hm])) (pos := pos + 1) (cnt := cnt + 1) r0 (by omega) (by omega)
    have e1 := i1 (fun c hm => hc c (by simp [hm])) (pos := pos + 1 + (payload es n0).length)
      (cnt := cnt + 1 + n0.length) r1 (by omega) (by omega)
    have e2 := i2 (fun c hm => hc c (by simp [hm]))
      (pos := pos + 1 + (payload es n0).length + (payload es n1).length) (cnt := cnt + 1 + n0.length + n1.length)
      (by rw [Nat.add_assoc (pos + 1)]; exact r2) (by omega) (by omega)
    have e3 := i3 (fun c hm => hc c (by simp [hm]))
      (pos := pos + 1 + (payload es n0).length + (payload es n1).length + (payload es n2).length)
      (cnt := cnt + 1 + n0.length + n1.length + n2.length)
      (by rw [Nat.add_assoc (pos + 1), Nat.add_assoc (pos + 1)]; exact r3) (by omega) (by omega)
    simp only [DecEnv.decodeNode, hb, bind, Except.bind, Bool.false_eq_true, if_false]
    rw [if_neg (by omega), e0]
    simp only
    rw [e1]
    simp only
    rw [e2]
    simp only
    rw [e3]
    simp [pure, Except.pure]
    omega

theorem codeFor_mem {es : List SymEntry} {c : Color} (h : ∃ x ∈ es, x.color = c) :
    ∃ x ∈ es, x.color = c ∧ codeFor es c = x.code := by
  unfold codeFor
  cases hf : es.find? (fun e => e.color == c) with
  | none =>
    obtain ⟨x, hx, hxc⟩ := h
    rw [List.find?_eq_none] at hf
    exact absurd (by simpa using hxc) (hf x hx)
  | some x =>
    have h1 := List.find?_some hf
    have h2 := List.mem_of_find?_eq_some hf
    exact ⟨x, h2, by simpa using h1, rfl⟩

/-- The container of a tree decodes to the tree and its codes (R227). `T` holds every prefix of a code and fits the trie;
`off` is where the payload starts. -/
theorem decodeAll_ok {e : DecEnv} {w h : Word} {es : List SymEntry} {ns : List NodeRec} {T : List (List Bool)}
    (hr : Reads e 0 (container w h (BitVec.ofNat 32 es.length) es ns)) (hlen : containerSize es ns ≤ e.len)
    (hw : 0 < w.toInt) (hh : 0 < h.toInt) (hes : es.length < 2 ^ 31) (hes' : es.length ≤ e.par.maxSymbols)
    (htree : PreOrder e.par.maxTreeDepth 0 (rootRect w h) ns) (hns : ns.length ≤ e.par.maxNodes)
    (hcode : ∀ x ∈ es, 1 ≤ x.code.length ∧ x.code.length ≤ e.par.maxCodeLen ∧ x.code.length < 65536 ∧
      ∀ p, p <+: x.code → p ∈ T)
    (hT : T.length ≤ e.par.maxTrieNodes) (hT0 : [] ∈ T) (hpf : PrefixFree (es.map (·.code)))
    (hcol : ∀ c ∈ leafColors ns, ∃ x ∈ es, x.color = c) :
    ∃ trie, e.decodeAll = .ok ⟨w, h, es.map decodedSym, trie, ns, 8 * (12 + (es.flatMap entryBytes).length),
      8 * (12 + (es.flatMap entryBytes).length) + payloadLength es ns⟩ := by
  unfold container at hr
  obtain ⟨hr, hpay⟩ := hr.append
  obtain ⟨hhead, hent⟩ := hr.append
  have hn : (BitVec.ofNat 32 es.length).toNat = es.length := by
    rw [BitVec.toNat_ofNat]; exact Nat.mod_eq_of_lt (by omega)
  have hni : 0 ≤ (BitVec.ofNat 32 es.length).toInt := by
    rw [BitVec.toInt_eq_toNat_of_lt (by rw [hn]; omega)]; omega
  have hheader := parseHeader_ok hhead hw hh hni (by rw [hn]; exact hes')
  rw [hn] at hheader
  simp only [List.length_append, s32be_length] at hent hpay
  norm_num at hent hpay
  obtain ⟨trie, ps, done, hpe, hrep, hdone⟩ := parseEntries_ok hT es 12 [⟨none, none, none⟩] [[]] [] hent .init hcode hpf
    (by simp) (by intro p hp; rw [List.mem_singleton] at hp; subst hp; exact ⟨hT0, .inl rfl⟩)
  have hd : ∀ x ∈ done, ∀ y ∈ done, x.1 <+: y.1 → x = y := by
    intro x hx y hy hxy
    rw [hdone] at hx hy
    rcases hx with hx | ⟨a, ha, rfl⟩
    · simp at hx
    rcases hy with hy | ⟨b, hb, rfl⟩
    · simp at hy
    obtain ⟨i, hi, rfl⟩ := List.getElem_of_mem ha
    obtain ⟨j, hj, rfl⟩ := List.getElem_of_mem hb
    unfold PrefixFree at hpf
    rw [List.pairwise_iff_getElem] at hpf
    rcases Nat.lt_trichotomy i j with hij | hij | hij
    · have := (hpf i j (by simpa using hi) (by simpa using hj) hij).1
      simp only [List.getElem_map] at this
      exact absurd hxy this
    · subst hij; rfl
    · have := (hpf j i (by simpa using hj) (by simpa using hi) hij).2
      simp only [List.getElem_map] at this
      exact absurd hxy this
  have hleaf : ∀ c ∈ leafColors ns, (codeFor es c, c) ∈ done ∧ codeFor es c ≠ [] := by
    intro c hc
    obtain ⟨x, hx, hxc, hcf⟩ := codeFor_mem (hcol c hc)
    refine ⟨(hdone _).mpr (.inr ⟨x, hx, by rw [hcf, hxc]⟩), ?_⟩
    rw [hcf]
    have := (hcode x hx).1
    intro he
    rw [he] at this
    simp at this
  have hbits := readsBits_of_packBits hpay
  have hsz : containerSize es ns = 12 + (es.flatMap entryBytes).length + ceil8 (payloadLength es ns) := by
    unfold containerSize
    rw [List.length_flatMap]
    congr 2
    exact congrArg List.sum (List.map_congr_left fun x _ => (entryBytes_length x).symm)
  have hfit : 8 * (12 + (es.flatMap entryBytes).length) + (payload es ns).length ≤ 8 * e.len := by
    rw [payload_length]
    unfold ceil8 at hsz
    omega
  have hflat : (es.map fun x => (entryBytes x).length).sum = (es.flatMap entryBytes).length := by
    rw [List.length_flatMap]
  have hdec := decodeNode_ok hrep hd htree hleaf (pos := 8 * (12 + (es.flatMap entryBytes).length)) (cnt := 0)
    (by simpa [List.length_flatMap] using hbits) hfit (by omega)
  refine ⟨trie, ?_⟩
  unfold rootRect at hdec
  simp only [DecEnv.decodeAll, hheader, hpe, hdec, bind, Except.bind, pure, Except.pure, payload_length]

end Sys2Proof.Machine
end

