-- ==== Sys2Proof/Tests/Slice0.lean ====
section
/-! SUPPORT. The model's own tests: ill-formed terms, command words written out, one or two small runs per command with
values from spec/95_test_vectors.md, and for each statement with hypotheses a named witness that meets them. -/

set_option Elab.async false

namespace Sys2Proof.Tests

open Sys2Proof Sys2Proof.Machine

/-! ## Well-formedness -/

theorem test_wf_reserved_bits : (CommandWord.mk 0x01 1).wellFormed = false ∧ (CommandWord.mk 0x01 1).rsvdOk = false := by
  decide

theorem test_wf_reserved_opcode :
    (CommandWord.mk 0x0F 0).wellFormed = false ∧ (CommandWord.mk 0xFE 0).opcodeOk = false ∧
      (CommandWord.mk 0xFF 0).wellFormed = true := by decide

theorem test_wf_tc : Params.tc.wellFormed = true := by decide

theorem test_wf_pixels : { Params.tc with maxPixels := 8421505 }.wellFormed = false := by decide

theorem test_wf_depth : { Params.tc with maxTreeDepth := 256 }.wellFormed = false := by decide

theorem test_wf_nodes : { Params.tc with maxNodes := 0 }.wellFormed = false := by decide

theorem test_wf_symbols : { Params.tc with maxSymbols := 2 ^ 24 + 1 }.symbolsOk = false := by decide

theorem test_wf_code_len : { Params.tc with maxCodeLen := 65 }.wellFormed = false := by decide

theorem test_wf_trie : { Params.tc with maxTrieNodes := 8190 }.wellFormed = false := by decide

theorem test_wf_workers : { Params.tc with numWorkers := 0 }.wellFormed = false := by decide

theorem test_wf_mmio : { Params.tc with mmioBase := 0x800 }.wellFormed = false := by decide

/-! ## Command words (R91, R92): bit 31 at the left, twenty-four zero bits and the opcode -/

theorem test_decode_nop : decode 0b00000000000000000000000000000000#32 = .ok .nop := by decide

theorem test_decode_sat_build : decode 0b00000000000000000000000000000001#32 = .ok .satBuild := by decide

theorem test_decode_region_avg : decode 0b00000000000000000000000000000010#32 = .ok .regionAvg := by decide

theorem test_decode_region_homog : decode 0b00000000000000000000000000000011#32 = .ok .regionHomog := by decide

theorem test_decode_qt_build : decode 0b00000000000000000000000000000100#32 = .ok .qtBuild := by decide

theorem test_decode_huf_build : decode 0b00000000000000000000000000000101#32 = .ok .hufBuild := by decide

theorem test_decode_encode : decode 0b00000000000000000000000000000110#32 = .ok .encode := by decide

theorem test_decode_decode : decode 0b00000000000000000000000000000111#32 = .ok .decode := by decide

theorem test_decode_reconstruct : decode 0b00000000000000000000000000001000#32 = .ok .reconstruct := by decide

theorem test_decode_compress : decode 0b00000000000000000000000000001001#32 = .ok .compress := by decide

theorem test_decode_decompress : decode 0b00000000000000000000000000001010#32 = .ok .decompress := by decide

theorem test_decode_inspect_sat : decode 0b00000000000000000000000000001011#32 = .ok .inspectSat := by decide

theorem test_decode_inspect_node : decode 0b00000000000000000000000000001100#32 = .ok .inspectNode := by decide

theorem test_decode_inspect_sym : decode 0b00000000000000000000000000001101#32 = .ok .inspectSym := by decide

theorem test_decode_abort : decode 0b00000000000000000000000000001110#32 = .ok .abort := by decide

theorem test_decode_soft_reset : decode 0b00000000000000000000000011111111#32 = .ok .softReset := by decide

theorem test_decode_reserved :
    decode 0x0000000F#32 = .error .reservedOpcode ∧ decode 0x000000FE#32 = .error .reservedOpcode ∧
      decode 0x00000101#32 = .error .reservedBits := by decide

/-- Each of the sixteen words, placed after reset, is the one the next step runs. -/
theorem test_fetch : ∀ w ∈ [0, 1, 2, 3, 4, 5, 6, 7, 8, 9, 10, 11, 12, 13, 14, 255],
    fetchedWord (State.reset.withFetchWord 32 w) = some (BitVec.ofNat 32 w) ∧ (decodeTableWord 32 w).isSome = true := by
  decide

/-! ## Small states -/

/-- The state a command ends in when it is accepted in `s` and runs undisturbed. -/
def ran (i : Instr) (s : State) : State := runCommand ((plan i).map StageId.stage) (accept (encode i) s)

theorem exec_ran {i : Instr} (ha : i ≠ .abort) (hs : i ≠ .softReset) (s : State) :
    exec i (accept (encode i) s) = .next (ran i s) := exec_eq_runCommand ha hs _

/-- A block with a W × H image at 0x100, a container buffer of 64 bytes at 0x200 and an output buffer at 0x300.
MAX_CONC_DEPTH is 0, so that QT_BUILD has one schedule and the kernel can run it. -/
def block (w h minD maxD loss : Nat) (pixels : List Byte) : State :=
  { State.reset with
    cfg := { Operands.reset with
      imgW := BitVec.ofNat 32 w
      imgH := BitVec.ofNat 32 h
      minDepth := BitVec.ofNat 8 minD
      maxDepth := BitVec.ofNat 8 maxD
      lossPercent := BitVec.ofNat 8 loss
      maxConcDepth := 0
      pixBase := 0x100
      cntBase := 0x200
      cntLen := 64
      outBase := 0x300
      outCap := 12 }
    mem := Memory.writeAll [] (cellsAt 0x100 pixels) }

/-- The image A2 of spec/95_test_vectors.md section 2.1. -/
def imageA2 : State := block 2 2 0 4 0 [1, 2, 3, 4, 5, 6, 7, 8, 9, 10, 11, 12]

/-- The 2 × 2 checkerboard S2, with MIN_DEPTH = MAX_DEPTH = 1. -/
def checker : State := block 2 2 1 1 0 [0, 0, 0, 255, 255, 255, 255, 255, 255, 0, 0, 0]

/-- The uniform 2 × 2 image S1. -/
def uniform : State := block 2 2 0 4 10 [10, 20, 30, 10, 20, 30, 10, 20, 30, 10, 20, 30]

/-- A query rectangle or index in the configuration registers. -/
def query (x y w h : Nat) (s : State) : State :=
  { s with cfg := { s.cfg with
      qX := BitVec.ofNat 32 x
      qY := BitVec.ofNat 32 y
      qW := BitVec.ofNat 32 w
      qH := BitVec.ofNat 32 h
      qIndex := BitVec.ofNat 32 x } }

/-- A symbol table with frequencies, as QT_BUILD leaves it: V-HUF's start. -/
def withFreqs (fs : List Nat) : State :=
  { State.reset with
    valid := ⟨false, true, true, false, false⟩
    syms := (List.range fs.length).map fun i => ⟨⟨0, 0, BitVec.ofNat 8 i⟩, BitVec.ofNat 32 (fs.getD i 0), []⟩
    cnt := { Counters.reset with symCount := BitVec.ofNat 32 fs.length } }

/-- The bytes of external memory from an address on. -/
def bytesFrom (s : State) (a n : Nat) : List Byte := (List.range n).map fun k => s.mem.read (a + k)

/-- STATUS, ERR_INFO and VALID as the host reads them. -/
def outcome (s : State) : Word × Word × Word := (regRead .status s, s.errInfo, regRead .valid s)

/-! ## Commands, by the vectors of spec/95_test_vectors.md -/

/-- NOP after reset: STATUS 0x002. -/
theorem test_nop : outcome (ran .nop State.reset) = (0x002, 0, 0) := by decide +kernel

/-- V-SAT-1. -/
theorem test_sat_build : (ran .satBuild imageA2).sat = [⟨1, 2, 3⟩, ⟨5, 7, 9⟩, ⟨8, 10, 12⟩, ⟨22, 26, 30⟩] := by decide +kernel

/-- V-SAT-9: the product of the dimensions does not wrap. -/
theorem test_sat_build_capacity : outcome (ran .satBuild (block 0x10000 0x10000 0 0 0 [])) = (0x616, 6, 0) := by
  decide +kernel

/-- V-AVG-3: the means truncate. -/
theorem test_region_avg :
    (ran .regionAvg (query 0 0 2 1 (ran .satBuild imageA2))).res = ⟨2, 3, 4, 0x00020304, 2, 0⟩ := by decide +kernel

/-- V-AVG-7. -/
theorem test_region_avg_query :
    outcome (ran .regionAvg (query 1 0 2 1 (ran .satBuild imageA2))) = (0x876, 0x03C, 0x01) := by decide +kernel

/-- V-HOM-2 and V-HOM-3: d2 = 650 is near at L = 10, d2 = 651 is not. -/
theorem test_region_homog :
    (ran .regionHomog (query 0 0 1 1 (block 1 1 0 0 10 [25, 5, 0]))).res = ⟨1, 1, 1, 0, 0, 0⟩ ∧
      (ran .regionHomog (query 0 0 1 1 (block 1 1 0 0 10 [25, 5, 1]))).res = ⟨0, 1, 0, 0, 0, 0⟩ := by decide +kernel

/-- V-QT-1: five nodes in pre-order and the table black 2, white 2. -/
theorem test_qt_build :
    (ran .qtBuild (ran .satBuild checker)).nodes.map (fun n => (n.leafColor?.map Rgb.pack, n.depth, n.x, n.y, n.w, n.h)) =
        [(none, 0, 0, 0, 2, 2), (some 0, 1, 0, 0, 1, 1), (some 0xFFFFFF, 1, 1, 0, 1, 1), (some 0xFFFFFF, 1, 0, 1, 1, 1),
          (some 0, 1, 1, 1, 1, 1)] ∧
      (ran .qtBuild (ran .satBuild checker)).syms = [⟨⟨0, 0, 0⟩, 2, []⟩, ⟨⟨255, 255, 255⟩, 2, []⟩] := by decide +kernel

/-- V-QT-10: P_MAX_NODES = 4. -/
theorem test_qt_build_capacity :
    outcome (ran .qtBuild (ran .satBuild { checker with par := { Params.tc with maxNodes := 4 } })) = (0x626, 1, 0x01) := by
  decide +kernel

/-- With one schedule, the first error it reaches is the one reported (R171, R290): the root's scan meets the failing byte
before any node is counted, and a forced split passes P_MAX_NODES before its scan. -/
theorem test_qt_build_first_error :
    outcome (ran .qtBuild { ran .satBuild checker with
        cfg := { checker.cfg with minDepth := 0 }
        par := { Params.tc with maxNodes := 4, busHoles := [⟨0x10B, 0x10C, .read⟩] } }) = (0x126, 0x10B, 0x01) ∧
      outcome (ran .qtBuild { ran .satBuild checker with
        cfg := { checker.cfg with maxDepth := 2 }
        par := { Params.tc with maxNodes := 1, busHoles := [⟨0x10B, 0x10C, .read⟩] } }) = (0x626, 1, 0x01) := by
  decide +kernel

/-- V-HUF-8, with its ties between leaves and internal nodes. -/
theorem test_huf_build :
    (ran .hufBuild (withFreqs [1, 1, 1, 2, 3, 5, 8])).syms.map (·.code) =
        [[true, false, false, false], [true, false, false, true], [false, false, false], [false, false, true],
          [true, false, true], [false, true], [true, true]] ∧
      (ran .hufBuild (withFreqs [1, 1, 1, 2, 3, 5, 8])).res = ⟨4, 52, 7, 0, 0, 0⟩ := by decide +kernel

/-- V-HUF-16: V-HUF-7 with P_MAX_CODE_LEN = 5. -/
theorem test_huf_build_capacity :
    outcome (ran .hufBuild { withFreqs [1, 1, 2, 3, 5, 8, 13] with par := { Params.tc with maxCodeLen := 5 } }) =
      (0x636, 3, 0x06) := by decide +kernel

/-- V-ENC-2: the 26 bytes of S2, with the 9 payload bits 010111110. -/
theorem test_encode :
    bytesFrom (ran .encode (ran .hufBuild (ran .qtBuild (ran .satBuild checker)))) 0x200 27 =
      [0, 0, 0, 2, 0, 0, 0, 2, 0, 0, 0, 2, 0, 0, 0, 0, 1, 0, 0xFF, 0xFF, 0xFF, 0, 1, 0x80, 0x5F, 0, 0] := by
  decide +kernel

/-- V-ENC-8: after reset. -/
theorem test_encode_sequence : outcome (ran .encode State.reset) = (0x546, 0x0A, 0) := by decide +kernel

/-- A container at 0x200. -/
def holding (bytes : List Byte) : State :=
  { block 0 0 0 0 0 [] with
    mem := Memory.writeAll [] (cellsAt 0x200 bytes)
    cfg := { (block 0 0 0 0 0 []).cfg with cntLen := BitVec.ofNat 32 bytes.length } }

/-- V-DEC-6: one colour with two codes. -/
theorem test_decode_two_codes :
    (ran .decode (holding [0, 0, 0, 1, 0, 0, 0, 1, 0, 0, 0, 2, 0x0A, 0x14, 0x1E, 0, 1, 0, 0x0A, 0x14, 0x1E, 0, 1, 0x80,
      0xC0])).cnt = ⟨0, 0, 1, 1, 1, 1, 2, 25, 2⟩ := by decide +kernel

/-- V-DEC-18: the code "0" after "01" begins an earlier entry's code. -/
theorem test_decode_malformed :
    outcome (ran .decode (holding [0, 0, 0, 1, 0, 0, 0, 1, 0, 0, 0, 2, 0x0A, 0x14, 0x1E, 0, 2, 0x40, 1, 2, 3, 0, 1, 0,
      0x80])) = (0x356, 18, 0) := by decide +kernel

/-- A byte after the payload is never read (R107, R224): it is not the failing byte that ERR_INFO names. -/
theorem test_decode_trailing :
    outcome (ran .decode { holding [0, 0, 0, 1, 0, 0, 0, 1, 0, 0, 0, 1, 0x0A, 0x14, 0x1E, 0, 1, 0, 0x80, 0xFF] with
      par := { Params.tc with busHoles := [⟨0x20C, 0x20D, .read⟩, ⟨0x213, 0x214, .read⟩] } }) = (0x156, 0x20C, 0) := by
  decide +kernel

/-- RECONSTRUCT of V-QT-1's tree paints the checkerboard. -/
theorem test_reconstruct :
    bytesFrom (ran .reconstruct (ran .qtBuild (ran .satBuild checker))) 0x300 13 =
      [0, 0, 0, 255, 255, 255, 255, 255, 255, 0, 0, 0, 0] := by decide +kernel

/-- S1: COMPRESS of the uniform image writes the 19-byte container. -/
theorem test_compress :
    bytesFrom (ran .compress uniform) 0x200 19 =
        [0, 0, 0, 2, 0, 0, 0, 2, 0, 0, 0, 1, 0x0A, 0x14, 0x1E, 0, 1, 0, 0x80] ∧
      outcome (ran .compress uniform) = (0x042, 0, 0x0F) := by decide +kernel

/-- S1: DECOMPRESS paints the image it came from. -/
theorem test_decompress :
    bytesFrom (ran .decompress (ran .compress uniform)) 0x300 12 = [10, 20, 30, 10, 20, 30, 10, 20, 30, 10, 20, 30] ∧
      outcome (ran .decompress (ran .compress uniform)) = (0x062, 0, 0x1B) := by decide +kernel

/-- V-SAT-2. -/
theorem test_inspect_sat : (ran .inspectSat (query 0 1 0 0 (ran .satBuild imageA2))).res = ⟨8, 10, 12, 0, 0, 0⟩ := by
  decide +kernel

/-- INSPECT_NODE of node 2 after V-QT-1. -/
theorem test_inspect_node :
    (ran .inspectNode (query 2 0 0 0 (ran .qtBuild (ran .satBuild checker)))).res = ⟨0x101, 1, 0, 1, 1, 0xFFFFFF⟩ := by
  decide +kernel

/-- V-SYM-1: the code "010" stands in the top bits of RES3. -/
theorem test_inspect_sym :
    (ran .inspectSym (query 2 0 0 0 (ran .hufBuild (withFreqs [5, 2, 1, 1])))).res = ⟨2, 1, 3, 0x40000000, 0, 0⟩ := by
  decide +kernel

/-- The state after some steps of a host program; `none` if a step stops. -/
def after (n : Nat) (ps : List HostStmt) (s : State) : Option State :=
  match Host.Core.run core n { s with agenda := program s.par ps } with
  | .next t => some t
  | .fault _ => none
  | .refused _ => none

/-- SAT_BUILD, then ABORT and another command while it runs: the abort is pending, the other command is lost and sets OVR
(R25, R262). -/
theorem test_abort :
    (after 3 [.cmd .satBuild, .cmd .abort, .cmd .nop] imageA2).map (fun t => (t.pendingAbort, t.status.ovr, t.cmd)) =
      some (true, true, 1) := by decide +kernel

/-- SAT_BUILD over a built table, aborted: ABORTED(0), and SAT_V stays cleared (R130, R262, R288). -/
theorem test_aborted :
    (after 3 [.cmd .satBuild, .cmd .abort] (ran .satBuild imageA2)).map (fun t => (outcome t, t.cnt.satW, t.pendingAbort)) =
      some ((0x216, 0, 0), 2, false) := by decide +kernel

/-- SOFT_RESET after COMPRESS: CMD reads 0x000000FF, the tables are gone, the container stays in memory (R263). -/
theorem test_soft_reset :
    (after 1 [.cmd .softReset] (ran .compress uniform)).map (fun t => (outcome t, t.cmd, t.cfg.maxConcDepth, bytesFrom t 0x200 4)) =
      some ((0, 0, 0), 0xFF, 1, [0, 0, 0, 2]) := by decide +kernel

/-- RUN and ACK: SAT_BUILD completes before WAIT ends, and ACK clears DONE and keeps STAGE (R95, R96, R292). -/
theorem test_run_ack :
    (after 5 [.run .satBuild, .ack] imageA2).map (fun t => (outcome t, t.agenda)) = some ((0x010, 0, 0x01), []) := by
  decide +kernel

/-! ## Witnesses: for each statement with hypotheses, a state and operands that meet all of them -/

/-- A running SAT_BUILD of the image A2. -/
def running : State := accept (encode .satBuild) imageA2

/-- The agenda with one event. -/
def facing (e : Event) (s : State) : State := { s with agenda := [e] }

theorem witness_StepRunsCommand :
    (fetchedWord running = some 1 ∧ decode 1#32 = .ok .satBuild) ∧
      (fetchedWord (facing .engine running) = some 1) ∧
      (fetchedWord (State.reset.withFetchWord 32 255) = some 255 ∧ decode 255#32 = .ok .softReset) := by decide

theorem witness_AcceptCommand :
    (facing (.write (regAddress Params.tc .cmd) 4 1) imageA2).agenda =
        .write (regAddress (facing (.write (regAddress Params.tc .cmd) 4 1) imageA2).par .cmd) 4 1 :: [] ∧
      (facing (.write (regAddress Params.tc .cmd) 4 1) imageA2).status.busy = false ∧
      (1 : Word) ≠ 0x000000FF ∧ (1 : Word) ≠ 0x0000000E := by decide

/-- The clause of a word that is no command. -/
theorem witness_AcceptCommand_illegal :
    (facing (.write (regAddress Params.tc .cmd) 4 0x0F) imageA2).agenda =
        .write (regAddress (facing (.write (regAddress Params.tc .cmd) 4 0x0F) imageA2).par .cmd) 4 0x0F :: [] ∧
      (facing (.write (regAddress Params.tc .cmd) 4 0x0F) imageA2).status.busy = false ∧
      decode 0x0F = .error .reservedOpcode := by decide

theorem witness_BusyWriteLost :
    (facing (.write (regAddress Params.tc .cmd) 4 0x0F) running).agenda =
        .write (regAddress (facing (.write (regAddress Params.tc .cmd) 4 0x0F) running).par .cmd) 4 0x0F :: [] ∧
      (facing (.write (regAddress Params.tc .cmd) 4 0x0F) running).status.busy = true ∧
      (0x0F : Word) ≠ 0x000000FF ∧ (0x0F : Word) ≠ 0x0000000E := by decide

theorem witness_IllegalWordCompletes :
    ((accept 0x0F State.reset).status.busy = true ∧ (accept 0x0F State.reset).pendingAbort = false ∧
        decode (accept 0x0F State.reset).cmd = .error .reservedOpcode ∧ (accept 0x0F State.reset).agenda = []) ∧
      (decode (accept 0x100 State.reset).cmd = .error .reservedBits ∧
        (facing .engine (accept 0x100 State.reset)).agenda = .engine :: []) := by decide

theorem witness_EveryCommandCompletes : Instr.decompress ≠ .abort ∧ Instr.decompress ≠ .softReset := by decide

theorem witness_AbortedReportsAborted :
    Instr.satBuild ≠ .abort ∧ Instr.satBuild ≠ .softReset ∧ { running with pendingAbort := true }.pendingAbort = true ∧
      plan .satBuild = [.sat] := by decide

theorem witness_ErrorKeepsRegisters :
    plan .encode = [.enc] ∧ (accept (encode .encode) State.reset).pendingAbort = false ∧
      exec .encode (accept (encode .encode) State.reset) = .next (ran .encode State.reset) ∧
      (ran .encode State.reset).status.errCode ≠ 0 :=
  ⟨rfl, rfl, exec_ran (by decide) (by decide) _, by decide +kernel⟩

/-- The checkerboard after SAT_BUILD, QT_BUILD and HUF_BUILD. -/
def coded : State := ran .hufBuild (ran .qtBuild (ran .satBuild checker))

theorem witness_SuccessSetsValid :
    (∀ s : State, ∀ i : Instr, i ≠ .abort → i ≠ .softReset →
      (accept (encode i) s).pendingAbort = false ∧ exec i (accept (encode i) s) = .next (ran i s)) ∧
      (ran .satBuild checker).status.errCode = 0 ∧ (ran .qtBuild (ran .satBuild checker)).status.errCode = 0 ∧
      coded.status.errCode = 0 ∧ (ran .encode coded).status.errCode = 0 ∧
      (ran .decode (ran .encode coded)).status.errCode = 0 ∧ (ran .reconstruct coded).status.errCode = 0 ∧
      (ran .regionAvg coded).status.errCode = 0 ∧ (ran .regionHomog coded).status.errCode = 0 ∧
      (ran .inspectSat coded).status.errCode = 0 ∧ (ran .inspectNode coded).status.errCode = 0 ∧
      (ran .inspectSym coded).status.errCode = 0 ∧ (ran .nop coded).status.errCode = 0 :=
  ⟨fun s _ ha hs => ⟨rfl, exec_ran ha hs s⟩, by decide +kernel⟩

theorem witness_ConfigurationFrozen :
    Instr.satBuild ≠ .softReset ∧ Reg.imgW ≠ .status ∧ writeMask .imgW = some 0xFFFFFFFF ∧
      exec .satBuild (accept (encode .satBuild) imageA2) = .next (ran .satBuild imageA2) :=
  ⟨by decide, by decide, rfl, exec_ran (by decide) (by decide) _⟩

theorem witness_AbortWrite :
    running.status.busy = true ∧ imageA2.status.busy = false ∧
      (facing (.write (regAddress Params.tc .cmd) 4 0x0E) running).agenda =
        .write (regAddress (facing (.write (regAddress Params.tc .cmd) 4 0x0E) running).par .cmd) 4 0x0E :: [] := by decide

theorem witness_SoftResetResult :
    running.mem.wf = true ∧ running.status.busy = true ∧
      (facing (.write (regAddress Params.tc .cmd) 4 0xFF) running).agenda =
        .write (regAddress (facing (.write (regAddress Params.tc .cmd) 4 0xFF) running).par .cmd) 4 0xFF :: [] := by
  decide +kernel

theorem witness_ResetInput :
    (facing .rst imageA2).mem.wf = true ∧ (facing .rst imageA2).agenda = .rst :: [] ∧
      (facing .rst imageA2).status.busy = false := by decide +kernel

theorem witness_CapabilityRegisters :
    State.reset.par.wellFormed = true ∧
      (regRead .cap0 State.reset, regRead .cap1 State.reset, regRead .cap4 State.reset) =
        (0x00042010, 0x00010000, 0x00001FFF) := by decide

theorem witness_WindowMap :
    target Params.tc 0x0A8 4 = .reg .cap4 ∧ target Params.tc 0x0AC 4 = .reserved ∧ target Params.tc 0xFFC 4 = .reserved ∧
      target Params.tc 0x1000 4 = .outside ∧ target Params.tc 0x0A9 4 = .bad ∧ target Params.tc 0x0A8 2 = .bad := by decide

theorem witness_ConfigWrite :
    writeMask .qColor = some 0x00FFFFFF ∧
      (facing (.write (regAddress Params.tc .qColor) 4 0xFF123456) running).agenda =
        .write (regAddress (facing (.write (regAddress Params.tc .qColor) 4 0xFF123456) running).par .qColor) 4
          0xFF123456 :: [] := by decide

theorem witness_ReadOnlyAndReserved :
    (writeMask .errInfo = none ∧ Reg.errInfo ≠ .status ∧ Reg.errInfo ≠ .cmd ∧
        (facing (.write (regAddress Params.tc .errInfo) 4 1) running).agenda =
          .write (regAddress (facing (.write (regAddress Params.tc .errInfo) 4 1) running).par .errInfo) 4 1 :: []) ∧
      (0x0AC % 4 = 0 ∧ 0xFFC % 4 = 0 ∧ (facing (.write (0 + 0x0AC) 4 1) running).agenda =
        .write ((facing (.write (0 + 0x0AC) 4 1) running).par.mmioBase + 0x0AC) 4 1 :: []) ∧
      (facing (.read (0 + 0xFFC) 4) running).agenda =
        .read ((facing (.read (0 + 0xFFC) 4) running).par.mmioBase + 0xFFC) 4 :: [] := by decide

theorem witness_StatusWrite :
    (facing (.write (regAddress Params.tc .status) 4 0x0A) (ran .nop State.reset)).agenda =
      .write (regAddress (facing (.write (regAddress Params.tc .status) 4 0x0A) (ran .nop State.reset)).par .status) 4
        0x0A :: [] := by decide +kernel

theorem witness_RegisterRead :
    ((facing (.read (regAddress Params.tc .res0) 4) imageA2).agenda =
        .read (regAddress (facing (.read (regAddress Params.tc .res0) 4) imageA2).par .res0) 4 :: [] ∧
      (facing (.read (regAddress Params.tc .res0) 4) imageA2).status.busy = false) ∧
    ((facing (.read (regAddress Params.tc .imgW) 4) running).agenda =
        .read (regAddress (facing (.read (regAddress Params.tc .imgW) 4) running).par .imgW) 4 :: [] ∧
      Reg.isResult .imgW = false) := by decide

theorem witness_BusyRead :
    (facing (.read (regAddress Params.tc .status) 4) running).agenda =
        .read (regAddress (facing (.read (regAddress Params.tc .status) 4) running).par .status) 4 :: [] ∧
      (facing (.read (regAddress Params.tc .status) 4) running).status.busy = true := by decide

theorem witness_InterruptLine :
    (exec .nop (accept (encode .nop) { State.reset with irqEn := true }) =
        .next (ran .nop { State.reset with irqEn := true })) ∧
      (0x0000000A : Word).getLsbD 1 = true ∧ (0 : Word).getLsbD 0 = false := by
  exact ⟨exec_ran (by decide) (by decide) _, by decide⟩

theorem witness_HostStore :
    (facing (.store 0xFFFFFFFF [7]) running).mem.wf = true ∧
      (facing (.store 0xFFFFFFFF [7]) running).agenda = .store 0xFFFFFFFF [7] :: [] ∧ 0xFFFFFFFF + [(7 : Byte)].length ≤ 2 ^ 32 ∧
      ∀ a, 0xFFFFFFFF ≤ a → a < 0xFFFFFFFF + [(7 : Byte)].length →
        inRunningBuffer ((facing (.store 0xFFFFFFFF [7]) running).withRest []) a = false := by
  refine ⟨by decide +kernel, by decide, by decide, fun a h1 h2 => ?_⟩
  obtain rfl : a = 0xFFFFFFFF := by simp at h2; omega
  decide +kernel

theorem witness_HostLoad :
    (facing (.load 0xFFFFFFFF) running).agenda = .load 0xFFFFFFFF :: [] ∧ (0xFFFFFFFF : Nat) < 2 ^ 32 := by decide

theorem witness_CommandMemoryFrame :
    coded.mem.wf = true ∧
      exec .encode (accept (encode .encode) coded) = .next (ran .encode coded) ∧
      (0x1FF < coded.cfg.cntBase.toNat) ∧ coded.cfg.cntBase.toNat + containerSize coded.syms coded.nodes ≤ 0x200 + 26 ∧
      exec .reconstruct (accept (encode .reconstruct) coded) = .next (ran .reconstruct coded) ∧
      coded.cfg.outBase.toNat + 3 * (coded.cnt.treeW.toNat * coded.cnt.treeH.toNat) ≤ 0x300 + 12 ∧
      exec .compress (accept (encode .compress) coded) = .next (ran .compress coded) ∧
      exec .decompress (accept (encode .decompress) coded) = .next (ran .decompress coded) :=
  ⟨by decide +kernel, exec_ran (by decide) (by decide) _, by decide +kernel, by decide +kernel,
    exec_ran (by decide) (by decide) _, by decide +kernel, exec_ran (by decide) (by decide) _,
    exec_ran (by decide) (by decide) _⟩

/-- `s` with another image size and base, accepted for a command. -/
def sized (i : Instr) (w h base : Nat) (s : State) : State :=
  accept (encode i) { s with cfg := { s.cfg with
    imgW := BitVec.ofNat 32 w
    imgH := BitVec.ofNat 32 h
    pixBase := BitVec.ofNat 32 base } }

/-- `s` with another policy, accepted for a command. -/
def policy (i : Instr) (minD maxD loss : Nat) (s : State) : State :=
  accept (encode i) { s with cfg := { s.cfg with
    minDepth := BitVec.ofNat 8 minD
    maxDepth := BitVec.ofNat 8 maxD
    lossPercent := BitVec.ofNat 8 loss } }

/-- Every clause of the start checks of SAT_BUILD, at the first value that fails it. -/
theorem witness_BuildChecks :
    (sized .satBuild 0 0 0 checker).pendingAbort = false ∧
    satBuildFailure (sized .satBuild 0 0 0 checker) 4 0x010 ∧ satBuildFailure (sized .satBuild 1 0 0 checker) 4 0x014 ∧
    satBuildFailure (sized .satBuild 65537 1 0 checker) 6 6 ∧
    satBuildFailure (sized .satBuild 1 1 0xFFFFFFFE checker) 1 0xFFFFFFFE := by
  decide +kernel

/-- Every clause of the start checks of REGION_HOMOG. -/
theorem witness_BuildChecks_regionHomog :
    (sized .regionHomog 0 0 0 checker).pendingAbort = false ∧
    regionHomogFailure (sized .regionHomog 0 0 0 checker) 4 0x010 ∧
    regionHomogFailure (sized .regionHomog 1 0 0 checker) 4 0x014 ∧
    regionHomogFailure (sized .regionHomog 65537 1 0 checker) 6 6 ∧
    regionHomogFailure (policy .regionHomog 0 0 101 checker) 4 0x020 := by
  decide +kernel

/-- The clauses of REGION_HOMOG about the query rectangle and the image's bytes. -/
theorem witness_BuildChecks_regionHomog_query :
    regionHomogFailure (accept 3 (query 1 0 2 1 checker)) 8 0x03C ∧
    regionHomogFailure (accept 3 (query 0 1 1 2 checker)) 8 0x040 ∧
    regionHomogFailure (sized .regionHomog 1 1 0xFFFFFFFE checker) 1 0xFFFFFFFE := by
  decide +kernel

/-- Every clause of the start checks of QT_BUILD. -/
theorem witness_BuildChecks_qtBuild :
    (policy .qtBuild 1 0 0 checker).pendingAbort = false ∧
    qtBuildFailure (policy .qtBuild 1 0 0 checker) 4 0x018 ∧ qtBuildFailure (policy .qtBuild 0 17 0 checker) 4 0x01C ∧
    qtBuildFailure (policy .qtBuild 0 16 101 checker) 4 0x020 ∧ qtBuildFailure (policy .qtBuild 0 16 100 checker) 5 0x01 ∧
    qtBuildFailure (sized .qtBuild 2 2 0xFFFFFFF5 (ran .satBuild checker)) 1 0xFFFFFFF5 := by
  decide +kernel

/-- Every clause of the start checks of REGION_AVG. -/
theorem witness_QueryChecks :
    (accept 2 checker).pendingAbort = false ∧ regionAvgFailure (accept 2 checker) 5 0x01 ∧
    regionAvgFailure (accept 2 (query 1 0 2 1 coded)) 8 0x03C ∧
    regionAvgFailure (accept 2 (query 0 1 1 2 coded)) 8 0x040 := by
  decide +kernel

/-- Every clause of the start checks of INSPECT_SAT. -/
theorem witness_QueryChecks_inspectSat :
    inspectSatFailure (accept 11 checker) 5 0x01 ∧ inspectSatFailure (accept 11 (query 2 0 0 0 coded)) 8 0x03C ∧
    inspectSatFailure (accept 11 (query 0 2 0 0 coded)) 8 0x040 := by
  decide +kernel

/-- Every clause of the start checks of INSPECT_NODE and INSPECT_SYM. -/
theorem witness_QueryChecks_inspect :
    inspectNodeFailure (accept 12 checker) 5 0x02 ∧ inspectNodeFailure (accept 12 (query 5 0 0 0 coded)) 8 0x050 ∧
    inspectSymFailure (accept 13 checker) 5 0x0C ∧ inspectSymFailure (accept 13 (query 2 0 0 0 coded)) 8 0x050 := by
  decide +kernel

/-- `s` with another container buffer or output buffer, accepted for a command. -/
def buffers (i : Instr) (cntBase cntLen outBase outCap : Nat) (s : State) : State :=
  accept (encode i) { s with cfg := { s.cfg with
    cntBase := BitVec.ofNat 32 cntBase
    cntLen := BitVec.ofNat 32 cntLen
    outBase := BitVec.ofNat 32 outBase
    outCap := BitVec.ofNat 32 outCap } }

/-- Every clause of the start checks of HUF_BUILD, ENCODE, DECODE and RECONSTRUCT. -/
theorem witness_CodecChecks :
    (accept 5 checker).pendingAbort = false ∧ (accept 5 checker).valid.freqV = false ∧
    encodeFailure (accept 6 checker) 5 0x0A ∧ encodeFailure (buffers .encode 0xFFFFFFE6 27 0 0 coded) 1 0xFFFFFFE6 ∧
    encodeFailure (buffers .encode 0x200 25 0 0 coded) 1 26 ∧
    2 ^ 32 < (buffers .decode 0xFFFFFFFF 2 0 0 coded).snap.cntBase.toNat +
      (buffers .decode 0xFFFFFFFF 2 0 0 coded).snap.cntLen.toNat ∧
    reconstructFailure (accept 8 checker) 5 0x02 ∧ reconstructFailure (buffers .reconstruct 0 0 0 11 coded) 1 12 ∧
    reconstructFailure (buffers .reconstruct 0 0 0xFFFFFFF5 12 coded) 1 0xFFFFFFF5 := by
  decide +kernel

theorem witness_NopCompletes : (accept (encode .nop) State.reset).pendingAbort = false := by decide

/-- Without holes every byte answers. -/
theorem busRange_tc (k : AccessKind) (base n : Nat) : busRange Params.tc k base n := fun _ _ _ => rfl

theorem witness_SatBuildResult :
    running.pendingAbort = false ∧ running.par.wellFormed = true ∧ running.snap.imgW ≠ 0 ∧ running.snap.imgH ≠ 0 ∧
      running.snap.imgW.toNat * running.snap.imgH.toNat ≤ running.par.maxPixels ∧
      running.snap.pixBase.toNat + 3 * (running.snap.imgW.toNat * running.snap.imgH.toNat) ≤ 2 ^ 32 ∧
      busRange running.par .read running.snap.pixBase.toNat (3 * (running.snap.imgW.toNat * running.snap.imgH.toNat)) :=
  ⟨rfl, by decide, by decide, by decide, by decide, by decide, busRange_tc _ _ _⟩

/-- The running SAT_BUILD, with the image's last byte not answering. -/
def holed : State := { running with par := { Params.tc with busHoles := [⟨0x10B, 0x10C, .read⟩] } }

theorem witness_SatBuildBusError :
    holed.pendingAbort = false ∧ holed.snap.imgW ≠ 0 ∧ holed.snap.imgH ≠ 0 ∧
      holed.snap.imgW.toNat * holed.snap.imgH.toNat ≤ holed.par.maxPixels ∧
      holed.snap.pixBase.toNat + 3 * (holed.snap.imgW.toNat * holed.snap.imgH.toNat) ≤ 2 ^ 32 ∧
      ¬busRange holed.par .read holed.snap.pixBase.toNat (3 * (holed.snap.imgW.toNat * holed.snap.imgH.toNat)) :=
  ⟨rfl, by decide, by decide, by decide, by decide,
    fun h => absurd (h 0x10B (by decide) (by decide)) (by decide)⟩

/-- The image of A2. -/
def pixelsA2 : Nat → Nat → Color := imageAt imageA2.mem 0x100 2

/-- The state after SAT_BUILD of A2, with the table as the law about it names it. -/
def satA2 : State :=
  { imageA2 with
    sat := satTable imageA2.mem 0x100 2 2
    valid := ⟨true, false, false, false, false⟩
    cnt := { Counters.reset with satW := 2, satH := 2 } }

theorem satA2_holds : SatHolds satA2.sat satA2.cnt.satW.toNat satA2.cnt.satH.toNat pixelsA2 :=
  satHolds_satTable imageA2.mem 0x100 2 2 (by decide)

theorem witness_RegionAvgResult :
    (accept 2 (query 1 1 1 1 satA2)).pendingAbort = false ∧ (accept 2 (query 1 1 1 1 satA2)).valid.satV = true ∧
      SatHolds (accept 2 (query 1 1 1 1 satA2)).sat (accept 2 (query 1 1 1 1 satA2)).cnt.satW.toNat
        (accept 2 (query 1 1 1 1 satA2)).cnt.satH.toNat pixelsA2 ∧
      (accept 2 (query 1 1 1 1 satA2)).snap.qX.toNat + (accept 2 (query 1 1 1 1 satA2)).snap.qW.toNat ≤
        (accept 2 (query 1 1 1 1 satA2)).cnt.satW.toNat ∧
      (accept 2 (query 1 1 1 1 satA2)).snap.qY.toNat + (accept 2 (query 1 1 1 1 satA2)).snap.qH.toNat ≤
        (accept 2 (query 1 1 1 1 satA2)).cnt.satH.toNat :=
  ⟨rfl, rfl, satA2_holds, by decide, by decide⟩

/-- A running REGION_HOMOG of the corner pixel of A2. -/
def testing : State := accept 3 (query 1 1 1 1 imageA2)

theorem witness_RegionHomogResult :
    testing.pendingAbort = false ∧ testing.snap.imgW ≠ 0 ∧ testing.snap.imgH ≠ 0 ∧
      testing.snap.imgW.toNat * testing.snap.imgH.toNat ≤ testing.par.maxPixels ∧ testing.snap.lossPercent.toNat ≤ 100 ∧
      testing.snap.qX.toNat + testing.snap.qW.toNat ≤ testing.snap.imgW.toNat ∧
      testing.snap.qY.toNat + testing.snap.qH.toNat ≤ testing.snap.imgH.toNat ∧
      testing.snap.pixBase.toNat + 3 * (testing.snap.imgW.toNat * testing.snap.imgH.toNat) ≤ 2 ^ 32 ∧
      ∀ px py, inRect (queryRect testing.snap) px py = true →
        busRange testing.par .read (pixAddr testing.snap.pixBase.toNat testing.snap.imgW.toNat px py) 3 :=
  ⟨rfl, by decide, by decide, by decide, by decide, by decide, by decide, by decide, fun _ _ _ => busRange_tc _ _ _⟩

theorem witness_InspectSatResult :
    (accept 11 (query 1 1 0 0 satA2)).pendingAbort = false ∧ (accept 11 (query 1 1 0 0 satA2)).valid.satV = true ∧
      SatHolds (accept 11 (query 1 1 0 0 satA2)).sat (accept 11 (query 1 1 0 0 satA2)).cnt.satW.toNat
        (accept 11 (query 1 1 0 0 satA2)).cnt.satH.toNat pixelsA2 ∧
      (accept 11 (query 1 1 0 0 satA2)).snap.qX.toNat < (accept 11 (query 1 1 0 0 satA2)).cnt.satW.toNat ∧
      (accept 11 (query 1 1 0 0 satA2)).snap.qY.toNat < (accept 11 (query 1 1 0 0 satA2)).cnt.satH.toNat :=
  ⟨rfl, rfl, satA2_holds, by decide, by decide⟩

/-- A running QT_BUILD of A2 with MIN_DEPTH = MAX_DEPTH = d. -/
def building (d : Nat) : State := policy .qtBuild d d 0 satA2

/-- The LEAF record of a rectangle of A2. -/
def leafA2 (d : Nat) (r : Rect) : NodeRec := NodeRec.ofRect (.leaf (meanColor pixelsA2 r)) d r

/-- The tree of one leaf. -/
theorem built_leaf (homog : Rect → Prop) (r : Rect) : Built 0 0 homog (meanColor pixelsA2) 0 r [leafA2 0 r] :=
  .leaf 0 r (Nat.le_refl 0) (.inl (Nat.le_refl 0))

/-- The root rectangle of A2. -/
def rootA2 : Rect := rootRect 2 2

/-- The tree of one forced split. -/
def splitA2 : List NodeRec :=
  NodeRec.ofRect .internal 0 rootA2 ::
    ([leafA2 1 rootA2.child0] ++ [leafA2 1 rootA2.child1] ++ [leafA2 1 rootA2.child2] ++ [leafA2 1 rootA2.child3])

theorem built_split (homog : Rect → Prop) : Built 1 1 homog (meanColor pixelsA2) 0 rootA2 splitA2 :=
  .split 0 rootA2 _ _ _ _ (.inl (by decide)) (.leaf 1 _ (Nat.le_refl 1) (.inl (Nat.le_refl 1)))
    (.leaf 1 _ (Nat.le_refl 1) (.inl (Nat.le_refl 1))) (.leaf 1 _ (Nat.le_refl 1) (.inl (Nat.le_refl 1)))
    (.leaf 1 _ (Nat.le_refl 1) (.inl (Nat.le_refl 1)))

theorem witness_QtBuildResult :
    (building 0).pendingAbort = false ∧ (building 0).snap.minDepth.toNat ≤ (building 0).snap.maxDepth.toNat ∧
      (building 0).snap.maxDepth.toNat ≤ (building 0).par.maxTreeDepth ∧ (building 0).snap.lossPercent.toNat ≤ 100 ∧
      (building 0).valid.satV = true ∧
      SatHolds (building 0).sat (building 0).cnt.satW.toNat (building 0).cnt.satH.toNat pixelsA2 ∧
      (building 0).snap.pixBase.toNat + 3 * ((building 0).cnt.satW.toNat * (building 0).cnt.satH.toNat) ≤ 2 ^ 32 ∧
      busRange (building 0).par .read (building 0).snap.pixBase.toNat
        (3 * ((building 0).cnt.satW.toNat * (building 0).cnt.satH.toNat)) ∧
      (∀ homog, Built (building 0).snap.minDepth.toNat (building 0).snap.maxDepth.toNat homog (meanColor pixelsA2) 0
        (rootRect (building 0).cnt.satW (building 0).cnt.satH) [leafA2 0 rootA2]) ∧
      SymbolsOf (leafColors [leafA2 0 rootA2]) (symbolTable (leafColors [leafA2 0 rootA2])) ∧
      [leafA2 0 rootA2].length ≤ (building 0).par.maxNodes ∧
      (symbolTable (leafColors [leafA2 0 rootA2])).length ≤ (building 0).par.maxSymbols :=
  ⟨rfl, by decide, by decide, by decide, rfl, satA2_holds, by decide, busRange_tc _ _ _, fun _ => built_leaf _ _,
    symbolTable_spec _, by decide, by change 1 ≤ 4096; decide⟩

/-- The forced split in a block that holds four nodes. -/
def crowded : State := { building 1 with par := { Params.tc with maxNodes := 4 } }

theorem witness_QtBuildCapacity :
    crowded.pendingAbort = false ∧ crowded.snap.minDepth.toNat ≤ crowded.snap.maxDepth.toNat ∧
      crowded.snap.maxDepth.toNat ≤ crowded.par.maxTreeDepth ∧ crowded.snap.lossPercent.toNat ≤ 100 ∧
      crowded.valid.satV = true ∧ SatHolds crowded.sat crowded.cnt.satW.toNat crowded.cnt.satH.toNat pixelsA2 ∧
      crowded.snap.pixBase.toNat + 3 * (crowded.cnt.satW.toNat * crowded.cnt.satH.toNat) ≤ 2 ^ 32 ∧
      busRange crowded.par .read crowded.snap.pixBase.toNat (3 * (crowded.cnt.satW.toNat * crowded.cnt.satH.toNat)) ∧
      (∀ homog, Built crowded.snap.minDepth.toNat crowded.snap.maxDepth.toNat homog (meanColor pixelsA2) 0
        (rootRect crowded.cnt.satW crowded.cnt.satH) splitA2) ∧
      SymbolsOf (leafColors splitA2) (symbolTable (leafColors splitA2)) ∧ crowded.par.maxNodes < splitA2.length :=
  ⟨rfl, by decide, by decide, by decide, rfl, satA2_holds, by decide, fun _ _ _ => rfl, fun _ => built_split _,
    symbolTable_spec _, by decide⟩

theorem witness_InspectNodeResult :
    (accept 12 (query 4 0 0 0 coded)).pendingAbort = false ∧ (accept 12 (query 4 0 0 0 coded)).valid.treeV = true ∧
      (accept 12 (query 4 0 0 0 coded)).snap.qIndex.toNat < (accept 12 (query 4 0 0 0 coded)).cnt.nodeCount.toNat ∧
      (accept 12 (query 4 0 0 0 coded)).nodes[(accept 12 (query 4 0 0 0 coded)).snap.qIndex.toNat]? =
        some ⟨.leaf ⟨0, 0, 0⟩, 1, 1, 1, 1, 1⟩ ∧ (⟨.leaf ⟨0, 0, 0⟩, 1, 1, 1, 1, 1⟩ : NodeRec).depth ≤ 255 := by
  decide +kernel

/-- A running HUF_BUILD. -/
def hufRun (fs : List Nat) : State := accept 5 (withFreqs fs)

theorem witness_HufBuildResult :
    (hufRun [5, 2, 1, 1]).pendingAbort = false ∧ (hufRun [5, 2, 1, 1]).valid.freqV = true ∧
      (hufRun [5, 2, 1, 1]).syms.length = (hufRun [5, 2, 1, 1]).cnt.symCount.toNat ∧
      ∀ c ∈ hufCodes (symFreqs (hufRun [5, 2, 1, 1]).syms), c.length ≤ (hufRun [5, 2, 1, 1]).par.maxCodeLen := by
  decide +kernel

theorem witness_HufBuildCapacity :
    { hufRun [1, 1, 1] with par := { Params.tc with maxCodeLen := 1 } }.pendingAbort = false ∧
      { hufRun [1, 1, 1] with par := { Params.tc with maxCodeLen := 1 } }.valid.freqV = true ∧
      ∃ c ∈ hufCodes (symFreqs (hufRun [1, 1, 1]).syms), 1 < c.length := by decide +kernel

theorem witness_HuffmanCodes : 2 ≤ [1, 1].length ∧ [7].length = 1 := by decide

theorem witness_InspectSymResult :
    (accept 13 (query 1 0 0 0 coded)).pendingAbort = false ∧ (accept 13 (query 1 0 0 0 coded)).valid.freqV = true ∧
      (accept 13 (query 1 0 0 0 coded)).snap.qIndex.toNat < (accept 13 (query 1 0 0 0 coded)).cnt.symCount.toNat ∧
      (accept 13 (query 1 0 0 0 coded)).syms[(accept 13 (query 1 0 0 0 coded)).snap.qIndex.toNat]? =
        some ⟨⟨255, 255, 255⟩, 2, [true]⟩ := by decide +kernel

/-- ENCODE of the checkerboard into a buffer of exactly its size. -/
def encoding : State := buffers .encode 0x200 26 0x300 12 coded

theorem witness_EncodeResult :
    encoding.pendingAbort = false ∧ encoding.mem.wf = true ∧ encoding.valid.treeV = true ∧ encoding.valid.codeV = true ∧
      encoding.valid.treeDec = false ∧ encoding.snap.cntBase.toNat + encoding.snap.cntLen.toNat ≤ 2 ^ 32 ∧
      containerSize encoding.syms encoding.nodes ≤ encoding.snap.cntLen.toNat ∧
      busRange encoding.par .write encoding.snap.cntBase.toNat (containerSize encoding.syms encoding.nodes) := by
  have hp : encoding.par = Params.tc := by decide +kernel
  refine ⟨?_, ?_, ?_, ?_, ?_, ?_, ?_, hp ▸ busRange_tc _ _ _⟩ <;> decide +kernel

/-- The one-leaf tree of the uniform image and its table. -/
def leafS1 : List NodeRec := [NodeRec.ofRect (.leaf ⟨10, 20, 30⟩) 0 (rootRect 2 2)]

/-- See `leafS1`. -/
def tableS1 : List SymEntry := [⟨⟨10, 20, 30⟩, 1, [false]⟩]

/-- A running command on the container of the uniform image. -/
def decoding (i : Instr) : State := buffers i 0x200 19 0x300 12 (ran .compress uniform)

theorem decoding_bytes (i : Instr) :
    ∀ k (hk : k < (container 2 2 (BitVec.ofNat 32 tableS1.length) tableS1 leafS1).length),
      (decoding i).mem.read ((decoding i).snap.cntBase.toNat + k) =
        (container 2 2 (BitVec.ofNat 32 tableS1.length) tableS1 leafS1)[k] := by
  have h : bytesFrom (ran .compress uniform) 0x200 19 = container 2 2 (BitVec.ofNat 32 tableS1.length) tableS1 leafS1 := by
    decide +kernel
  intro k hk
  have hk' : k < (bytesFrom (ran .compress uniform) 0x200 19).length := by rw [h]; exact hk
  have hb : (bytesFrom (ran .compress uniform) 0x200 19)[k] = (ran .compress uniform).mem.read (0x200 + k) := by
    simp [bytesFrom]
  exact hb.symm.trans (List.getElem_of_eq h hk')

theorem witness_DecodeResult (i : Instr) :
    (decoding i).pendingAbort = false ∧ (decoding i).par.wellFormed = true ∧
      (decoding i).snap.cntBase.toNat + (decoding i).snap.cntLen.toNat ≤ 2 ^ 32 ∧
      containerSize tableS1 leafS1 ≤ (decoding i).snap.cntLen.toNat ∧
      busRange (decoding i).par .read (decoding i).snap.cntBase.toNat (containerSize tableS1 leafS1) ∧
      0 < (2 : Word).toInt ∧ tableS1.length ≤ (decoding i).par.maxSymbols ∧
      PreOrder (decoding i).par.maxTreeDepth 0 (rootRect 2 2) leafS1 ∧ leafS1.length ≤ (decoding i).par.maxNodes ∧
      (∀ e ∈ tableS1, 1 ≤ e.code.length ∧ e.code.length ≤ (decoding i).par.maxCodeLen ∧
        ∀ p, p <+: e.code → p ∈ [[], [false]]) ∧
      [] ∈ [([] : List Bool), [false]] ∧ [([] : List Bool), [false]].length ≤ (decoding i).par.maxTrieNodes ∧
      PrefixFree (tableS1.map (·.code)) ∧ ∀ c ∈ leafColors leafS1, ∃ e ∈ tableS1, e.color = c := by
  refine ⟨rfl, by cases i <;> decide, by cases i <;> decide, by cases i <;> decide, busRange_tc _ _ _, by decide,
    by cases i <;> decide, .leaf _ _ _ _, by cases i <;> decide, ?_, by decide, by cases i <;> decide,
    List.pairwise_singleton _ _, by decide⟩
  intro e he
  rw [tableS1, List.mem_singleton] at he
  subst he
  refine ⟨by decide, by change 1 ≤ 32; decide, fun p hp => ?_⟩
  rcases List.prefix_cons_iff.mp hp with rfl | ⟨q, rfl, hq⟩
  · simp
  · rw [List.prefix_nil.mp hq]
    simp

/-- A running DECODE of a container that begins with these words. -/
def headed (w h n : Word) (len : Nat) : State :=
  buffers .decode 0x200 len 0 0 { State.reset with mem := Memory.writeAll [] (cellsAt 0x200 (s32be w ++ s32be h ++ s32be n)) }

/-- Every clause of the header checks, at the value next to where it ends, with the words in memory. -/
theorem witness_DecodeHeaderErrors :
    (∀ k, k < 4 → (headed 1 2 4097 12).mem.read (0x200 + k) = (s32be 1).getD k 0 ∧
      (headed 1 2 4097 12).mem.read (0x200 + 4 + k) = (s32be 2).getD k 0 ∧
      (headed 1 2 4097 12).mem.read (0x200 + 8 + k) = (s32be 4097).getD k 0) ∧
    (headed 1 2 4097 12).snap.cntBase = 0x200 ∧ (headed 1 2 4097 12).pendingAbort = false ∧
    headerFailure (headed 1 2 4097 3) 1 2 4097 3 3 ∧ headerFailure (headed 0 2 0 12) 0 2 0 3 0 ∧
    headerFailure (headed 1 2 0 7) 1 2 0 3 7 ∧ headerFailure (headed 1 0 0 12) 1 0 0 3 4 ∧
    headerFailure (headed 1 1 0 11) 1 1 0 3 11 ∧ headerFailure (headed 1 1 0xFFFFFFFF 12) 1 1 0xFFFFFFFF 3 8 ∧
    headerFailure (headed 1 2 4097 12) 1 2 4097 6 2 := by
  and_intros <;> decide +kernel

/-- RECONSTRUCT of the uniform image's tree into a buffer of exactly its size. -/
def painting : State :=
  { decoding .reconstruct with nodes := leafS1, valid := ⟨true, true, true, true, false⟩,
                               cnt := { Counters.reset with treeW := 2, treeH := 2 } }

theorem witness_ReconstructResult :
    painting.pendingAbort = false ∧ painting.mem.wf = true ∧ painting.valid.treeV = true ∧
      PreOrder painting.par.maxTreeDepth 0 (rootRect painting.cnt.treeW painting.cnt.treeH) painting.nodes ∧
      3 * (painting.cnt.treeW.toNat * painting.cnt.treeH.toNat) ≤ painting.snap.outCap.toNat ∧
      painting.snap.outBase.toNat + 3 * (painting.cnt.treeW.toNat * painting.cnt.treeH.toNat) ≤ 2 ^ 32 ∧
      busRange painting.par .write painting.snap.outBase.toNat
        (3 * (painting.cnt.treeW.toNat * painting.cnt.treeH.toNat)) :=
  ⟨rfl, by decide +kernel, rfl, .leaf _ _ _ _, by decide, by decide, busRange_tc _ _ _⟩

/-- One command after another, each in the state the one before it left. -/
def afterExec (i : Instr) (s : State) : State := runCommand ((plan i).map StageId.stage) s

theorem exec_afterExec {i : Instr} (ha : i ≠ .abort) (hs : i ≠ .softReset) (s : State) :
    exec i s = .next (afterExec i s) := exec_eq_runCommand ha hs s

/-- The four stages of COMPRESS succeed one after another; and the first of them can fail. -/
theorem witness_CompressIsItsStages :
    (accept 9 uniform).pendingAbort = false ∧
      (∀ s, exec .satBuild s = .next (afterExec .satBuild s) ∧ exec .qtBuild s = .next (afterExec .qtBuild s) ∧
        exec .hufBuild s = .next (afterExec .hufBuild s) ∧ exec .encode s = .next (afterExec .encode s)) ∧
      (afterExec .satBuild (accept 9 uniform)).status.errCode = 0 ∧
      (afterExec .qtBuild (afterExec .satBuild (accept 9 uniform))).status.errCode = 0 ∧
      (afterExec .hufBuild (afterExec .qtBuild (afterExec .satBuild (accept 9 uniform)))).status.errCode = 0 ∧
      (afterExec .satBuild (accept 9 State.reset)).status.errCode ≠ 0 :=
  ⟨rfl, fun _ => ⟨exec_afterExec (by decide) (by decide) _, exec_afterExec (by decide) (by decide) _,
    exec_afterExec (by decide) (by decide) _, exec_afterExec (by decide) (by decide) _⟩, by decide +kernel⟩

theorem witness_DecompressIsItsStages :
    (decoding .decompress).pendingAbort = false ∧
      (∀ s, exec .decode s = .next (afterExec .decode s) ∧ exec .reconstruct s = .next (afterExec .reconstruct s)) ∧
      (afterExec .decode (decoding .decompress)).status.errCode = 0 ∧
      (afterExec .decode (accept 10 State.reset)).status.errCode ≠ 0 :=
  ⟨rfl, fun _ => ⟨exec_afterExec (by decide) (by decide) _, exec_afterExec (by decide) (by decide) _⟩, by decide +kernel⟩

/-- A running COMPRESS of A2 with MAX_DEPTH = 0. -/
def compressing : State := policy .compress 0 0 0 imageA2

/-- Its symbol table with the code of a single symbol. -/
def tableA2 : List SymEntry := [⟨meanColor pixelsA2 rootA2, 1, [false]⟩]

theorem witness_CompressResult :
    compressing.pendingAbort = false ∧ compressing.par.wellFormed = true ∧ compressing.mem.wf = true ∧
      compressing.snap.imgW ≠ 0 ∧ compressing.snap.imgH ≠ 0 ∧
      compressing.snap.imgW.toNat * compressing.snap.imgH.toNat ≤ compressing.par.maxPixels ∧
      compressing.snap.pixBase.toNat + 3 * (compressing.snap.imgW.toNat * compressing.snap.imgH.toNat) ≤ 2 ^ 32 ∧
      busRange compressing.par .read compressing.snap.pixBase.toNat
        (3 * (compressing.snap.imgW.toNat * compressing.snap.imgH.toNat)) ∧
      pixelsA2 = imageAt compressing.mem compressing.snap.pixBase.toNat compressing.snap.imgW.toNat ∧
      compressing.snap.minDepth.toNat ≤ compressing.snap.maxDepth.toNat ∧
      compressing.snap.maxDepth.toNat ≤ compressing.par.maxTreeDepth ∧ compressing.snap.lossPercent.toNat ≤ 100 ∧
      (∀ homog, Built compressing.snap.minDepth.toNat compressing.snap.maxDepth.toNat homog (meanColor pixelsA2) 0
        (rootRect compressing.snap.imgW compressing.snap.imgH) [leafA2 0 rootA2]) ∧
      SymbolsOf (leafColors [leafA2 0 rootA2]) (tableA2.map fun (e : SymEntry) => { e with code := [] }) ∧
      tableA2.map (·.code) = hufCodes (symFreqs tableA2) ∧ [leafA2 0 rootA2].length ≤ compressing.par.maxNodes ∧
      tableA2.length ≤ compressing.par.maxSymbols ∧ (∀ e ∈ tableA2, e.code.length ≤ compressing.par.maxCodeLen) ∧
      compressing.snap.cntBase.toNat + compressing.snap.cntLen.toNat ≤ 2 ^ 32 ∧
      containerSize tableA2 [leafA2 0 rootA2] ≤ compressing.snap.cntLen.toNat ∧
      busRange compressing.par .write compressing.snap.cntBase.toNat (containerSize tableA2 [leafA2 0 rootA2]) := by
  refine ⟨rfl, by decide, by decide +kernel, by decide, by decide, by decide, by decide, busRange_tc _ _ _, rfl, by decide,
    by decide, by decide, fun _ => built_leaf _ _, symbolTable_spec _, rfl, by decide, by decide, ?_, by decide, ?_,
    busRange_tc _ _ _⟩
  · intro e he
    rw [tableA2, List.mem_singleton] at he
    subst he
    decide
  · simp [containerSize, tableA2, leafA2, NodeRec.ofRect, payloadLength, codeFor, ceil8, compressing, policy, imageA2, block]

/-- The buffers of a DECOMPRESS of that container, which hold the image exactly; with `witness_DecodeResult` and
`decoding_bytes` at DECOMPRESS these are all the hypotheses. -/
theorem witness_DecompressResult :
    (decoding .decompress).mem.wf = true ∧
      3 * ((2 : Word).toNat * (2 : Word).toNat) ≤ (decoding .decompress).snap.outCap.toNat ∧
      (decoding .decompress).snap.outBase.toNat + 3 * ((2 : Word).toNat * (2 : Word).toNat) ≤ 2 ^ 32 ∧
      busRange (decoding .decompress).par .write (decoding .decompress).snap.outBase.toNat
        (3 * ((2 : Word).toNat * (2 : Word).toNat)) :=
  ⟨by decide +kernel, by decide, by decide, busRange_tc _ _ _⟩

theorem witness_LeavesTile : PreOrder 16 0 (rootRect 2 2) leafS1 := .leaf _ _ _ _

theorem witness_DepthBounds (homog : Rect → Prop) :
    1 ≤ 1 ∧ Built 1 1 homog (meanColor pixelsA2) 0 rootA2 splitA2 := ⟨Nat.le_refl 1, built_split homog⟩

/-- The build of the checkerboard with MIN_DEPTH = MAX_DEPTH = 1 and m = 1: its root is split into four tasks, which three
workers take. -/
def splitting (maxNodes : Nat) : QtEnv where
  par := { Params.tc with maxNodes := maxNodes, numWorkers := 3 }
  mem := checker.mem
  sat := satTable checker.mem 0x100 2 2
  satW := 2
  base := 0x100
  minD := 1
  maxD := 1
  loss := 0
  conc := 1

/-- A schedule that takes the last task first, with a number for each move there can be in a block of five nodes. -/
def backwards : List Nat := [0, 0, 3, 3, 3, 2, 3] ++ List.replicate 28 1

theorem witness_ScheduleIndependence :
    poolMoves (splitting 5).par ≤ backwards.length ∧ poolMoves (splitting 4).par ≤ backwards.length ∧
      ((BuildRun.start 1 (rootRect 2 2)).follow (splitting 5) backwards).failure = none ∧
      ((BuildRun.start 1 (rootRect 2 2)).follow (splitting 4) backwards).failure = some (.capacity 1) := by decide +kernel

/-- Three of the four tasks are taken, and the fourth waits for a worker; a task in another order ends first, and the
records are assembled in the quadrant order. -/
theorem test_pool :
    ((BuildRun.start 1 (rootRect 2 2)).follow (splitting 5) [0, 0, 3, 0, 1]).task.active = 3 ∧
      (((BuildRun.start 1 (rootRect 2 2)).follow (splitting 5) [0, 0, 3, 0, 1]).nexts (splitting 5)).length = 3 ∧
      ((BuildRun.start 1 (rootRect 2 2)).follow (splitting 5) backwards).task.records =
        ((splitting 5).build 1 0 (rootRect 2 2)).nodes := by decide +kernel

/-- Four leaf colours, two workers, P_MAX_NODES = 4 and P_MAX_SYMBOLS = 2: both limits are exceeded. -/
def fourColors : QtEnv :=
  { splitting 4 with
    par := { Params.tc with maxNodes := 4, maxSymbols := 2, numWorkers := 2 }
    mem := imageA2.mem
    sat := satTable imageA2.mem 0x100 2 2 }

/-- Either limit may be reported (R167): the third leaf is appended, and then either its colour is counted or another worker
appends the fourth leaf. -/
theorem test_pool_capacity :
    ((BuildRun.start 1 (rootRect 2 2)).follow fourColors [0, 0, 0, 0, 0, 0, 0, 0, 0, 1, 0, 0]).failure = some (.capacity 2) ∧
      ((BuildRun.start 1 (rootRect 2 2)).follow fourColors [0, 0, 0, 0, 0, 0, 0, 0, 0, 1, 0, 1]).failure =
        some (.capacity 1) := by decide +kernel

/-- The uniform image's tree with its codes, idle, and the container buffer of 64 bytes. -/
def finished : State :=
  { uniform with
    nodes := leafS1
    syms := tableS1
    valid := ⟨false, true, true, true, false⟩
    cnt := { Counters.reset with treeW := 2, treeH := 2, nodeCount := 1, leafCount := 1, symCount := 1 } }

theorem finished_inv : finished.Inv := by
  refine ⟨by decide, by decide +kernel, by decide +kernel, by decide, by decide, by decide, by decide, fun _ _ => rfl,
    fun h => absurd h (by decide), ⟨rfl, rfl, rfl⟩, ?_⟩
  exact ⟨by decide, fun _ => ⟨.leaf _ _ _ _, by decide, by decide, by decide⟩, by decide, by decide,
    fun _ => symbolTable_spec [⟨10, 20, 30⟩], by decide, by decide, by decide, by decide⟩

/-- The STATUS read of a WAIT sees the completion that follows it: an ABORT behind the WAIT does not reach the command, and
STAGE may read as the code before, 5, or the code after, 6 (R24, R325). -/
theorem test_wait_stage :
    (hostWait { decoding .decompress with agenda := [.write (regAddress Params.tc .cmd) 4 0x0E] } =
        .next (record (hostRegRead .status
          { decoding .decompress with agenda := [.engine, .wait, .write (regAddress Params.tc .cmd) 4 0x0E] }).1
          (hostRegRead .status
          { decoding .decompress with agenda := [.engine, .wait, .write (regAddress Params.tc .cmd) 4 0x0E] }).2)) ∧
      stageCodes { decoding .decompress with agenda := [.engine, .wait, .write (regAddress Params.tc .cmd) 4 0x0E] } =
        [4, 6, 5] := ⟨rfl, by decide +kernel⟩

theorem witness_RoundTrip :
    finished.Inv ∧ 2 ≤ finished.par.maxTrieNodes ∧
      exec .encode (accept (encode .encode) finished) = .next (ran .encode finished) ∧
      (ran .encode finished).status.errCode = 0 ∧
      busRange finished.par .read finished.cfg.cntBase.toNat (ran .encode finished).cnt.outLen.toNat :=
  ⟨finished_inv, by decide, exec_ran (by decide) (by decide) _, by decide +kernel, busRange_tc _ _ _⟩

theorem witness_ResetMeetsInvariant : { Params.tc with maxTreeDepth := 255 }.wellFormed = true := by decide

theorem witness_StepKeepsInvariant : finished.Inv ∧ step finished = .next finished := ⟨finished_inv, rfl⟩

end Sys2Proof.Tests
end

section
/-! The register window in equations: what a write to a register other than STATUS stores, what a read returns after it, and
what CAP0 to CAP4 hold (spec/10_state.md R43 to R46); and the commutation of such a write with a command (R44). -/

namespace Sys2Proof.Machine

/-! ## Words of fields -/

/-- A narrow field read back as a word keeps exactly the field's bits (R43). -/
theorem setWidth_field (v m : Word) {n : Nat} (hn : n ≤ 32) (hm : m.toNat = 2 ^ n - 1) :
    (v.setWidth n).setWidth 32 = v &&& m := by
  apply BitVec.eq_of_toNat_eq
  have hlt : v.toNat % 2 ^ n < 2 ^ 32 :=
    (Nat.mod_lt _ (Nat.two_pow_pos n)).trans_le (Nat.pow_le_pow_right (by decide) hn)
  rw [BitVec.toNat_and, hm, Nat.and_two_pow_sub_one_eq_mod, BitVec.toNat_setWidth, BitVec.toNat_setWidth,
    Nat.mod_eq_of_lt hlt]

/-- The one-bit field of CTRL (R22). -/
theorem ctrl_field (v : Word) : (0 : BitVec 31) ++ BitVec.ofBool (v.getLsbD 0) = v &&& 1 := by
  rw [← setWidth_field v 1 (n := 1) (by decide) rfl]
  apply BitVec.eq_of_getLsbD_eq
  intro i hi
  simp only [BitVec.getLsbD_append, BitVec.getLsbD_setWidth, BitVec.getLsbD_ofBool]
  by_cases h : i < 1
  · obtain rfl : i = 0 := by omega
    simp
  · simp [h]

/-- Concatenated fields as a number: the upper field counts in units of the lower one's range. -/
theorem toNat_append_fields {m n : Nat} (x : BitVec m) (y : BitVec n) :
    (x ++ y).toNat = 2 ^ n * x.toNat + y.toNat := by
  rw [BitVec.toNat_append, ← Nat.shiftLeft_add_eq_or_of_lt y.isLt, Nat.shiftLeft_eq, Nat.mul_comm]

/-! ## Writes -/

/-- A register without field bits, STATUS aside, ignores a write (R46). -/
theorem regWrite_of_writeMask_none {r : Reg} (hm : writeMask r = none) (hs : r ≠ .status) (v : Word) (s : State) :
    regWrite r v s = s := by
  cases r
  case status => exact absurd rfl hs
  case ctrl | imgW | imgH | minDepth | maxDepth | lossPercent | maxConcDepth | pixBase | outBase | outCap | cntBase
    | cntLen | qX | qY | qW | qH | qColor | qIndex => cases hm
  all_goals rfl

/-- A read-write register reads back the field bits of the word last written to it (R43, R44). -/
theorem regRead_regWrite_same {r : Reg} {m : Word} (hm : writeMask r = some m) (v : Word) (s : State) :
    regRead r (regWrite r v s) = v &&& m := by
  cases r
  case ctrl => cases hm; exact ctrl_field v
  case minDepth | maxDepth | lossPercent | maxConcDepth => cases hm; exact setWidth_field v _ (n := 8) (by decide) rfl
  case qColor => cases hm; exact setWidth_field v _ (n := 24) (by decide) rfl
  case imgW | imgH | pixBase | outBase | outCap | cntBase | cntLen | qX | qY | qW | qH | qIndex =>
    cases hm
    exact BitVec.and_allOnes.symm
  all_goals cases hm

/-! ## Writes and commands -/

/-- Where a stage has kept the outer fields, replacing all of them by those before it changes only what differs there: the
two that the host writes at any time. -/
theorem Kept.set_host {s t : State} (h : Kept s t) (b : Bool) (o : Operands) :
    { Outer.of s with irqEn := b, cfg := o }.set t = { t with irqEn := b, cfg := o } := by
  simp only [Outer.set, Outer.of, ← h.cmd, ← h.pendingAbort, ← h.stageBefore, ← h.agenda, ← h.reads, ← h.readIx,
    ← h.errInfo, ← h.busy, ← h.done, ← h.ovr, ← h.errCode]

/-- A write that the host may make at any time commutes with a command that runs stages: the stages read the snapshot (R44,
spec/60_exceptions.md R283). -/
theorem runCommand_regWrite (ks : List StageId) {r : Reg} (hr : r ≠ .status) (v : Word) (s : State) :
    runCommand (ks.map StageId.stage) (regWrite r v s) = regWrite r v (runCommand (ks.map StageId.stage) s) := by
  obtain ⟨b, o, hw⟩ := regWrite_frame v s hr
  obtain ⟨c, i, t, hk, hs, hset⟩ := runCommand_set { Outer.of s with irqEn := b, cfg := o } ks s rfl
  calc runCommand (ks.map StageId.stage) (regWrite r v s)
      = runCommand (ks.map StageId.stage) ({ Outer.of s with irqEn := b, cfg := o }.set s) := by
        rw [hw s rfl rfl, (Kept.refl s).set_host]
    _ = completeWith c i { t with irqEn := b, cfg := o } := by rw [hset, hk.set_host]
    _ = regWrite r v (completeWith c i t) := (hw (completeWith c i t) hk.irqEn hk.cfg).symm
    _ = regWrite r v (runCommand (ks.map StageId.stage) s) := by rw [hs]

/-- ABORT sets only the pending-abort flag, which such a write leaves alone (spec/60_exceptions.md R288). -/
theorem execAbort_regWrite {r : Reg} (hr : r ≠ .status) (v : Word) {s t : State} (h : execAbort s = .next t) :
    execAbort (regWrite r v s) = .next (regWrite r v t) := by
  obtain ⟨b, o, hw⟩ := regWrite_frame v s hr
  cases h
  rw [hw s rfl rfl]
  simp only [execAbort]
  cases s.status.busy with
  | true => exact congrArg Host.Outcome.next (hw { s with pendingAbort := true } rfl rfl).symm
  | false => exact congrArg Host.Outcome.next (hw s rfl rfl).symm

/-- A write to any register but STATUS and a command but SOFT_RESET commute (R44). -/
theorem exec_regWrite {i : Instr} (hi : i ≠ .softReset) {r : Reg} (hr : r ≠ .status) (v : Word) {s t : State}
    (h : exec i s = .next t) : exec i (regWrite r v s) = .next (regWrite r v t) := by
  by_cases ha : i = .abort
  · subst ha
    exact execAbort_regWrite hr v h
  · rw [exec_eq_runCommand ha hi] at h ⊢
    cases h
    rw [runCommand_regWrite _ hr]

/-! ## The capability registers -/

/-- The bound of R6 on P_MAX_TRIE_NODES, beside those of `Params.bounds`: CAP4 has room for it. -/
theorem Params.maxTrieNodes_le {p : Params} (h : p.wellFormed = true) : p.maxTrieNodes ≤ 2 ^ 31 := by
  simp only [Params.wellFormed, Params.trieOk, Bool.and_eq_true, decide_eq_true_eq] at h
  omega

/-- CAP0 as a number: three byte fields (R45). -/
theorem cap0Value_toNat {p : Params} (hd : p.maxTreeDepth ≤ 255) (hl : p.maxCodeLen ≤ 255) :
    (cap0Value p).toNat = p.maxTreeDepth + 256 * p.maxCodeLen + 65536 * min p.numWorkers 255 := by
  have fits {n : Nat} (h : n ≤ 255) : (BitVec.ofNat 8 n).toNat = n := by
    rw [BitVec.toNat_ofNat, Nat.mod_eq_of_lt (by omega)]
  have h0 : (0 : BitVec 8).toNat = 0 := rfl
  simp only [cap0Value, toNat_append_fields, h0, fits hd, fits hl,
    fits (Nat.min_le_right p.numWorkers 255)]
  omega

/-- The capability registers depend on the parameters alone (R45). -/
theorem regRead_cap_congr {r : Reg} (hr : r ∈ [Reg.cap0, .cap1, .cap2, .cap3, .cap4]) {s t : State}
    (hp : t.par = s.par) : regRead r t = regRead r s := by
  simp only [List.mem_cons, List.not_mem_nil, or_false] at hr
  rcases hr with rfl | rfl | rfl | rfl | rfl <;> simp only [regRead, hp]

end Sys2Proof.Machine
end

section
/-! The statements of spec/10_state.md about configuration writes and the capability registers. -/

namespace Sys2Proof.Machine

/-- Settles O12: a write commutes with the command, and is read back at once. -/
theorem configurationFrozen : Obligations.ConfigurationFrozen := by
  intro i s t r v hi hr h
  exact ⟨exec_regWrite hi hr v h, fun m hm => ⟨regRead_regWrite_same hm v s, regRead_regWrite_same hm v t⟩⟩

/-- Settles O17: legal parameters fit the fields, and no register write or reset reaches the parameters. -/
theorem capabilityRegisters : Obligations.CapabilityRegisters := by
  intro s hp
  obtain ⟨hpix, hdepth, hnodes, hsyms, hlen, _, _⟩ := Params.bounds hp
  have htrie := Params.maxTrieNodes_le hp
  refine ⟨cap0Value_toNat hdepth (by omega), ofNat32_toNat (by omega), ofNat32_toNat (by omega),
    ofNat32_toNat (by omega), ofNat32_toNat (by omega), fun r hr => ⟨fun v => ?_, regRead_cap_congr hr rfl⟩⟩
  obtain ⟨hmask, hstatus⟩ : writeMask r = none ∧ r ≠ .status := by
    simp only [List.mem_cons, List.not_mem_nil, or_false] at hr
    rcases hr with rfl | rfl | rfl | rfl | rfl <;> exact ⟨rfl, by decide⟩
  exact regWrite_of_writeMask_none hmask hstatus v s

end Sys2Proof.Machine
end

section
/-! The host's loads from external memory (spec/20_memory.md R75). -/

namespace Sys2Proof.Machine

/-- The bytes a load may return beside the stored one are what the running command would store there (R75). -/
theorem mem_busyBytes {a : Nat} {b : Byte} {s : State} :
    b ∈ busyBytes a s ↔ s.status.busy = true ∧ (a, b) ∈ runningWrites s := by
  unfold busyBytes
  cases s.status.busy <;> simp

/-- While the block is idle a load has one candidate, the stored byte. -/
theorem busyBytes_of_idle (a : Nat) {s : State} (h : s.status.busy = false) : busyBytes a s = [] :=
  List.eq_nil_iff_forall_not_mem.mpr fun _ hb => Bool.false_ne_true (h.symm.trans (mem_busyBytes.mp hb).1)

/-- A host load of an address that exists records a byte, drawn from the reads' supply only while a command runs (R75). -/
theorem hostLoad_next {a : Nat} (ha : a < 2 ^ 32) (s : State) :
    ∃ (b : Byte) (n : Nat), hostLoad a s = .next { s with reads := b.setWidth 32 :: s.reads, readIx := n } ∧
      (b = s.mem.read a ∨ s.status.busy = true ∧ (a, b) ∈ runningWrites s) ∧
      (s.status.busy = false → n = s.readIx) := by
  have hspace : ¬ addressSpace ≤ a := Nat.not_le.mpr ha
  simp only [hostLoad, if_neg hspace]
  cases hbusy : s.status.busy with
  | false =>
    rw [busyBytes_of_idle a hbusy]
    exact ⟨s.mem.read a, s.readIx, rfl, .inl rfl, fun _ => rfl⟩
  | true =>
    obtain ⟨n, hn⟩ := chooseRead_state (s.mem.read a) ((busyBytes a s).filter fun v => v != s.mem.read a) s
    refine ⟨_, n, congrArg (fun t => Host.Outcome.next (record _ t)) hn, ?_, nofun⟩
    rcases List.mem_cons.mp (chooseRead_mem (s.mem.read a) _ s) with hold | hnew
    · exact .inl hold
    · obtain ⟨_, hstore⟩ := mem_busyBytes.mp (List.mem_filter.mp hnew).1
      exact .inr ⟨rfl, hstore⟩

end Sys2Proof.Machine

namespace Sys2Proof.Laws.HostLoad

open Sys2Proof.Machine

/-- Settles O27: a load is one step, and its choice is among the stored byte and the running command's writes. -/
theorem hostLoad : Obligations.HostLoad := by
  intro s a rest hagenda ha
  rw [step_cons hagenda]
  exact hostLoad_next ha (s.withRest rest)

end Sys2Proof.Laws.HostLoad
end

section
/-! A command word as its two fields (spec/30_encoding.md R91 to R93): the decoder accepts a word exactly where they are
those of a command's own word, and they cover the word. -/

namespace Sys2Proof

/-- The opcode map gives each command one byte and each byte at most one command (R92). -/
theorem opcodeCommand_eq_some {o : BitVec 8} {i : Instr} : opcodeCommand o = some i ↔ o = opcodeOf i := by
  constructor
  · intro h
    unfold opcodeCommand at h
    split at h <;> cases h
    all_goals exact BitVec.eq_of_toNat_eq ‹_›
  · rintro rfl
    cases i <;> rfl

/-- The decoder accepts the words with a command's byte in OPCODE and 0 in RSVD (R91 to R93). -/
theorem decode_eq_ok {v : Word} {i : Instr} : decode v = .ok i ↔ CommandWord.ofWord v = ⟨opcodeOf i, 0⟩ := by
  simp only [decode]
  generalize CommandWord.ofWord v = c
  obtain ⟨opcode, rsvd⟩ := c
  rw [CommandWord.mk.injEq, ← opcodeCommand_eq_some]
  by_cases hrsvd : rsvd = 0
  · cases opcodeCommand opcode <;> simp [CommandWord.rsvdOk, hrsvd]
  · have hbad : ¬(CommandWord.mk opcode rsvd).rsvdOk = true := fun h => hrsvd (beq_iff_eq.mp h)
    simp only [if_neg hbad, hrsvd, and_false, reduceCtorEq]

/-- The fields of an encoded command (R91). -/
theorem ofWord_encode (i : Instr) : CommandWord.ofWord (encode i) = ⟨opcodeOf i, 0⟩ :=
  congrArg₂ CommandWord.mk BitVec.extractLsb'_append_eq_right BitVec.extractLsb'_append_eq_left

/-- The two fields cover the word (R91). -/
theorem ofWord_injective : Function.Injective CommandWord.ofWord := by
  intro v w h
  obtain ⟨hopcode, hrsvd⟩ := CommandWord.mk.inj h
  calc v = v.extractLsb' 8 24 ++ v.extractLsb' 0 8 := (BitVec.extractLsb'_append_extractLsb' (w := 24) (len := 8)).symm
    _ = w.extractLsb' 8 24 ++ w.extractLsb' 0 8 := by rw [hopcode, hrsvd]
    _ = w := BitVec.extractLsb'_append_extractLsb' (w := 24) (len := 8)

/-- Settles O1: the decoder's condition on the fields of a word says that they are those of the encoded command. -/
theorem decodeExact : Obligations.DecodeExact := by
  intro v i
  refine ⟨?_, congrArg CommandWord.rsvd (ofWord_encode i)⟩
  rw [decode_eq_ok, ← ofWord_encode, ofWord_injective.eq_iff]

end Sys2Proof
end

section
/-! Stores that the bus answers (spec/20_memory.md R64, R66), and ENCODE's success (spec/43_bitstream.md R214): its start
checks as one condition, and the container it leaves. -/

namespace Sys2Proof.Machine

/-! ## Stores that are answered -/

/-- A stage whose stores are all answered stores all of them and succeeds (R64). -/
theorem storeAll_ok {ws : List Host.Cell} {s : State} (ok : State → State)
    (h : ∀ c ∈ ws, s.par.busOK c.1 .write = true) :
    storeAll ws s ok = .ok (ok { s with mem := s.mem.writeAll ws }) := by
  have hbus : busErrors s.par .write (ws.map (·.1)) = [] := busErrors_nil (List.forall_mem_map.mpr h)
  simp only [storeAll, hbus]

/-- The bytes of a sequence stored at `a` are answered where the range they fill is. -/
theorem busOK_of_mem_cellsAt {p : Params} {k : AccessKind} {a : Nat} {vs : List Byte} (h : busRange p k a vs.length) :
    ∀ c ∈ cellsAt a vs, p.busOK c.1 k = true := by
  intro c hc
  obtain ⟨i, hi, rfl⟩ := mem_cellsAt.mp hc
  exact h (a + i) (Nat.le_add_right a i) (Nat.add_lt_add_left hi a)

/-! ## ENCODE -/

/-- ENCODE's prerequisites hold exactly where its mask is 0: a tree with codes that DECODE did not make (R214). -/
theorem encodeMask_eq_zero {f : Valid} :
    f.encodeMask = 0 ↔ f.treeV = true ∧ f.codeV = true ∧ f.treeDec = false := by
  unfold Valid.encodeMask
  cases f.treeV <;> cases f.codeV <;> cases f.treeDec <;> decide

/-- When the start checks of ENCODE pass (R214). -/
theorem encodeChecks_pass {s : State} :
    firstFailure (encodeChecks s) = none ↔
      (s.valid.treeV = true ∧ s.valid.codeV = true ∧ s.valid.treeDec = false) ∧
        s.snap.cntBase.toNat + s.snap.cntLen.toNat ≤ addressSpace ∧
        containerSize s.syms s.nodes ≤ s.snap.cntLen.toNat := by
  rw [firstFailure_eq_none, ← encodeMask_eq_zero]
  simp only [encodeChecks, badSequence, rangeCheck, List.mem_cons, List.not_mem_nil, or_false, forall_eq_or_imp,
    forall_eq, bne_eq_false_iff_eq, decide_eq_false_iff_not, Nat.not_lt]

/-- The bytes ENCODE stores are answered where the container's range is (R66, R106). -/
theorem busOK_of_mem_encodeWrites {s : State}
    (h : busRange s.par .write s.snap.cntBase.toNat (containerSize s.syms s.nodes)) :
    ∀ c ∈ encodeWrites s, s.par.busOK c.1 .write = true := by
  rw [← container_length s.cnt.treeW s.cnt.treeH s.cnt.symCount] at h
  exact busOK_of_mem_cellsAt h

/-- What ENCODE leaves at its success, with memory `m`: two size registers and the completion (R214). -/
theorem completeWith_encodeDone (s : State) (m : Memory) :
    completeWith 0 0 (encodeDone { startStage .enc s with mem := m }) = ({ s with
      mem := m
      cnt := { s.cnt with
        outLen := BitVec.ofNat 32 (containerSize s.syms s.nodes)
        payloadBits := BitVec.ofNat 32 (payload s.syms s.nodes).length } }.ended 4 0 0) := by
  rw [payload_length]
  rfl

/-- ENCODE where its checks pass and the bytes answer: it stores the container and completes (R214). -/
theorem exec_encode_ok {s : State} (habort : s.pendingAbort = false) (hpass : firstFailure (encodeChecks s) = none)
    (hbus : busRange s.par .write s.snap.cntBase.toNat (containerSize s.syms s.nodes)) :
    exec .encode s = .next (completeWith 0 0
      (encodeDone { startStage .enc s with mem := s.mem.writeAll (encodeWrites s) })) :=
  exec_single_ok (k := .enc) rfl habort hpass
    (storeAll_ok (s := startStage .enc s) encodeDone (busOK_of_mem_encodeWrites hbus))

/-- Settles O46: the container stands where it was stored, and its length bounds what the stores reach. -/
theorem encodeResult : Obligations.EncodeResult := by
  intro s habort hwf htree hcode hdec hrange hfits hbus
  have hpass : firstFailure (encodeChecks s) = none := encodeChecks_pass.mpr ⟨⟨htree, hcode, hdec⟩, hrange, hfits⟩
  refine ⟨s.mem.writeAll (encodeWrites s), (exec_encode_ok habort hpass hbus).trans
    (congrArg Host.Outcome.next (completeWith_encodeDone s _)), Memory.read_writeAll_cellsAt hwf _ _, fun a ha => ?_⟩
  rw [← container_length s.cnt.treeW s.cnt.treeH s.cnt.symCount] at ha
  exact Memory.read_writeAll_cellsAt_outside _ _ a ha

end Sys2Proof.Machine
end

section
/-! The start checks that read a query rectangle or an image, each list as one condition, and the success of SAT_BUILD,
REGION_AVG and REGION_HOMOG (spec/40_sat_region.md R130, R136, R140). -/

namespace Sys2Proof.Machine

/-! ## Start checks -/

/-- When the image checks pass: the image is not empty and fits the SAT store (spec/10_state.md R26). -/
theorem imageChecks_pass {p : Params} {o : Operands} :
    (∀ c ∈ imageChecks p o, c.1 = false) ↔
      o.imgW ≠ 0 ∧ o.imgH ≠ 0 ∧ o.imgW.toNat * o.imgH.toNat ≤ p.maxPixels := by
  simp only [imageChecks, badConfig, List.mem_cons, List.not_mem_nil, or_false, forall_eq_or_imp, forall_eq,
    beq_eq_false_iff_ne, decide_eq_false_iff_not, Nat.not_lt]

/-- When the image's range check passes: it stays in the address space (spec/20_memory.md R65, R73). -/
theorem imageRange_pass {o : Operands} :
    (imageRange o).1 = false ↔ o.pixBase.toNat + 3 * (o.imgW.toNat * o.imgH.toNat) ≤ addressSpace := by
  simp only [imageRange, rangeCheck, decide_eq_false_iff_not, Nat.not_lt]

/-- When the start checks of SAT_BUILD pass (R130). -/
theorem satChecks_pass {s : State} :
    firstFailure (satStage.checks s) = none ↔
      (s.snap.imgW ≠ 0 ∧ s.snap.imgH ≠ 0 ∧ s.snap.imgW.toNat * s.snap.imgH.toNat ≤ s.par.maxPixels) ∧
        s.snap.pixBase.toNat + 3 * (s.snap.imgW.toNat * s.snap.imgH.toNat) ≤ addressSpace := by
  rw [firstFailure_eq_none, ← imageChecks_pass, ← imageRange_pass]
  simp only [satStage, List.forall_mem_append, List.forall_mem_singleton]

/-- When the start checks of REGION_AVG pass: there is a table and the query rectangle lies inside it (R136). -/
theorem regionAvgChecks_pass {s : State} :
    firstFailure (regionAvgChecks s) = none ↔
      s.valid.satV = true ∧ inside s.cnt.satW.toNat s.cnt.satH.toNat (queryRect s.snap) := by
  rw [firstFailure_eq_none]
  simp only [regionAvgChecks, badSequence, badQuery, inside, queryRect, List.mem_cons, List.not_mem_nil, or_false,
    forall_eq_or_imp, forall_eq, Bool.not_eq_false', decide_eq_false_iff_not, Nat.not_lt]

/-- When the start checks of REGION_HOMOG pass (R140). -/
theorem regionHomogChecks_pass {s : State} :
    firstFailure (regionHomogChecks s) = none ↔
      (s.snap.imgW ≠ 0 ∧ s.snap.imgH ≠ 0 ∧ s.snap.imgW.toNat * s.snap.imgH.toNat ≤ s.par.maxPixels) ∧
        s.snap.lossPercent.toNat ≤ 100 ∧ inside s.snap.imgW.toNat s.snap.imgH.toNat (queryRect s.snap) ∧
        s.snap.pixBase.toNat + 3 * (s.snap.imgW.toNat * s.snap.imgH.toNat) ≤ addressSpace := by
  rw [firstFailure_eq_none, ← imageChecks_pass, ← imageRange_pass]
  simp only [regionHomogChecks, badConfig, badQuery, inside, queryRect, List.forall_mem_append, List.mem_cons,
    List.not_mem_nil, or_false, forall_eq_or_imp, forall_eq, decide_eq_false_iff_not, Nat.not_lt, and_assoc]

/-! ## The bytes a scan reads -/

/-- A scan of a rectangle reads the three bytes of each of its pixels, and no other (spec/20_memory.md R61, R73). -/
theorem mem_pixelAddrs_iff {B W : Nat} {r : Rect} {a : Nat} :
    a ∈ pixelAddrs B W r ↔
      ∃ px py, inRect r px py = true ∧ pixAddr B W px py ≤ a ∧ a < pixAddr B W px py + 3 := by
  simp only [pixelAddrs, List.mem_flatMap, mem_pixels, Prod.exists, List.mem_cons, List.not_mem_nil, or_false]
  refine exists_congr fun px => exists_congr fun py => and_congr_right fun _ => ?_
  omega

/-- Where the pixels of a rectangle answer, its scan meets no bus error (R66). -/
theorem scanErrors_nil {p : Params} {B W : Nat} {r : Rect}
    (h : ∀ px py, inRect r px py = true → busRange p .read (pixAddr B W px py) 3) :
    busErrors p .read (pixelAddrs B W r) = [] := by
  refine busErrors_nil fun a ha => ?_
  obtain ⟨px, py, hin, hlo, hhi⟩ := mem_pixelAddrs_iff.mp ha
  exact h px py hin a hlo hhi

/-- Where the whole image answers, its scan meets no bus error (R66). -/
theorem imageErrors_nil {p : Params} {o : Operands}
    (h : busRange p .read o.pixBase.toNat (3 * (o.imgW.toNat * o.imgH.toNat))) :
    busErrors p .read (imageAddrs o) = [] := by
  refine busErrors_nil fun a ha => ?_
  have hin : inside o.imgW.toNat o.imgH.toNat ⟨0, 0, o.imgW.toNat, o.imgH.toNat⟩ :=
    ⟨(Nat.zero_add _).le, (Nat.zero_add _).le⟩
  obtain ⟨hlo, hhi⟩ := mem_pixelAddrs hin ha
  exact h a hlo hhi

/-! ## SAT_BUILD -/

/-- Where the image answers, the body of SAT_BUILD makes its success writes (R130). -/
theorem satBody_ok {s : State}
    (h : busRange s.par .read s.snap.pixBase.toNat (3 * (s.snap.imgW.toNat * s.snap.imgH.toNat))) :
    satBody s = .ok (satDone s) := by
  simp only [satBody, imageErrors_nil h]

/-- What SAT_BUILD leaves at its success: the table, its size, SAT_V and the completion (R130). -/
theorem completeWith_satDone (s : State) :
    completeWith 0 0 (satDone (startStage .sat s)) = ({ s with
      sat := satTable s.mem s.snap.pixBase.toNat s.snap.imgW.toNat s.snap.imgH.toNat
      cnt := { s.cnt with satW := s.snap.imgW, satH := s.snap.imgH }
      valid := { s.valid with satV := true } }.ended 1 0 0) := rfl

/-- SAT_BUILD where its checks pass and the image answers (R130). -/
theorem exec_satBuild_ok {s : State} (habort : s.pendingAbort = false)
    (hpass : firstFailure (satStage.checks s) = none)
    (hbus : busRange s.par .read s.snap.pixBase.toNat (3 * (s.snap.imgW.toNat * s.snap.imgH.toNat))) :
    exec .satBuild s = .next (completeWith 0 0 (satDone (startStage .sat s))) :=
  exec_single_ok (k := .sat) rfl habort hpass (satBody_ok (s := startStage .sat s) hbus)

/-- Settles O33: the table built is that of the image, and legal parameters keep its sums exact (R132). -/
theorem satBuildResult : Obligations.SatBuildResult := by
  intro s habort hwf hw hh hpix hrange hbus
  have hpass : firstFailure (satStage.checks s) = none := satChecks_pass.mpr ⟨⟨hw, hh, hpix⟩, hrange⟩
  exact ⟨_, (exec_satBuild_ok habort hpass hbus).trans (congrArg Host.Outcome.next (completeWith_satDone s)),
    satTable_length _ _ _ _, satHolds_satTable _ _ _ _ (hpix.trans (Params.bounds hwf).1)⟩

/-! ## REGION_AVG -/

/-- A packed colour as a result word is the 24-bit number zero-extended (R10, R136). -/
theorem packWord_eq_setWidth (c : Color) : packWord c = c.pack.setWidth 32 := by
  rw [packWord, BitVec.setWidth_eq_append (by decide)]
  rfl

/-- REGION_AVG where its checks pass: it reads the table and writes the results alone (R136). -/
theorem exec_regionAvg_ok {s : State} (habort : s.pendingAbort = false)
    (hpass : firstFailure (regionAvgChecks s) = none) :
    exec .regionAvg s = .next ({ s with res := regionAvgResults s }.ended 7 0 0) :=
  exec_single_ok (k := .regionAvg) rfl habort hpass rfl

/-- Over a SAT of the image `f`, the results are those of the mean colour of `f` (R134). -/
theorem regionAvgResults_of_satHolds {s : State} {f : Nat → Nat → Color}
    (hsat : SatHolds s.sat s.cnt.satW.toNat s.cnt.satH.toNat f)
    (hin : inside s.cnt.satW.toNat s.cnt.satH.toNat (queryRect s.snap)) :
    regionAvgResults s =
      { res0 := (meanColor f (queryRect s.snap)).r.setWidth 32
        res1 := (meanColor f (queryRect s.snap)).g.setWidth 32
        res2 := (meanColor f (queryRect s.snap)).b.setWidth 32
        res3 := (meanColor f (queryRect s.snap)).pack.setWidth 32
        res4 := BitVec.ofNat 32 (queryRect s.snap).area
        res5 := 0 } := by
  obtain ⟨hx, hy⟩ := hin
  simp only [regionAvgResults, hsat.averageColor (queryRect s.snap) hx hy, packWord_eq_setWidth]

/-- Settles O35: four corner lookups give the rectangle's sums, so the mean is the image's. -/
theorem regionAvgResult : Obligations.RegionAvgResult := by
  intro s f habort hvalid hsat hx hy
  have hin : inside s.cnt.satW.toNat s.cnt.satH.toNat (queryRect s.snap) := ⟨hx, hy⟩
  rw [exec_regionAvg_ok habort (regionAvgChecks_pass.mpr ⟨hvalid, hin⟩), regionAvgResults_of_satHolds hsat hin]
  rfl

/-! ## REGION_HOMOG -/

/-- REGION_HOMOG where its checks pass and the pixels of the rectangle answer: it writes the results alone (R140). -/
theorem exec_regionHomog_ok {s : State} (habort : s.pendingAbort = false)
    (hpass : firstFailure (regionHomogChecks s) = none)
    (hbus : ∀ px py, inRect (queryRect s.snap) px py = true →
      busRange s.par .read (pixAddr s.snap.pixBase.toNat s.snap.imgW.toNat px py) 3) :
    exec .regionHomog s = .next ({ s with res := regionHomogResults s }.ended 7 0 0) := by
  have hbody : regionHomogBody (startStage .regionHomog s) =
      .ok (writeResults (regionHomogResults s) (startStage .regionHomog s)) := by
    simp only [regionHomogBody, startStage_par, startStage_snap, scanErrors_nil hbus]
    rfl
  exact exec_single_ok (k := .regionHomog) rfl habort hpass hbody

/-- The results in the words of the image: how many pixels are near, of how many, and the 90% verdict (R135). -/
theorem regionHomogResults_eq (s : State) {count n : Nat}
    (hcount : count = nearCount (imageAt s.mem s.snap.pixBase.toNat s.snap.imgW.toNat) (queryRect s.snap)
      (.unpack s.snap.qColor) s.snap.lossPercent.toNat)
    (hn : n = (queryRect s.snap).area) :
    regionHomogResults s =
      ⟨BitVec.ofNat 32 count, BitVec.ofNat 32 n, if 9 * n ≤ 10 * count then 1 else 0, 0, 0, 0⟩ := by
  simp only [regionHomogResults, homogVerdict, homogCount_eq, ← hcount, ← hn, decide_eq_true_eq]

/-- Settles O36: the scan's count is the number of near pixels, whatever its order. -/
theorem regionHomogResult : Obligations.RegionHomogResult := by
  intro s habort hw hh hpix hloss hx hy hrange hbus count n hcount hn
  have hpass : firstFailure (regionHomogChecks s) = none :=
    regionHomogChecks_pass.mpr ⟨⟨hw, hh, hpix⟩, hloss, ⟨hx, hy⟩, hrange⟩
  rw [exec_regionHomog_ok habort hpass hbus, regionHomogResults_eq s hcount hn]

end Sys2Proof.Machine
end

section
/-! QT_BUILD's success (spec/41_quadtree.md R161, R162, R166): its start checks as one condition, the sequential build as
the policy's tree in the words of the images, and the state a schedule that fits must leave. -/

namespace Sys2Proof.Machine

/-- When the start checks of QT_BUILD pass (R161). -/
theorem qtChecks_pass {s : State} :
    firstFailure (qtChecks s) = none ↔
      s.snap.minDepth.toNat ≤ s.snap.maxDepth.toNat ∧ s.snap.maxDepth.toNat ≤ s.par.maxTreeDepth ∧
        s.snap.lossPercent.toNat ≤ 100 ∧ s.valid.satV = true ∧
        s.snap.pixBase.toNat + 3 * (s.cnt.satW.toNat * s.cnt.satH.toNat) ≤ addressSpace := by
  rw [firstFailure_eq_none]
  simp only [qtChecks, badConfig, badSequence, rangeCheck, List.mem_cons, List.not_mem_nil, or_false, forall_eq_or_imp,
    forall_eq, Bool.not_eq_false', decide_eq_false_iff_not, Nat.not_lt]

/-- The root rectangle is the whole image, so it lies in it (R160). -/
theorem inside_rootRect (w h : Word) : inside w.toNat h.toNat (rootRect w h) := ⟨(Nat.zero_add _).le, (Nat.zero_add _).le⟩

/-- Where the image answers, the sequential build of QT_BUILD meets no bus error (R172). -/
theorem qtBuild_bad_nil {s : State}
    (hbus : busRange s.par .read s.snap.pixBase.toNat (3 * (s.cnt.satW.toNat * s.cnt.satH.toNat))) :
    (qtBuild s).bad = [] :=
  (qtEnv s).build_bad_nil (H := s.cnt.satH.toNat) hbus (inside_rootRect _ _)

/-- Over a SAT of the image `g`, the sequential build makes the one tree of the stopping policy (R162). -/
theorem qtBuild_nodes_of_built {s : State} {g : Nat → Nat → Color} {ns : List NodeRec}
    (hdepth : s.snap.minDepth.toNat ≤ s.snap.maxDepth.toNat)
    (hsat : SatHolds s.sat s.cnt.satW.toNat s.cnt.satH.toNat g) (hbad : (qtBuild s).bad = [])
    (hbuilt : Built s.snap.minDepth.toNat s.snap.maxDepth.toNat
      (fun r => 9 * r.area ≤ 10 * nearCount (imageAt s.mem s.snap.pixBase.toNat s.cnt.satW.toNat) r (meanColor g r)
        s.snap.lossPercent.toNat)
      (meanColor g) 0 (rootRect s.cnt.satW s.cnt.satH) ns) :
    (qtBuild s).nodes = ns :=
  ((qtEnv s).build_of_satHolds hsat hdepth (Nat.add_zero _) (inside_rootRect _ _) hbad).unique hbuilt

/-- A build without a bus error and within both limits justifies no error (R167, R172). -/
theorem not_justified_of_fits {p : Params} {o : BuildOut} (hbad : o.bad = []) (hnodes : o.nodes.length ≤ p.maxNodes)
    (hsyms : (symbolTable (leafColors o.nodes)).length ≤ p.maxSymbols) (e : Err) : ¬Justified p o e := by
  rintro (⟨_, hlt⟩ | ⟨_, hlt⟩ | ⟨a, ha, _⟩)
  · exact absurd hlt hnodes.not_gt
  · exact absurd hlt hsyms.not_gt
  · rw [hbad] at ha
    exact List.not_mem_nil ha

/-- Where the sequential build fits and meets no bus error, QT_BUILD's body makes the success writes of a pool that has
come to it, whatever the schedule (R161, R170). -/
theorem qtBody_ok {s : State} (hbad : (qtBuild s).bad = []) (hnodes : (qtBuild s).nodes.length ≤ s.par.maxNodes)
    (hsyms : (symbolTable (leafColors (qtBuild s).nodes)).length ≤ s.par.maxSymbols) :
    ∃ b n, qtBody s = .ok (qtDone b { s with freeIx := n }) ∧ b.task.records = (qtBuild s).nodes ∧
      b.freq = symbolTable (leafColors (qtBuild s).nodes) ∧ b.count = (qtBuild s).nodes.length := by
  obtain ⟨b, n, hbody, hrecords, _, hfreq, hcount, _, _⟩ | ⟨e, _, _, _, hjust⟩ := qtBody_spec s
  · exact ⟨b, n, hbody, hrecords, hfreq, hcount⟩
  · exact absurd hjust (not_justified_of_fits hbad hnodes hsyms e)

/-- What QT_BUILD leaves at its success: the node table, the symbol table, the counts, the dimensions, TREE_V and FREQ_V,
and the completion (R161). -/
theorem completeWith_qtDone (s : State) (b : BuildRun) (n : Nat) :
    completeWith 0 0 (qtDone b { startStage .qt s with freeIx := n }) = ({ s with
      nodes := b.task.records
      syms := b.freq
      cnt := { s.cnt with
        nodeCount := BitVec.ofNat 32 b.count
        leafCount := BitVec.ofNat 32 (leafColors b.task.records).length
        symCount := BitVec.ofNat 32 b.freq.length
        treeW := s.cnt.satW
        treeH := s.cnt.satH }
      valid := ⟨s.valid.satV, true, true, false, false⟩
      freeIx := n }.ended 2 0 0) := rfl

/-- Settles O39: every schedule comes to the sequential build, which is the policy's tree with its symbol table. -/
theorem qtBuildResult : Obligations.QtBuildResult := by
  intro s g ns es habort hdepth hmax hloss hvalid hsat hrange hbus hbuilt hsymbols hnodes hsyms
  have hpass : firstFailure (qtChecks s) = none := qtChecks_pass.mpr ⟨hdepth, hmax, hloss, hvalid, hrange⟩
  have hbad : (qtBuild s).bad = [] := qtBuild_bad_nil hbus
  have htree : (qtBuild s).nodes = ns := qtBuild_nodes_of_built hdepth hsat hbad hbuilt
  have htable : symbolTable (leafColors ns) = es := (symbolTable_spec _).unique hsymbols (List.Perm.refl _)
  obtain ⟨b, n, hbody, hrecords, hfreq, hcount⟩ :=
    qtBody_ok (s := startStage .qt s) hbad (htree ▸ hnodes) (htree ▸ htable ▸ hsyms)
  have hstart : qtBuild (startStage .qt s) = qtBuild s := rfl
  rw [hstart, htree] at hrecords hfreq hcount
  refine ⟨n, (exec_single_ok (k := .qt) rfl habort hpass hbody).trans (congrArg Host.Outcome.next ?_)⟩
  rw [completeWith_qtDone, hvalid, hrecords, hfreq, hcount, htable]

end Sys2Proof.Machine
end

section
/-! RECONSTRUCT's success (spec/44_reconstruct_control.md R250 to R252): its start checks as one condition, and the image
it leaves; and NOP (R264), the command without a stage. -/

namespace Sys2Proof.Machine

/-! ## RECONSTRUCT -/

/-- When the start checks of RECONSTRUCT pass: there is a tree, and the buffer holds its image inside the address space
(R250). -/
theorem reconChecks_pass {s : State} :
    firstFailure (reconChecks s) = none ↔
      s.valid.treeV = true ∧ reconNeed s ≤ s.snap.outCap.toNat ∧
        s.snap.outBase.toNat + reconNeed s ≤ addressSpace := by
  rw [firstFailure_eq_none]
  simp only [reconChecks, badSequence, rangeCheck, List.mem_cons, List.not_mem_nil, or_false, forall_eq_or_imp,
    forall_eq, Bool.not_eq_false', decide_eq_false_iff_not, Nat.not_lt]

/-- The bytes RECONSTRUCT stores are answered where the image's range is (R252, spec/20_memory.md R66). -/
theorem busOK_of_mem_reconWrites {s : State} (h : busRange s.par .write s.snap.outBase.toNat (reconNeed s)) :
    ∀ c ∈ reconWrites s, s.par.busOK c.1 .write = true := by
  intro c hc
  obtain ⟨hlo, hhi⟩ := paintWrites_range hc
  exact h c.1 hlo hhi

/-- Painting leaves every byte outside the output buffer as it was (R252). -/
theorem read_reconWrites_outside {s : State} {a : Nat}
    (ha : a < s.snap.outBase.toNat ∨ s.snap.outBase.toNat + reconNeed s ≤ a) :
    (s.mem.writeAll (reconWrites s)).read a = s.mem.read a := by
  refine Memory.read_writeAll_ne fun c hc heq => ?_
  obtain ⟨hlo, hhi⟩ := paintWrites_range hc
  rw [heq] at hlo hhi
  exact ha.elim hlo.not_gt hhi.not_ge

/-- What RECONSTRUCT leaves at its success, with memory `m`: the completion alone (R250). -/
theorem completeWith_recon (s : State) (m : Memory) :
    completeWith 0 0 { startStage .recon s with mem := m } = ({ s with mem := m }.ended 6 0 0) := rfl

/-- RECONSTRUCT where its checks pass and the image's range answers: it paints and completes (R250). -/
theorem exec_reconstruct_ok {s : State} (habort : s.pendingAbort = false)
    (hpass : firstFailure (reconChecks s) = none)
    (hbus : busRange s.par .write s.snap.outBase.toNat (reconNeed s)) :
    exec .reconstruct s = .next (completeWith 0 0
      { startStage .recon s with mem := s.mem.writeAll (reconWrites s) }) :=
  exec_single_ok (k := .recon) rfl habort hpass
    (storeAll_ok (s := startStage .recon s) id (busOK_of_mem_reconWrites hbus))

/-- Settles O50: the leaves of the tree do not overlap, so what painting stores at a pixel is its leaf's colour. -/
theorem reconstructResult : Obligations.ReconstructResult := by
  intro s habort hwf htree hpre hfits hrange hbus
  have hpass : firstFailure (reconChecks s) = none := reconChecks_pass.mpr ⟨htree, hfits, hrange⟩
  refine ⟨s.mem.writeAll (reconWrites s), (exec_reconstruct_ok habort hpass hbus).trans
    (congrArg Host.Outcome.next (completeWith_recon s _)), ?_, fun a ha => read_reconWrites_outside ha⟩
  intro n hn col hk px py hp
  exact read_paint hwf hpre hn hk hp

/-! ## NOP -/

/-- NOP has no stage: without a pending abort it is a completion with success (R264, spec/60_exceptions.md R287). -/
theorem exec_nop_ok {s : State} (habort : s.pendingAbort = false) :
    exec .nop s = .next (s.ended s.status.stage 0 0) :=
  congrArg Host.Outcome.next (runCommand_ok (ks := plan .nop) habort rfl)

/-- From the acceptance of NOP, STAGE is 0 (spec/10_state.md R24). -/
theorem stage_accept_nop (s : State) : (accept (encode .nop) s).status.stage = 0 := rfl

/-- Settles O32: the accepted NOP is an instance, since acceptance clears the pending abort and sets STAGE. -/
theorem nopCompletes : Obligations.NopCompletes := by
  intro s
  refine ⟨exec_nop_ok, ?_⟩
  rw [exec_nop_ok (accept_pendingAbort _ s), stage_accept_nop]

end Sys2Proof.Machine
end

section
/-! Acceptance of a command (spec/60_exceptions.md R282, R283), and the engine's turn on a word that is no command
(spec/30_encoding.md R93). -/

namespace Sys2Proof.Machine

/-- The plan of a word starts with its first stage (spec/10_state.md R24, spec/30_encoding.md R92). -/
theorem firstCode_wordPlan (v : Word) : firstCode (wordPlan v) = firstStage v := by
  unfold wordPlan firstStage
  cases decode v with
  | ok i => cases i <;> rfl
  | error d => rfl

/-- A word that is no command has no first stage. -/
theorem firstStage_of_illegal {v : Word} {d : DecodeError} (h : decode v = .error d) : firstStage v = 0 := by
  simp only [firstStage, h]

/-- A CMD write while idle, of any word but SOFT_RESET's and ABORT's, is accepted, command or not (spec/10_state.md
R25). -/
theorem commandWrite_of_idle {v : Word} {s : State} (hidle : s.status.busy = false)
    (hreset : decode v ≠ .ok .softReset) (habort : decode v ≠ .ok .abort) : commandWrite v s = .next (accept v s) := by
  unfold commandWrite
  split
  · exact absurd ‹_› hreset
  · exact absurd ‹_› habort
  · rw [if_neg (Bool.eq_false_iff.mp hidle)]

/-- The engine's turn on a word that is no command: without a pending abort it completes with ILLEGAL_COMMAND, and STAGE
stays (spec/30_encoding.md R93, spec/60_exceptions.md R284). -/
theorem engineTurn_of_illegal {s : State} {d : DecodeError} (hbusy : s.status.busy = true)
    (hpending : s.pendingAbort = false) (hd : decode s.cmd = .error d) :
    engineTurn s = .next (s.ended s.status.stage 7 s.cmd) := by
  have hcomplete : illegalCommand s = s.ended s.status.stage 7 s.cmd := if_neg (Bool.eq_false_iff.mp hpending)
  rw [engineTurn, if_pos hbusy, hd, ← hcomplete]

/-- Settles O5: the step is acceptance, whose STAGE is the first stage's code; a word that is no command has STAGE 0, and
the engine's turn completes it, since acceptance cleared the pending abort. -/
theorem acceptCommand : Obligations.AcceptCommand := by
  intro s v rest hagenda hidle hreset habort
  have hstep : step s = .next (accept v (s.withRest rest)) :=
    (step_write_cmd hagenda).trans (commandWrite_of_idle hidle
      (fun h => hreset ((decodeExact v .softReset).1.mp h)) (fun h => habort ((decodeExact v .abort).1.mp h)))
  rw [accept, firstCode_wordPlan] at hstep
  refine ⟨_, hstep, rfl, fun d hd => ?_⟩
  have hstage := firstStage_of_illegal hd
  rw [hstage]
  exact ⟨rfl, engineTurn_of_illegal rfl rfl hd⟩

end Sys2Proof.Machine
end

section
/-! How a command ends, once: the three ways a command of stages completes, and what its one stage leaves of the registers
in each (spec/60_exceptions.md R285 to R289, spec/44_reconstruct_control.md R262). -/

namespace Sys2Proof.Machine

/-! ## The three completions -/

/-- A command of stages is aborted in a stage that has started, or its stages succeed, or the first that fails names the
error (R286 to R288). -/
theorem runCommand_cases (ks : List StageId) (s : State) :
    (s.pendingAbort = true ∧ ∃ t, runCommand (ks.map StageId.stage) s = completeWith ErrCode.aborted.code 0 t ∧
        Kept s t ∧ (ks = [] ∧ t = s ∨ ∃ q ∈ stopPoints (ks.map StageId.stage) (draw s).2, ∃ p n,
          t = scramble (pendingWrites q) { q.2 with pool := p, freeIx := n })) ∨
      (s.pendingAbort = false ∧ ∃ t, runCommand (ks.map StageId.stage) s = completeWith 0 0 t ∧
        runStages (ks.map StageId.stage) s = .ok t) ∨
      (s.pendingAbort = false ∧ ∃ e t, runCommand (ks.map StageId.stage) s = completeWith e.code.code e.info t ∧
        runStages (ks.map StageId.stage) s = .err e t) := by
  cases habort : s.pendingAbort with
  | true =>
    obtain ⟨t, ht⟩ := abortRun_spec ks habort
    exact .inl ⟨rfl, t, by rwa [runCommand, if_pos habort]⟩
  | false =>
    cases hrun : runStages (ks.map StageId.stage) s with
    | ok t => exact .inr (.inl ⟨rfl, t, runCommand_ok habort hrun, rfl⟩)
    | err e t => exact .inr (.inr ⟨rfl, e, t, runCommand_err habort hrun, rfl⟩)

/-- A command completes with a defined error code, and with ERR_INFO 0 after success (R281, R287). -/
theorem runCommand_completes (ks : List StageId) (s : State) :
    ∃ c i t, runCommand (ks.map StageId.stage) s = completeWith c i t ∧ Kept s t ∧ c.toNat ≤ 8 ∧ (c = 0 → i = 0) := by
  have hkept := kept_runStages ks s
  rcases runCommand_cases ks s with ⟨_, t, hrun, hk, _⟩ | ⟨_, t, hrun, hstages⟩ | ⟨_, e, t, hrun, hstages⟩
  · exact ⟨_, _, t, hrun, hk, ErrCode.aborted.code_bounds.2, fun _ => rfl⟩
  · exact ⟨0, 0, t, hrun, by rwa [hstages] at hkept, by decide, fun _ => rfl⟩
  · obtain ⟨hne, hle⟩ := e.code.code_bounds
    exact ⟨_, _, t, hrun, by rwa [hstages] at hkept, hle, fun h => absurd h hne⟩

/-- A command that completes without an error was not aborted, and its stages succeeded. -/
theorem runStages_ok_of_success {ks : List StageId} {s : State}
    (hok : (runCommand (ks.map StageId.stage) s).status.errCode = 0) :
    ∃ t, runCommand (ks.map StageId.stage) s = completeWith 0 0 t ∧ runStages (ks.map StageId.stage) s = .ok t := by
  rcases runCommand_cases ks s with ⟨_, t, hrun, _⟩ | ⟨_, h⟩ | ⟨_, e, t, hrun, _⟩
  · rw [hrun] at hok
    exact absurd hok ErrCode.aborted.code_bounds.1
  · exact h
  · rw [hrun] at hok
    exact absurd hok e.code.code_bounds.1

/-- A command that completes with an error and was not aborted had a stage that failed. -/
theorem runStages_err_of_failure {ks : List StageId} {s : State} (habort : s.pendingAbort = false)
    (herr : (runCommand (ks.map StageId.stage) s).status.errCode ≠ 0) :
    ∃ e t, runCommand (ks.map StageId.stage) s = completeWith e.code.code e.info t ∧
      runStages (ks.map StageId.stage) s = .err e t := by
  rcases runCommand_cases ks s with ⟨h, _⟩ | ⟨_, t, hrun, _⟩ | ⟨_, h⟩
  · exact absurd (habort.symm.trans h) Bool.false_ne_true
  · rw [hrun] at herr
    exact absurd rfl herr
  · exact h

/-! ## One stage -/

/-- A bus error in a stage that stores nothing draws one free value at most. -/
theorem failBus_state {a : Nat} {as : List Nat} {s u : State} {e : Err} (h : failBus a as s = .err e u) :
    ∃ n, u = { s with freeIx := n } := by
  obtain ⟨n, hn⟩ := choose_state a as s
  cases h
  exact ⟨n, hn⟩

/-- A bus error among stores leaves some of the bytes stored. -/
theorem storeAll_err_state {ws : List Host.Cell} {s u : State} {ok : State → State} {e : Err}
    (h : storeAll ws s ok = .err e u) : ∃ n, u = scramble ws { s with freeIx := n } := by
  unfold storeAll at h
  split at h
  · cases h
  · rename_i a as _
    obtain ⟨n, hn⟩ := choose_state a as s
    cases h
    exact ⟨n, by rw [hn]⟩

/-- A body that fails has changed the pool, the counter of the free values and some of its destination bytes alone (R289,
spec/20_memory.md R67). -/
theorem body_err_state {k : StageId} {s u : State} {e : Err} (h : k.stage.body s = .err e u) :
    ∃ p n, u = scramble (k.stage.writes s) { s with pool := p, freeIx := n } := by
  cases k
  case sat =>
    simp only [StageId.stage, satStage, satBody] at h
    split at h
    · cases h
    · obtain ⟨n, hn⟩ := failBus_state h
      exact ⟨s.pool, n, hn⟩
  case qt =>
    rcases qtBody_state s with ⟨b, n, hb⟩ | ⟨e', p, n, hb⟩
    · cases hb.symm.trans h
    · cases hb.symm.trans h
      exact ⟨p, n, rfl⟩
  case huf =>
    simp only [StageId.stage, hufStage, hufBody] at h
    split at h
    · cases h
      exact ⟨s.pool, s.freeIx, rfl⟩
    · cases h
  case dec =>
    simp only [StageId.stage, decStage, decodeBody] at h
    split at h
    · cases h
    · cases h
      exact ⟨s.pool, s.freeIx, rfl⟩
    · obtain ⟨n, hn⟩ := failBus_state h
      exact ⟨s.pool, n, hn⟩
  case regionHomog =>
    simp only [StageId.stage, regionHomogStage, regionHomogBody] at h
    split at h
    · cases h
    · obtain ⟨n, hn⟩ := failBus_state h
      exact ⟨s.pool, n, hn⟩
  case enc | recon =>
    obtain ⟨n, hn⟩ := storeAll_err_state h
    exact ⟨s.pool, n, hn⟩
  case regionAvg | inspectSat | inspectNode | inspectSym => cases h

/-- A body that succeeds sets its VALID bits (R285). -/
theorem body_ok_valid {k : StageId} {s u : State} (h : k.stage.body s = .ok u) : u.valid = k.setValid s.valid := by
  have hstore : ∀ {ws : List Host.Cell} {ok : State → State}, (∀ t, (ok t).valid = t.valid) →
      storeAll ws s ok = .ok u → u.valid = s.valid := by
    intro ws ok hok h
    unfold storeAll at h
    split at h
    · cases h
      exact hok _
    · cases h
  cases k
  case sat =>
    simp only [StageId.stage, satStage, satBody] at h
    split at h
    · cases h; rfl
    · cases h
  case qt =>
    rcases qtBody_state s with ⟨b, n, hb⟩ | ⟨e', p, n, hb⟩
    · cases hb.symm.trans h; rfl
    · cases hb.symm.trans h
  case huf =>
    simp only [StageId.stage, hufStage, hufBody] at h
    split at h
    · cases h
    · cases h; rfl
  case dec =>
    simp only [StageId.stage, decStage, decodeBody] at h
    split at h
    · cases h; rfl
    · cases h
    · cases h
  case regionHomog =>
    simp only [StageId.stage, regionHomogStage, regionHomogBody] at h
    split at h
    · cases h; rfl
    · cases h
  case enc => exact hstore (ok := encodeDone) (fun _ => rfl) h
  case recon => exact hstore (ok := id) (fun _ => rfl) h
  case regionAvg | inspectSat | inspectNode | inspectSym => cases h; rfl

/-- The registers a stage's start leaves: results and counters as before, its VALID bits cleared, STAGE its code. -/
structure StageRegisters (k : StageId) (s t : State) : Prop where
  res : t.res = s.res
  cnt : t.cnt = s.cnt
  valid : t.valid = k.clearValid s.valid
  stage : t.status.stage = k.code

theorem stageRegisters_startStage (k : StageId) (s : State) : StageRegisters k s (startStage k s) :=
  ⟨startStage_res k s, startStage_cnt k s, startStage_valid k s, congrArg Status.stage (startStage_status k s)⟩

/-- A started stage that only stores, draws and works in its pool keeps the registers its start left. -/
theorem stageRegisters_scramble (k : StageId) (s : State) (ws : List Host.Cell) (p : Option BuildRun) (n : Nat) :
    StageRegisters k s (scramble ws { startStage k s with pool := p, freeIx := n }) := by
  obtain ⟨m, j, he, _⟩ := scramble_spec ws { startStage k s with pool := p, freeIx := n }
  obtain ⟨hres, hcnt, hvalid, hstage⟩ := stageRegisters_startStage k s
  rw [he]
  exact ⟨hres, hcnt, hvalid, hstage⟩

/-- A stage that fails leaves the registers as its start left them (R286, R289). -/
theorem runStage_err_registers {k : StageId} {s u : State} {e : Err} (h : runStage k.stage s = .err e u) :
    StageRegisters k s u := by
  rcases runStage_cases k s with ⟨_, _, hr⟩ | ⟨_, hr⟩
  · cases hr.symm.trans h
    exact stageRegisters_startStage k s
  · obtain ⟨p, n, rfl⟩ := body_err_state (hr.symm.trans h)
    exact stageRegisters_scramble k s _ p n

/-- A stage that succeeds has cleared its VALID bits at its start and sets those of its result (R285). -/
theorem runStage_ok_valid {k : StageId} {s u : State} (h : runStage k.stage s = .ok u) :
    u.valid = k.setValid (k.clearValid s.valid) := by
  rcases runStage_cases k s with ⟨_, _, hr⟩ | ⟨_, hr⟩
  · cases hr.symm.trans h
  · rw [body_ok_valid (hr.symm.trans h), startStage_valid]

/-- A stop point of a command of one stage is the stage's start. -/
theorem stopPoints_singleton {k : StageId} {s : State} {q : Stage × State}
    (h : q ∈ stopPoints ([k].map StageId.stage) s) : q = (k.stage, startStage k s) := by
  simp only [List.map_cons, List.map_nil, stopPoints, stage_id, List.mem_cons] at h
  rcases h with h | h
  · exact h
  · split at h <;> exact absurd h List.not_mem_nil

/-! ## The statements -/

/-- Settles O8: a completion writes STATUS, ERR_INFO and the in-flight state, and the stages keep the rest. -/
theorem everyCommandCompletes : Obligations.EveryCommandCompletes := by
  intro i s hi hr
  obtain ⟨c, w, t, hrun, hk, hc, hw⟩ := runCommand_completes (plan i) s
  exact ⟨_, (exec_eq_runCommand hi hr s).trans (congrArg Host.Outcome.next hrun), rfl, rfl, hc, hw, rfl, rfl, rfl, rfl,
    hk.ovr, hk.irqEn, hk.cmd, hk.cfg, hk.snap, hk.par, hk.agenda, hk.reads⟩

/-- Settles O9: an aborted command of one stage was stopped in the state its start left, with some bytes stored. -/
theorem abortedReportsAborted : Obligations.AbortedReportsAborted := by
  intro i s hi hr habort
  rcases runCommand_cases (plan i) s with ⟨_, t, hrun, _, hstop⟩ | ⟨h, _⟩ | ⟨h, _⟩
  · refine ⟨_, (exec_eq_runCommand hi hr s).trans (congrArg Host.Outcome.next hrun), rfl, rfl, rfl, rfl, rfl, ?_⟩
    intro k hplan
    rw [hplan] at hstop
    rcases hstop with ⟨hnil, _⟩ | ⟨q, hq, p, n, rfl⟩
    · exact absurd hnil (List.cons_ne_nil k [])
    · obtain rfl := stopPoints_singleton hq
      obtain ⟨hres, hcnt, hvalid, hstage⟩ := stageRegisters_scramble k (draw s).2
        (pendingWrites (k.stage, startStage k (draw s).2)) p n
      exact ⟨hres, hcnt, hvalid, hstage⟩
  all_goals exact absurd (h.symm.trans habort) Bool.false_ne_true

/-- Settles O10: the one stage failed, so the registers are as its start left them. -/
theorem errorKeepsRegisters : Obligations.ErrorKeepsRegisters := by
  intro i k s t hplan habort hexec herr
  have hi : i ≠ .abort ∧ i ≠ .softReset := by constructor <;> rintro rfl <;> cases hplan
  rw [exec_eq_runCommand hi.1 hi.2, hplan] at hexec
  cases hexec
  obtain ⟨e, u, hrun, hstages⟩ := runStages_err_of_failure habort herr
  rw [List.map_singleton, runStages_singleton] at hstages
  obtain ⟨hres, hcnt, hvalid, hstage⟩ := runStage_err_registers hstages
  rw [hrun]
  exact ⟨hres, hcnt, hvalid, hstage⟩

/-- The VALID bits of a command of one stage after its success (R285). -/
theorem valid_of_success {i : Instr} {k : StageId} (hplan : plan i = [k]) {s t : State} (hexec : exec i s = .next t)
    (hok : t.status.errCode = 0) : t.valid = k.setValid (k.clearValid s.valid) := by
  have hi : i ≠ .abort ∧ i ≠ .softReset := by constructor <;> rintro rfl <;> cases hplan
  rw [exec_eq_runCommand hi.1 hi.2, hplan] at hexec
  cases hexec
  obtain ⟨u, hrun, hstages⟩ := runStages_ok_of_success hok
  rw [List.map_singleton, runStages_singleton] at hstages
  rw [hrun, completeWith_valid, runStage_ok_valid hstages]

/-- Settles O11: what the stage clears at its start and sets at its success, stage by stage; NOP has no stage. -/
theorem successSetsValid : Obligations.SuccessSetsValid := by
  intro i s t habort hexec hok
  refine ⟨?_, ?_, ?_, ?_, ?_⟩
  · rintro rfl
    exact valid_of_success (k := .sat) rfl hexec hok
  · rintro rfl
    exact valid_of_success (k := .qt) rfl hexec hok
  · rintro rfl
    exact valid_of_success (k := .huf) rfl hexec hok
  · rintro rfl
    exact valid_of_success (k := .dec) rfl hexec hok
  · rintro (rfl | rfl | rfl | rfl | rfl | rfl | rfl | rfl)
    · exact valid_of_success (k := .enc) rfl hexec hok
    · exact valid_of_success (k := .recon) rfl hexec hok
    · exact valid_of_success (k := .regionAvg) rfl hexec hok
    · exact valid_of_success (k := .regionHomog) rfl hexec hok
    · exact valid_of_success (k := .inspectSat) rfl hexec hok
    · exact valid_of_success (k := .inspectNode) rfl hexec hok
    · exact valid_of_success (k := .inspectSym) rfl hexec hok
    · cases (exec_nop_ok habort).symm.trans hexec
      rfl

end Sys2Proof.Machine
end

section
/-! The machine's invariant: it holds at reset, and every step keeps it. A command keeps it because its stages keep the
tables and store only inside the address space; the host's moves do not reach what it speaks of. -/

namespace Sys2Proof.Machine

/-! ## Reset -/

/-- A reset state with external memory in its canonical form meets the invariant, whatever CMD holds
(spec/70_reset_and_hazards.md R320). -/
theorem inv_of_reset {p : Params} (hp : p.wellFormed = true) {m : Memory} (hwf : m.wf = true)
    (hbound : ∀ c ∈ m, c.1 < addressSpace) (w : Word) (agenda : List Event) (reads : List Word) (n k : Nat) :
    State.Inv { State.resetWith p with
      cmd := w, mem := m, agenda := agenda, reads := reads, freeIx := n, readIx := k } where
  par := hp
  mem := hwf
  memBound := hbound
  busyClean := nofun
  abortBusy := nofun
  stage := Nat.zero_le 7
  errCode := Nat.zero_le 8
  errInfo _ _ := rfl
  busyCmd := nofun
  inflight := ⟨rfl, rfl, rfl⟩
  tables :=
    { sat := nofun, tree := nofun, root := nofun, syms := nofun, freq := nofun, codes := nofun, huf := nofun
      trie := Nat.zero_le _, flags := ⟨nofun, nofun, nofun, nofun⟩ }

/-- Settles O59: the reset state has an empty memory. -/
theorem resetMeetsInvariant : Obligations.ResetMeetsInvariant := by
  have hreset : ∀ p : Params, p.wellFormed = true → (State.resetWith p).Inv := fun p hp =>
    inv_of_reset hp (m := []) rfl nofun 0 [] [] 0 0
  exact ⟨hreset _ (by decide), hreset⟩

/-- The bytes a running command may have stored lie in the address space (spec/20_memory.md R65). -/
theorem runningWrites_bound (s : State) : ∀ c ∈ runningWrites s, c.1 < addressSpace :=
  commandStores_bound (wordPlan s.cmd) s

/-- A discarded command leaves some of its bytes stored, and nothing where the block was idle (R263, R320). -/
theorem discardRunning_spec (s : State) :
    ∃ m n, discardRunning s = { s with mem := m, freeIx := n } ∧ (s.status.busy = false → m = s.mem) ∧
      (s.mem.wf = true → m.wf = true) ∧ (∀ c ∈ m, c ∈ runningWrites s ∨ c ∈ s.mem) ∧
      (s.mem.wf = true → ∀ a, m.read a = s.mem.read a ∨ (a, m.read a) ∈ runningWrites s) := by
  unfold discardRunning
  cases hbusy : s.status.busy with
  | false => exact ⟨s.mem, s.freeIx, rfl, fun _ => rfl, id, fun _ => .inr, fun _ _ => .inl rfl⟩
  | true =>
    obtain ⟨m, n, he, hwf, hmem, hread⟩ := scramble_spec (runningWrites s) s
    exact ⟨m, n, he, nofun, hwf, hmem, hread⟩

/-- A reset in a state of the invariant meets the invariant. -/
theorem inv_resetBlock {s : State} (h : s.Inv) (w : Word) : State.Inv { resetBlock (discardRunning s) with cmd := w } := by
  obtain ⟨m, n, he, _, hwf, hmem, _⟩ := discardRunning_spec s
  rw [he]
  exact inv_of_reset h.par (hwf h.mem) (fun c hc => (hmem c hc).elim (runningWrites_bound s c) (h.memBound c)) w s.agenda
    s.reads n s.readIx

/-! ## Commands -/

theorem tablesOk_scramble {s : State} (h : s.TablesOk) (ws : List Host.Cell) : (scramble ws s).TablesOk := by
  obtain ⟨m, n, he, _⟩ := scramble_spec ws s
  rw [he]
  exact h.congr' rfl rfl rfl rfl rfl rfl rfl

theorem scramble_status (ws : List Host.Cell) (s : State) : (scramble ws s).status = s.status := by
  obtain ⟨m, n, he, _⟩ := scramble_spec ws s
  rw [he]

/-- A command completes in a state whose tables are as VALID promises and whose STAGE is a defined code. -/
theorem runCommand_tables (ks : List StageId) {s : State} (h : s.Inv) :
    (runCommand (ks.map StageId.stage) s).TablesOk ∧ (runCommand (ks.map StageId.stage) s).status.stage.toNat ≤ 7 := by
  have htables := tablesOk_runStages ks h.par h.tables
  have hstage := stage_runStages ks s h.stage
  rcases runCommand_cases ks s with ⟨_, t, hrun, _, ⟨_, rfl⟩ | ⟨q, hq, p, n, rfl⟩⟩ | ⟨_, t, hrun, hst⟩ | ⟨_, e, t, hrun, hst⟩
  · rw [hrun]
    exact ⟨h.tables.completed _ _, h.stage⟩
  · have hdraw : (draw s).2.TablesOk := h.tables.congr' rfl rfl rfl rfl rfl rfl rfl
    have hq1 := tablesOk_stopPoints ks (s := (draw s).2) h.par hdraw q hq
    have hq2 := stage_stopPoints ks (draw s).2 q hq
    have hpool : State.TablesOk { q.2 with pool := p, freeIx := n } := hq1.congr' rfl rfl rfl rfl rfl rfl rfl
    rw [hrun]
    exact ⟨(tablesOk_scramble hpool _).completed _ _, by rwa [completeWith_status, scramble_status]⟩
  · rw [hst] at htables hstage
    rw [hrun]
    exact ⟨htables.completed _ _, hstage⟩
  · rw [hst] at htables hstage
    rw [hrun]
    exact ⟨htables.completed _ _, hstage⟩

/-- A command stores only inside the address space, and keeps the canonical form (spec/20_memory.md R60, R65). -/
theorem runCommand_mem (ks : List StageId) {s : State} (h : s.Inv) :
    (runCommand (ks.map StageId.stage) s).mem.wf = true ∧
      ∀ c ∈ (runCommand (ks.map StageId.stage) s).mem, c.1 < addressSpace := by
  obtain ⟨n, hst⟩ := storedFrom_runCommand ks s
  exact ⟨hst.wf h.mem, fun c hc => (hst.mem c hc).elim (commandStores_bound ks _ c) (h.memBound c)⟩

/-- A command of stages keeps the invariant. -/
theorem inv_runCommand (ks : List StageId) {s : State} (h : s.Inv) : (runCommand (ks.map StageId.stage) s).Inv := by
  obtain ⟨htables, hstage⟩ := runCommand_tables ks h
  obtain ⟨hwf, hbound⟩ := runCommand_mem ks h
  obtain ⟨c, i, t, hrun, hk, hc, hi⟩ := runCommand_completes ks s
  rw [hrun] at htables hstage hwf hbound ⊢
  exact
    { par := hk.par.symm ▸ h.par
      mem := hwf
      memBound := hbound
      busyClean := nofun
      abortBusy := nofun
      stage := hstage
      errCode := hc
      errInfo := fun _ => hi
      busyCmd := nofun
      inflight := ⟨rfl, rfl, rfl⟩
      tables := htables }

/-- A completion with an error keeps the invariant. -/
theorem inv_raiseError {s : State} (h : s.Inv) (e : Err) : (raiseError e s).Inv := by
  obtain ⟨c, i, he, hc⟩ := raiseError_spec e s
  have hcode : c ≠ 0 ∧ c.toNat ≤ 8 := by
    rcases hc with ⟨_, rfl, _⟩ | ⟨_, rfl, _⟩
    · exact ErrCode.aborted.code_bounds
    · exact e.code.code_bounds
  rw [he]
  exact { h with
    busyClean := nofun
    abortBusy := nofun
    errCode := hcode.2
    errInfo := fun _ hz => absurd hz hcode.1
    busyCmd := nofun
    inflight := ⟨rfl, rfl, rfl⟩
    tables := h.tables.completed c i }

/-- The engine's turn keeps the invariant: ABORT and SOFT_RESET are never the running command (spec/10_state.md R25). -/
theorem inv_engineTurn {s t : State} (h : s.Inv) (hstep : engineTurn s = .next t) : t.Inv := by
  unfold engineTurn at hstep
  split at hstep
  · rename_i hbusy
    obtain ⟨hna, hnr⟩ := h.busyCmd hbusy
    split at hstep
    · rename_i i hd
      rw [exec_eq_runCommand (fun hi => hna (hi ▸ hd)) (fun hi => hnr (hi ▸ hd))] at hstep
      cases hstep
      exact inv_runCommand _ h
    · cases hstep
      exact inv_raiseError h _
  · cases hstep
    exact h

/-! ## The host -/

/-- What the invariant does not speak of: CTRL, the configuration, the agenda and the host's reads. -/
theorem State.Inv.host {s t : State} (h : s.Inv) (he : t = { s with
      irqEn := t.irqEn, cfg := t.cfg, agenda := t.agenda, reads := t.reads, readIx := t.readIx }) : t.Inv := by
  rw [he]
  exact { h with tables := h.tables.congr' rfl rfl rfl rfl rfl rfl rfl }

/-- A STATUS write keeps the invariant: it clears DONE and OVR at most (spec/10_state.md R23). -/
theorem inv_writeStatus {s : State} (h : s.Inv) (v : Word) : (writeStatus v s).Inv :=
  { h with
    busyClean := fun hb => ⟨by simp [writeStatus, Status.w1c, (h.busyClean hb).1], (h.busyClean hb).2⟩
    tables := h.tables.congr' rfl rfl rfl rfl rfl rfl rfl }

theorem inv_regWrite {s : State} (h : s.Inv) (r : Reg) (v : Word) : (regWrite r v s).Inv := by
  by_cases hr : r = .status
  · subst hr
    exact inv_writeStatus h v
  · obtain ⟨b, o, hw⟩ := regWrite_frame v s hr
    rw [hw s rfl rfl]
    exact h.host rfl

/-- A plan begins with a defined STAGE code (spec/10_state.md R24). -/
theorem firstCode_le (ks : List StageId) : (firstCode ks).toNat ≤ 7 := by
  cases ks with
  | nil => exact Nat.zero_le 7
  | cons k ks => exact stageCode_le k

/-- Acceptance of any word but ABORT's and SOFT_RESET's keeps the invariant (spec/60_exceptions.md R282). -/
theorem inv_accept {s : State} (h : s.Inv) {v : Word} (hna : decode v ≠ .ok .abort) (hnr : decode v ≠ .ok .softReset) :
    (accept v s).Inv :=
  { h with
    busyClean := fun _ => ⟨rfl, rfl⟩
    abortBusy := nofun
    stage := firstCode_le _
    errCode := Nat.zero_le 8
    errInfo := nofun
    busyCmd := fun _ => ⟨hna, hnr⟩
    tables := h.tables.congr' rfl rfl rfl rfl rfl rfl rfl }

/-- A CMD write keeps the invariant (spec/10_state.md R25). -/
theorem inv_commandWrite {s t : State} (h : s.Inv) {v : Word} (hstep : commandWrite v s = .next t) : t.Inv := by
  unfold commandWrite at hstep
  split at hstep
  · cases hstep
    exact inv_resetBlock h _
  · cases hstep
    split
    · exact { h with abortBusy := fun _ => ‹_›, tables := h.tables.congr' rfl rfl rfl rfl rfl rfl rfl }
    · exact h
  · rename_i hnr hna
    cases hstep
    split
    · exact { h with tables := h.tables.congr' rfl rfl rfl rfl rfl rfl rfl }
    · exact inv_accept h hna hnr

theorem inv_hostWrite {s t : State} (h : s.Inv) {addr size : Nat} {v : Word}
    (hstep : hostWrite addr size v s = .next t) : t.Inv := by
  unfold hostWrite at hstep
  split at hstep
  · exact inv_commandWrite h hstep
  · cases hstep
    exact inv_regWrite h _ v
  · cases hstep
    exact h
  · cases hstep
  · cases hstep

theorem inv_hostRead {s t : State} (h : s.Inv) {addr size : Nat} (hstep : hostRead addr size s = .next t) : t.Inv := by
  unfold hostRead at hstep
  split at hstep
  · rename_i r _
    obtain ⟨n, hn⟩ := hostRegRead_state r s
    rw [hn] at hstep
    cases hstep
    exact h.host rfl
  · cases hstep
    exact h.host rfl
  · cases hstep
  · cases hstep

/-- A host store is inside the address space, or it faults (spec/20_memory.md R60). -/
theorem inv_hostStore {s t : State} (h : s.Inv) {addr : Nat} {bytes : List Byte}
    (hstep : Machine.hostStore addr bytes s = .next t) : t.Inv := by
  unfold Machine.hostStore at hstep
  split at hstep
  · cases hstep
  · rename_i hspace
    split at hstep
    · cases hstep
    · cases hstep
      have hin : ∀ c ∈ cellsAt addr bytes, c.1 < addressSpace := fun c hc => by
        simpa using List.find?_eq_none.mp hspace c hc
      exact { h with
        mem := Memory.wf_writeAll h.mem _
        memBound := fun c hc => (Memory.mem_writeAll hc).elim (hin c) (h.memBound c)
        tables := h.tables.congr' rfl rfl rfl rfl rfl rfl rfl }

theorem inv_hostLoad {s t : State} (h : s.Inv) {a : Nat} (hstep : Machine.hostLoad a s = .next t) : t.Inv := by
  by_cases ha : a < addressSpace
  · obtain ⟨b, n, he, _⟩ := hostLoad_next ha s
    cases he.symm.trans hstep
    exact h.host rfl
  · rw [Machine.hostLoad, if_pos (Nat.not_lt.mp ha)] at hstep
    cases hstep

theorem inv_hostWait {s t : State} (h : s.Inv) (hstep : hostWait s = .next t) : t.Inv := by
  obtain ⟨v, n, he⟩ := hostWait_state s
  cases he.symm.trans hstep
  exact h.host rfl

/-- Settles O60: each event of the agenda keeps the invariant, and so does the engine's turn on an empty agenda. -/
theorem stepKeepsInvariant : Obligations.StepKeepsInvariant := by
  intro s t h hstep
  cases hagenda : s.agenda with
  | nil =>
    rw [step, hagenda] at hstep
    exact inv_engineTurn h hstep
  | cons e rest =>
    rw [step_cons hagenda] at hstep
    have hrest : (s.withRest rest).Inv := h.host rfl
    cases e with
    | write addr size v => exact inv_hostWrite hrest hstep
    | read addr size => exact inv_hostRead hrest hstep
    | store addr bytes => exact inv_hostStore hrest hstep
    | load a => exact inv_hostLoad hrest hstep
    | wait => exact inv_hostWait hrest hstep
    | engine => exact inv_engineTurn hrest hstep
    | rst =>
      cases hstep
      exact inv_resetBlock hrest 0

end Sys2Proof.Machine
end

section
/-! Command words that the decoder refuses, and how a command word comes to run: the CMD write, the fetch and the engine's
turn (spec/30_encoding.md R91 to R93, spec/10_state.md R25, spec/60_exceptions.md R282 to R295). -/

namespace Sys2Proof

/-! ## Words that are no command -/

/-- The fields of a word as numbers (R91). -/
theorem ofWord_toNat (v : Word) :
    (CommandWord.ofWord v).opcode.toNat = v.toNat % 256 ∧ (CommandWord.ofWord v).rsvd.toNat = v.toNat / 256 := by
  have hv := v.isLt
  simp only [CommandWord.ofWord, BitVec.extractLsb'_toNat, Nat.shiftRight_eq_div_pow]
  omega

/-- The opcodes that the map leaves out (R93). -/
theorem opcodeCommand_eq_none {o : BitVec 8} : opcodeCommand o = none ↔ 0x0F ≤ o.toNat ∧ o.toNat ≤ 0xFE := by
  have ho := o.isLt
  unfold opcodeCommand
  split
  case h_17 =>
    simp only [imp_false] at *
    simp only [true_iff]
    omega
  all_goals
    simp only [reduceCtorEq, false_iff]
    omega

/-- The two refusals of the decoder, by the fields (R93). -/
theorem decode_eq_error {v : Word} :
    (decode v = .error .reservedBits ↔ (CommandWord.ofWord v).rsvd ≠ 0) ∧
      (decode v = .error .reservedOpcode ↔
        (CommandWord.ofWord v).rsvd = 0 ∧ opcodeCommand (CommandWord.ofWord v).opcode = none) := by
  simp only [decode, CommandWord.rsvdOk, beq_iff_eq]
  by_cases hrsvd : (CommandWord.ofWord v).rsvd = 0
  · cases opcodeCommand (CommandWord.ofWord v).opcode <;> simp [hrsvd]
  · simp only [hrsvd, if_false, ne_eq, not_false_eq_true, false_and, reduceCtorEq, Except.error.injEq, and_self]

/-- Settles O2: RSVD is the word's quotient by 256 and OPCODE its remainder. -/
theorem illegalWords : Obligations.IllegalWords := by
  intro v
  obtain ⟨hopcode, hrsvd⟩ := ofWord_toNat v
  have hzero : (CommandWord.ofWord v).rsvd = 0 ↔ v.toNat / 256 = 0 := by
    rw [← hrsvd, ← BitVec.toNat_inj]
    rfl
  rw [decode_eq_error.1, decode_eq_error.2, opcodeCommand_eq_none, hopcode, ne_eq, hzero]
  omega

/-- Settles O3: each word is its command's encoding. -/
theorem decodeWords : Obligations.DecodeWords := by
  refine ⟨?_, ?_, ?_, ?_, ?_, ?_, ?_, ?_, ?_, ?_, ?_, ?_, ?_, ?_, ?_, ?_⟩ <;> exact (decodeExact _ _).1.mpr rfl

end Sys2Proof

namespace Sys2Proof.Machine

/-! ## Fetching and the engine's turn -/

/-- While BUSY the engine's turn runs the accepted command. -/
theorem engineTurn_of_busy {s : State} {i : Instr} (hbusy : s.status.busy = true) (hd : decode s.cmd = .ok i) :
    engineTurn s = exec i s := by
  rw [engineTurn, if_pos hbusy, hd]

/-- With nothing on the agenda there is nothing to take off it. -/
theorem pop_of_empty {s : State} (h : s.agenda = []) : s.pop = s := by
  obtain ⟨⟩ := s
  simp only at h
  subst h
  rfl

/-- A CMD write of ABORT's or SOFT_RESET's word runs the command at once (spec/10_state.md R25). -/
theorem commandWrite_of_control {v : Word} {i : Instr} (hd : decode v = .ok i) (hi : i = .softReset ∨ i = .abort)
    (s : State) : commandWrite v s = exec i s := by
  unfold commandWrite
  rw [hd]
  rcases hi with rfl | rfl <;> rfl

/-- Settles O4: the fetched word is the running command's at the engine's turn, or the ABORT or SOFT_RESET written next. -/
theorem stepRunsCommand : Obligations.StepRunsCommand := by
  intro s w i hfetch hd
  unfold fetchedWord at hfetch
  split at hfetch
  · rename_i hagenda
    split at hfetch <;> cases hfetch
    rw [step, hagenda, pop_of_empty hagenda]
    exact engineTurn_of_busy ‹_› hd
  · rename_i rest hagenda
    split at hfetch <;> cases hfetch
    rw [step, hagenda]
    exact engineTurn_of_busy (s := s.pop) ‹_› hd
  · rename_i addr size v rest hagenda
    split at hfetch <;> cases hfetch
    rename_i hcontrol
    obtain ⟨htarget, hword⟩ := hcontrol
    rw [step, hagenda]
    simp only [react, hostWrite, pop_par, htarget]
    refine commandWrite_of_control hd ?_ s.pop
    rw [hd, Except.ok.injEq, Except.ok.injEq] at hword
    exact hword
  · cases hfetch

/-- A CMD write while BUSY, of any word but SOFT_RESET's and ABORT's, only sets OVR (spec/10_state.md R25). -/
theorem commandWrite_of_busy {v : Word} {s : State} (hbusy : s.status.busy = true)
    (hreset : decode v ≠ .ok .softReset) (habort : decode v ≠ .ok .abort) :
    commandWrite v s = .next { s with status := { s.status with ovr := true } } := by
  unfold commandWrite
  split
  · exact absurd ‹_› hreset
  · exact absurd ‹_› habort
  · rw [if_pos hbusy]

/-- Settles O6: the write is lost. -/
theorem busyWriteLost : Obligations.BusyWriteLost := by
  intro s v rest hagenda hbusy hreset habort
  exact (step_write_cmd hagenda).trans (commandWrite_of_busy (s := s.withRest rest) hbusy
    (fun h => hreset ((decodeExact v .softReset).1.mp h)) (fun h => habort ((decodeExact v .abort).1.mp h)))

/-- Settles O7: either form of the agenda gives the engine its turn. -/
theorem illegalWordCompletes : Obligations.IllegalWordCompletes := by
  intro s d hbusy hpending hd hagenda
  have hturn : step s = engineTurn s.pop := by
    rcases hagenda with hagenda | ⟨rest, hagenda⟩
    · rw [step, hagenda, pop_of_empty hagenda]
    · rw [step, hagenda]
      rfl
  rw [hturn]
  exact engineTurn_of_illegal (s := s.pop) hbusy hpending hd

/-! ## ABORT, STATUS and the interrupt line -/

theorem exec_abort (s : State) : exec .abort s = .next (if s.status.busy then { s with pendingAbort := true } else s) := rfl

/-- Settles O13: ABORT acts in its CMD write. -/
theorem abortWrite : Obligations.AbortWrite := by
  intro s
  refine ⟨fun hbusy => ?_, fun hidle => ?_, fun rest hagenda => ?_⟩
  · rw [exec_abort, if_pos hbusy]
  · rw [exec_abort, if_neg (Bool.eq_false_iff.mp hidle)]
  · exact (step_write_cmd hagenda).trans (commandWrite_of_control ((decodeExact _ .abort).1.mpr rfl) (.inr rfl) _)

/-- Settles O21: a STATUS write is the write-1-to-clear rule. -/
theorem statusWrite : Obligations.StatusWrite := fun _ _ _ hagenda => step_write (by decide) hagenda

theorem irq_iff (s : State) : s.irq = true ↔ s.irqEn = true ∧ s.status.done = true := Bool.and_eq_true_iff

/-- Settles O25: every completion sets DONE and no stage writes IRQ_EN; the other moves clear one of the two. -/
theorem interruptLine : Obligations.InterruptLine := by
  refine ⟨irq_iff, fun i s t hi hr hexec => ?_, fun s v hv => ?_, fun s v => ?_, fun s v hv => ?_, fun p => rfl⟩
  · obtain ⟨c, w, u, hrun, hk, _⟩ := runCommand_completes (plan i) s
    rw [exec_eq_runCommand hi hr, hrun] at hexec
    cases hexec
    simp only [State.irq, completeWith_irqEn, completeWith_status, Bool.and_true, hk.irqEn]
  · simp only [State.irq, regWrite, writeStatus, Status.w1c, hv, Bool.not_true, Bool.and_false]
  · simp only [State.irq, accept, Bool.and_false]
  · simp only [State.irq, regWrite, hv, Bool.false_and]

end Sys2Proof.Machine
end

section
/-! The register window: which access reaches which register, what a write leaves of the other registers, and what a read
returns (spec/10_state.md R20 to R47, spec/20_memory.md R70, spec/70_reset_and_hazards.md R325). -/

namespace Sys2Proof.Machine

/-! ## Offsets -/

theorem offset_bounds (r : Reg) : r.offset ≤ 0x0A8 ∧ r.offset % 4 = 0 := by cases r <;> decide

/-- Each register has its own offset (R20). -/
theorem ofOffset_eq_some {off : Nat} {r : Reg} : Reg.ofOffset off = some r ↔ off = r.offset := by
  constructor
  · intro h
    exact (beq_iff_eq.mp (List.find?_some (p := fun r : Reg => r.offset == off) h)).symm
  · rintro rfl
    cases r <;> rfl

/-- Every word of the window up to CAP4 is a register's, and none above (R20, R47). -/
theorem ofOffset_eq_none {off : Nat} (h4 : off % 4 = 0) : Reg.ofOffset off = none ↔ 0x0AC ≤ off := by
  have hmapped : ∀ k < 43, Reg.ofOffset (4 * k) ≠ none := by decide
  constructor
  · intro hnone
    by_contra hlt
    refine hmapped (off / 4) (by omega) ?_
    rwa [Nat.mul_div_cancel' (Nat.dvd_of_mod_eq_zero h4)]
  · intro hlow
    cases hreg : Reg.ofOffset off with
    | none => rfl
    | some r =>
      have hoff := ofOffset_eq_some.mp hreg
      have hbound := (offset_bounds r).1
      omega

/-- What a 32-bit aligned access of the window reaches: the register at its offset, or a reserved word (R20, R47). -/
theorem target_of_aligned {p : Params} {off : Nat} (hwindow : off < 4096) (h4 : off % 4 = 0) :
    target p (p.mmioBase + off) 4 = (Reg.ofOffset off).elim .reserved .reg := by
  unfold target
  rw [if_neg (by omega), Nat.add_sub_cancel_left, if_neg (by omega)]
  cases Reg.ofOffset off <;> rfl

/-- An access that reaches a register or a reserved word is a 32-bit aligned access of the window (R70). -/
theorem aligned_of_target {p : Params} {addr size : Nat}
    (h : target p addr size ≠ .outside ∧ target p addr size ≠ .bad) :
    size = 4 ∧ ∃ off, addr = p.mmioBase + off ∧ off < 4096 ∧ off % 4 = 0 := by
  obtain ⟨hout, hbad⟩ := h
  unfold target at hout hbad
  split_ifs at hout hbad with h1 h2
  · exact absurd rfl hout
  · exact absurd rfl hbad
  · exact ⟨by omega, addr - p.mmioBase, by omega, by omega, by omega⟩

theorem target_eq_reg {p : Params} {addr size : Nat} {r : Reg} :
    target p addr size = .reg r ↔ size = 4 ∧ addr = p.mmioBase + r.offset := by
  constructor
  · intro h
    obtain ⟨rfl, off, rfl, hwindow, h4⟩ := aligned_of_target (p := p) (addr := addr) (size := size)
      (by rw [h]; exact ⟨nofun, nofun⟩)
    rw [target_of_aligned hwindow h4] at h
    cases hreg : Reg.ofOffset off with
    | none => rw [hreg] at h; cases h
    | some q =>
      rw [hreg] at h
      cases h
      exact ⟨rfl, congrArg (p.mmioBase + ·) (ofOffset_eq_some.mp hreg)⟩
  · rintro ⟨rfl, rfl⟩
    exact target_regAddress p r

theorem target_eq_reserved {p : Params} {addr size : Nat} :
    target p addr size = .reserved ↔
      size = 4 ∧ ∃ off, addr = p.mmioBase + off ∧ off % 4 = 0 ∧ 0x0AC ≤ off ∧ off ≤ 0xFFC := by
  constructor
  · intro h
    obtain ⟨rfl, off, rfl, hwindow, h4⟩ := aligned_of_target (p := p) (addr := addr) (size := size)
      (by rw [h]; exact ⟨nofun, nofun⟩)
    rw [target_of_aligned hwindow h4] at h
    cases hreg : Reg.ofOffset off with
    | none => exact ⟨rfl, off, rfl, h4, (ofOffset_eq_none h4).mp hreg, by omega⟩
    | some q => rw [hreg] at h; cases h
  · rintro ⟨rfl, off, rfl, h4, hlow, hhigh⟩
    rw [target_of_aligned (by omega) h4, (ofOffset_eq_none h4).mpr hlow, Option.elim_none]

/-- Settles O18: registers and reserved words share the window's aligned words. -/
theorem windowMap : Obligations.WindowMap := fun _ _ _ => ⟨fun _ => target_eq_reg, target_eq_reserved⟩

/-! ## Writes -/

/-- A read does not depend on the agenda. -/
@[simp] theorem regRead_withRest (r : Reg) (s : State) (rest : List Event) : regRead r (s.withRest rest) = regRead r s := by
  cases r <;> rfl

/-- A register without field bits does not depend on IRQ_EN and the configuration. -/
theorem regRead_of_writeMask_none {q : Reg} (hq : writeMask q = none) (s : State) (b : Bool) (o : Operands) :
    regRead q { s with irqEn := b, cfg := o } = regRead q s := by
  cases q
  case ctrl | imgW | imgH | minDepth | maxDepth | lossPercent | maxConcDepth | pixBase | outBase | outCap | cntBase
    | cntLen | qX | qY | qW | qH | qColor | qIndex => cases hq
  all_goals rfl

/-- A write to a read-write register leaves every other register alone (R22, R43). -/
theorem regRead_regWrite_ne {r q : Reg} (hr : writeMask r ≠ none) (hqr : q ≠ r) (v : Word) (s : State) :
    regRead q (regWrite r v s) = regRead q s := by
  by_cases hq : writeMask q = none
  · obtain ⟨b, o, hw⟩ := regWrite_frame (r := r) v s (by rintro rfl; exact hr rfl)
    rw [hw s rfl rfl, regRead_of_writeMask_none hq]
  · cases r
    case ctrl | imgW | imgH | minDepth | maxDepth | lossPercent | maxConcDepth | pixBase | outBase | outCap | cntBase
      | cntLen | qX | qY | qW | qH | qColor | qIndex =>
      cases q
      case id | status | cmd | res0 | res1 | res2 | res3 | res4 | res5 | valid | satW | satH | treeW | treeH | nodeCount
        | leafCount | symCount | outLen | payloadBits | errInfo | cap0 | cap1 | cap2 | cap3 | cap4 => exact absurd rfl hq
      all_goals solve | rfl | exact absurd rfl hqr
    all_goals exact absurd rfl hr

/-- Settles O19: the write is the register write, whose frame is IRQ_EN and the configuration. -/
theorem configWrite : Obligations.ConfigWrite := by
  intro s r v m rest hmask hagenda
  have hr : writeMask r ≠ none := by rw [hmask]; exact Option.some_ne_none m
  have hstatus : r ≠ .status := by rintro rfl; exact hr rfl
  have hcmd : r ≠ .cmd := by rintro rfl; exact hr rfl
  refine ⟨_, step_write hcmd hagenda, regRead_regWrite_same hmask v _, fun q hq => ?_, ?_⟩
  · rw [regRead_regWrite_ne hr hq, regRead_withRest]
  · obtain ⟨b, o, hw⟩ := regWrite_frame v (s.withRest rest) hstatus
    rw [hw _ rfl rfl]

/-- Settles O20: no field takes a bit, and no reserved word is a register. -/
theorem readOnlyAndReserved : Obligations.ReadOnlyAndReserved := by
  refine ⟨fun s r v rest hmask hstatus hcmd hagenda => ?_, fun s off v rest h4 hlow hhigh => ?_⟩
  · rw [step_write hcmd hagenda, regWrite_of_writeMask_none hmask hstatus]
  · have htarget : target s.par (s.par.mmioBase + off) 4 = .reserved :=
      target_eq_reserved.mpr ⟨rfl, off, rfl, h4, hlow, hhigh⟩
    have hpar : (s.withRest rest).par = s.par := rfl
    constructor <;> intro hagenda <;> rw [step_cons hagenda]
    · simp only [react, hostWrite, hpar, htarget]
    · simp only [react, hostRead, hpar, htarget]
      rfl

/-! ## Reads -/

/-- Settles O16: the reset value of each register. -/
theorem resetRegisters : Obligations.ResetRegisters := by
  intro p r
  cases r
  case ctrl => exact (by decide : (0 : BitVec 31) ++ BitVec.ofBool false = (0 : Word))
  case status => exact (by decide : Status.reset.word = 0)
  case valid => exact (by decide : Valid.reset.word = 0)
  all_goals rfl

/-- A flag counts its weight where it is set. -/
theorem flag_weight (b : Bool) (k : Nat) : (if b = true then k else 0) = k * (BitVec.ofBool b).toNat := by
  cases b <;> simp

/-- STATUS as a number (R23). -/
theorem status_word_toNat (t : Status) :
    t.word.toNat = (if t.busy then 1 else 0) + (if t.done then 2 else 0) + (if t.err then 4 else 0) +
      (if t.ovr then 8 else 0) + 16 * t.stage.toNat + 256 * t.errCode.toNat := by
  have hzero : (0 : BitVec 16).toNat = 0 := rfl
  simp only [Status.word, toNat_append_fields, flag_weight, hzero]
  omega

/-- VALID as a number (R37). -/
theorem valid_word_toNat (f : Valid) :
    f.word.toNat = (if f.satV then 1 else 0) + (if f.treeV then 2 else 0) + (if f.freqV then 4 else 0) +
      (if f.codeV then 8 else 0) + (if f.treeDec then 16 else 0) := by
  have hzero : (0 : BitVec 27).toNat = 0 := rfl
  simp only [Valid.word, toNat_append_fields, flag_weight, hzero]
  omega

/-- Settles O22: the fields of the two words, weighted by their positions. -/
theorem statusAndValidBits : Obligations.StatusAndValidBits := by
  intro s
  refine ⟨?_, valid_word_toNat s.valid⟩
  have herr : s.status.err = true ↔ s.status.errCode ≠ 0 := bne_iff_ne
  simp only [← herr]
  exact status_word_toNat s.status

/-- A read of a register while idle, or of one that no command writes, has one candidate (R325). -/
theorem hostRegRead_exact {r : Reg} {s : State} (h : s.status.busy = false ∨ r.isResult = false) :
    hostRegRead r s = (regRead r s, s) := by
  refine if_neg ?_
  rcases h with h | h <;> simp [h]

/-- Settles O23: the one candidate is the value the register holds. -/
theorem registerRead : Obligations.RegisterRead := by
  intro s r rest hagenda h
  rw [step_read hagenda, hostRegRead_exact (s := s.withRest rest) h, regRead_withRest]
  rfl

/-- The value a read of a result register may return beside the one it holds is the value the engine's turn writes, with the
pending abort as it is or set by an ABORT ahead (R325). -/
theorem regRead_finalState (r : Reg) (s : State) :
    regRead r (finalState s) = regRead r s ∨
      (∃ u, engineTurn s = .next u ∧ regRead r (finalState s) = regRead r u) ∨
      ∃ u, engineTurn { s with pendingAbort := true } = .next u ∧ regRead r (finalState s) = regRead r u := by
  unfold finalState
  split
  · rename_i t hturn
    cases habort : s.pendingAbort || abortAhead s.par s.agenda with
    | true =>
      rw [habort] at hturn
      exact .inr (.inr ⟨t, hturn, rfl⟩)
    | false =>
      rw [habort] at hturn
      have hnone : s.pendingAbort = false := (Bool.or_eq_false_iff.mp habort).1
      have hsame : { s with pendingAbort := false } = s := by rw [← hnone]
      rw [hsame] at hturn
      exact .inr (.inl ⟨t, hturn, rfl⟩)
  · exact .inl rfl

theorem mem_busyValues {r : Reg} (hr : r ≠ .status) {s : State} {v : Word} (h : v ∈ busyValues r s) :
    v = regRead r (finalState s) := by
  cases r
  case status => exact absurd rfl hr
  all_goals exact List.mem_singleton.mp h

/-- What a read while BUSY may return: of STATUS the other fields as they are, of another register a value of R325. -/
theorem hostRegRead_value (r : Reg) (s : State) :
    (r = .status → ∃ c, (hostRegRead r s).1 = statusWithStage s c) ∧
      (r ≠ .status → (hostRegRead r s).1 = regRead r s ∨ (hostRegRead r s).1 = regRead r (finalState s)) := by
  unfold hostRegRead
  split
  · have hmem := chooseRead_mem (regRead r s) ((busyValues r s).filter fun v => v != regRead r s) s
    refine ⟨?_, fun hr => ?_⟩
    · rintro rfl
      rcases List.mem_cons.mp hmem with h | h
      · exact ⟨s.status.stage, h⟩
      · obtain ⟨c, _, hc⟩ := List.mem_map.mp (List.mem_filter.mp h).1
        exact ⟨c, hc.symm⟩
    · rcases List.mem_cons.mp hmem with h | h
      · exact .inl h
      · exact .inr (mem_busyValues hr (List.mem_filter.mp h).1)
  · refine ⟨?_, fun _ => .inl rfl⟩
    rintro rfl
    exact ⟨s.status.stage, rfl⟩

/-- Settles O24: the read's candidates, and its frame. -/
theorem busyRead : Obligations.BusyRead := by
  intro s r rest hagenda
  obtain ⟨n, hn⟩ := hostRegRead_state r (s.withRest rest)
  obtain ⟨hstatus, hother⟩ := hostRegRead_value r (s.withRest rest)
  refine ⟨(hostRegRead r (s.withRest rest)).1, n, ?_, hstatus, fun hr => ?_⟩
  · rw [step_read hagenda, hn]
    rfl
  · rcases hother hr with h | h
    · exact .inl (h.trans (regRead_withRest r s rest))
    · rw [h, ← regRead_withRest r s rest]
      exact regRead_finalState r (s.withRest rest)

end Sys2Proof.Machine
end

section
/-! Resets (spec/44_reconstruct_control.md R263, spec/70_reset_and_hazards.md R320), host stores (spec/20_memory.md R72, R76),
and the bytes a command may store (R67, R73). -/

namespace Sys2Proof.Machine

/-! ## Resets -/

theorem exec_softReset (s : State) :
    exec .softReset s = .next { resetBlock (discardRunning s) with cmd := 0x000000FF } := rfl

/-- Settles O14: the discarded command's stores and draws are all that is left of the state before. -/
theorem softResetResult : Obligations.SoftResetResult := by
  intro s hwf
  obtain ⟨m, n, he, hidle, _, _, hread⟩ := discardRunning_spec s
  refine ⟨m, n, ?_, hidle, hread hwf, fun rest hagenda => ?_⟩
  · rw [exec_softReset, he]
    rfl
  · exact (step_write_cmd hagenda).trans (commandWrite_of_control ((decodeExact _ .softReset).1.mpr rfl) (.inl rfl) _)

/-- What a running command may store does not depend on the rest of the agenda. -/
theorem runningWrites_withRest (s : State) (rest : List Event) : runningWrites (s.withRest rest) = runningWrites s := by
  have hset : s.withRest rest = { Outer.of s with agenda := rest }.set s := rfl
  have hpoints : ∀ ks : List StageId, (stopPoints (ks.map StageId.stage) (s.withRest rest)).flatMap pendingWrites =
      (stopPoints (ks.map StageId.stage) s).flatMap pendingWrites := by
    intro ks
    rw [hset, stopPoints_set, List.flatMap_map]
    refine List.flatMap_congr fun q hq => ?_
    obtain ⟨k, _, t, _, rfl⟩ := stage_of_stopPoints hq
    exact pendingWrites_set _ k (startStage k t)
  exact hpoints (wordPlan s.cmd)

/-- Settles O15: as SOFT_RESET, with CMD at its reset value. -/
theorem resetInput : Obligations.ResetInput := by
  intro s rest hwf hagenda
  obtain ⟨m, n, he, hidle, _, _, hread⟩ := discardRunning_spec (s.withRest rest)
  rw [runningWrites_withRest] at hread
  refine ⟨m, n, ?_, hidle, hread hwf⟩
  rw [step_cons hagenda]
  simp only [react, hostReset]
  rw [he]
  rfl

end Sys2Proof.Machine

namespace Sys2Proof.Laws.HostStore

open Sys2Proof.Machine

/-! ## Host stores -/

/-- A host store inside the address space and outside the buffers of a running command is one memory write (R60, R76). -/
theorem hostStore_next {addr : Nat} {bytes : List Byte} {s : State} (hspace : addr + bytes.length ≤ 2 ^ 32)
    (hfree : ∀ a, addr ≤ a → a < addr + bytes.length → inRunningBuffer s a = false) :
    Machine.hostStore addr bytes s = .next { s with mem := s.mem.writeAll (cellsAt addr bytes) } := by
  have h1 : (cellsAt addr bytes).find? (fun c => addressSpace ≤ c.1) = none := by
    rw [List.find?_eq_none]
    intro c hc
    obtain ⟨i, hi, rfl⟩ := mem_cellsAt.mp hc
    exact fun hle => absurd (of_decide_eq_true hle)
      (Nat.not_le.mpr ((Nat.add_lt_add_left hi addr).trans_le hspace))
  have h2 : (cellsAt addr bytes).find? (fun c => inRunningBuffer s c.1) = none := by
    rw [List.find?_eq_none]
    intro c hc
    obtain ⟨i, hi, rfl⟩ := mem_cellsAt.mp hc
    exact Bool.eq_false_iff.mp (hfree (addr + i) (Nat.le_add_right addr i) (Nat.add_lt_add_left hi addr))
  simp only [Machine.hostStore, h1, h2]

/-- Settles O26: the bytes stored are read back, and the others are as before. -/
theorem hostStore : Obligations.HostStore := by
  intro s addr bytes rest hwf hagenda hspace hfree
  exact ⟨_, (step_cons hagenda).trans (hostStore_next hspace hfree), Memory.read_writeAll_cellsAt hwf addr bytes,
    Memory.read_writeAll_cellsAt_outside addr bytes⟩

end Sys2Proof.Laws.HostStore

namespace Sys2Proof.Machine

/-! ## The bytes a command may store -/

/-- What a command stores are the writes of its stages that started, each in a state that keeps the snapshot. -/
theorem mem_commandStores {ks : List StageId} {s : State} {c : Host.Cell}
    (h : c ∈ commandStores (ks.map StageId.stage) s) :
    ∃ k ∈ ks, ∃ t, Kept s t ∧ c ∈ pendingWrites (k.stage, startStage k t) := by
  obtain ⟨q, hq, hc⟩ := List.mem_flatMap.mp h
  obtain ⟨k, hk, t, ht, rfl⟩ := stage_of_stopPoints hq
  exact ⟨k, hk, t, ht, hc⟩

theorem mem_pendingWrites {k : StageId} {s : State} {c : Host.Cell} (h : c ∈ pendingWrites (k.stage, s)) :
    firstFailure (k.stage.checks s) = none ∧ c ∈ k.stage.writes s := by
  unfold pendingWrites at h
  split at h
  · exact ⟨Option.isNone_iff_eq_none.mp ‹_›, h⟩
  · exact absurd h List.not_mem_nil

/-- ENCODE's stores are its container's bytes, which its checks keep inside the container buffer (R73,
spec/43_bitstream.md R216). -/
theorem mem_pendingWrites_enc {s : State} {c : Host.Cell} (h : c ∈ pendingWrites (StageId.enc.stage, startStage .enc s)) :
    s.snap.cntBase.toNat ≤ c.1 ∧ c.1 < s.snap.cntBase.toNat + containerSize s.syms s.nodes ∧
      containerSize s.syms s.nodes ≤ s.snap.cntLen.toNat := by
  obtain ⟨hpass, hc⟩ := mem_pendingWrites h
  obtain ⟨i, hi, rfl⟩ := mem_cellsAt.mp hc
  rw [container_length] at hi
  exact ⟨Nat.le_add_right _ i, Nat.add_lt_add_left hi _, (encodeChecks_pass.mp hpass).2.2⟩

/-- RECONSTRUCT's stores lie in the output image, which its checks keep inside the output buffer (R73,
spec/44_reconstruct_control.md R252). -/
theorem mem_pendingWrites_recon {s : State} {c : Host.Cell}
    (h : c ∈ pendingWrites (StageId.recon.stage, startStage .recon s)) :
    s.snap.outBase.toNat ≤ c.1 ∧ c.1 < s.snap.outBase.toNat + reconNeed s ∧ reconNeed s ≤ s.snap.outCap.toNat := by
  obtain ⟨hpass, hc⟩ := mem_pendingWrites h
  obtain ⟨hlo, hhi⟩ := paintWrites_range hc
  exact ⟨hlo, hhi, (reconChecks_pass.mp hpass).2.1⟩

/-- No other stage stores a byte. -/
theorem stage_of_mem_pendingWrites {k : StageId} {s : State} {c : Host.Cell} (h : c ∈ pendingWrites (k.stage, s)) :
    k = .enc ∨ k = .recon := by
  have hc := (mem_pendingWrites h).2
  cases k
  case enc => exact .inl rfl
  case recon => exact .inr rfl
  all_goals exact absurd hc List.not_mem_nil

theorem command_of_enc {i : Instr} (h : .enc ∈ plan i) : i = .encode ∨ i = .compress := by
  revert h
  cases i <;> decide

theorem command_of_recon {i : Instr} (h : .recon ∈ plan i) : i = .reconstruct ∨ i = .decompress := by
  revert h
  cases i <;> decide

/-- A byte that no stage of the command may store is as before (R67, R73). -/
theorem runCommand_read {ks : List StageId} {s : State} (hwf : s.mem.wf = true) {a : Nat}
    (h : ∀ n, ∀ c ∈ commandStores (ks.map StageId.stage) { s with freeIx := n }, c.1 ≠ a) :
    (runCommand (ks.map StageId.stage) s).mem.read a = s.mem.read a := by
  obtain ⟨n, hst⟩ := storedFrom_runCommand ks s
  exact hst.read hwf a (h n)

/-- Settles O28: a store is ENCODE's or RECONSTRUCT's; alone they store their own bytes, in COMPRESS and
DECOMPRESS bytes of their buffers. -/
theorem commandMemoryFrame : Obligations.CommandMemoryFrame := by
  intro i s t a hwf hexec henc hrecon hcompress hdecompress hreset
  by_cases habort : i = .abort
  · subst habort
    rw [exec_abort] at hexec
    cases hexec
    split <;> rfl
  rw [exec_eq_runCommand habort hreset] at hexec
  cases hexec
  refine runCommand_read hwf fun n c hc hca => ?_
  subst hca
  obtain ⟨k, hk, u, hu, hstore⟩ := mem_commandStores hc
  have hsnap : u.snap = s.snap := hu.snap
  rcases stage_of_mem_pendingWrites hstore with rfl | rfl
  · rcases command_of_enc hk with rfl | rfl
    · obtain ⟨q, hq, hc⟩ := List.mem_flatMap.mp hc
      obtain rfl := stopPoints_singleton hq
      obtain ⟨hlo, hhi, _⟩ := mem_pendingWrites_enc hc
      exact (henc rfl).elim (Nat.not_lt.mpr hlo) (Nat.not_le.mpr hhi)
    · obtain ⟨hlo, hhi, hfit⟩ := mem_pendingWrites_enc hstore
      rw [hsnap] at hlo hhi hfit
      exact (hcompress rfl).elim (Nat.not_lt.mpr hlo)
        (Nat.not_le.mpr (hhi.trans_le (Nat.add_le_add_left hfit _)))
  · rcases command_of_recon hk with rfl | rfl
    · obtain ⟨q, hq, hc⟩ := List.mem_flatMap.mp hc
      obtain rfl := stopPoints_singleton hq
      obtain ⟨hlo, hhi, _⟩ := mem_pendingWrites_recon hc
      exact (hrecon rfl).elim (Nat.not_lt.mpr hlo) (Nat.not_le.mpr hhi)
    · obtain ⟨hlo, hhi, hfit⟩ := mem_pendingWrites_recon hstore
      rw [hsnap] at hlo hhi hfit
      exact (hdecompress rfl).elim (Nat.not_lt.mpr hlo)
        (Nat.not_le.mpr (hhi.trans_le (Nat.add_le_add_left hfit _)))

end Sys2Proof.Machine
end

section
/-! The ordered start checks (spec/60_exceptions.md R284): a list of checks fails with the code and the information word of
its first failing entry, and each command's list is its failure condition of Safety.lean. -/

namespace Sys2Proof.Machine

/-- The first failing check of the list has this error code and this information word (R281, R284). -/
def ChecksFail (cs : List (Bool × Err)) (c : BitVec 8) (i : Word) : Prop :=
  ∃ e, firstFailure cs = some e ∧ c = e.code.code ∧ i = e.info

theorem checksFail_cons {b : Bool} {e : Err} {cs : List (Bool × Err)} {c : BitVec 8} {i : Word} :
    ChecksFail ((b, e) :: cs) c i ↔ if b = true then c = e.code.code ∧ i = e.info else ChecksFail cs c i := by
  cases b <;> simp [ChecksFail, firstFailure]

theorem checksFail_nil {c : BitVec 8} {i : Word} : ChecksFail [] c i ↔ False := by
  simp [ChecksFail]

theorem checksFail_head {b : Bool} (hb : b = true) (e : Err) (cs : List (Bool × Err)) :
    ChecksFail ((b, e) :: cs) e.code.code e.info :=
  checksFail_cons.mpr (by rw [if_pos hb]; exact ⟨rfl, rfl⟩)

/-- A command of one stage whose checks fail completes with that error in the state the stage's start left. -/
theorem exec_single_checksFail {i : Instr} {k : StageId} (hplan : plan i = [k]) {s : State} (habort : s.pendingAbort = false)
    {c : BitVec 8} {w : Word} (h : ChecksFail (k.stage.checks (startStage k s)) c w) :
    exec i s = .next (completeWith c w (startStage k s)) := by
  obtain ⟨e, he, rfl, rfl⟩ := h
  exact exec_single_fails hplan habort he

/-- The information word of an IO_FAILURE with a size: the size, saturated (R281). -/
theorem eq_ioSize_info {n : Nat} {i : Word} : i = (Err.ioSize n).info ↔ i.toNat = min n 0xFFFFFFFF := by
  have hlt : min n 0xFFFFFFFF < 2 ^ 32 := (Nat.min_le_right n _).trans_lt (by decide)
  rw [← BitVec.toNat_inj]
  exact Eq.congr_right (ofNat32_toNat hlt)

/-! ## The lists -/

theorem satChecks_fail {s : State} {c : BitVec 8} {i : Word} :
    ChecksFail (satStage.checks s) c i ↔ satBuildFailure s c i := by
  simp only [satStage, imageChecks, imageRange, rangeCheck, badConfig, List.cons_append, List.nil_append,
    checksFail_cons, checksFail_nil, if_false_right, beq_iff_eq, decide_eq_true_eq]
  rfl

theorem regionHomogChecks_fail {s : State} {c : BitVec 8} {i : Word} :
    ChecksFail (regionHomogChecks s) c i ↔ regionHomogFailure s c i := by
  simp only [regionHomogChecks, imageChecks, imageRange, rangeCheck, badConfig, badQuery, List.cons_append,
    List.nil_append, checksFail_cons, checksFail_nil, if_false_right, beq_iff_eq, decide_eq_true_eq]
  rfl

theorem qtChecks_fail {s : State} {c : BitVec 8} {i : Word} :
    ChecksFail (qtChecks s) c i ↔ qtBuildFailure s c i := by
  simp only [qtChecks, rangeCheck, badConfig, badSequence, checksFail_cons, checksFail_nil, if_false_right, decide_eq_true_eq,
    Bool.not_eq_true']
  rfl

theorem regionAvgChecks_fail {s : State} {c : BitVec 8} {i : Word} :
    ChecksFail (regionAvgChecks s) c i ↔ regionAvgFailure s c i := by
  simp only [regionAvgChecks, badSequence, badQuery, checksFail_cons, checksFail_nil, if_false_right, decide_eq_true_eq,
    Bool.not_eq_true']
  rfl

theorem inspectSatChecks_fail {s : State} {c : BitVec 8} {i : Word} :
    ChecksFail (inspectSatChecks s) c i ↔ inspectSatFailure s c i := by
  simp only [inspectSatChecks, badSequence, badQuery, checksFail_cons, checksFail_nil, if_false_right, decide_eq_true_eq,
    Bool.not_eq_true']
  rfl

theorem inspectNodeChecks_fail {s : State} {c : BitVec 8} {i : Word} :
    ChecksFail (inspectNodeChecks s) c i ↔ inspectNodeFailure s c i := by
  simp only [inspectNodeChecks, badSequence, badQuery, checksFail_cons, checksFail_nil, if_false_right, decide_eq_true_eq,
    Bool.not_eq_true']
  rfl

theorem inspectSymChecks_fail {s : State} {c : BitVec 8} {i : Word} :
    ChecksFail (inspectSymChecks s) c i ↔ inspectSymFailure s c i := by
  simp only [inspectSymChecks, badSequence, badQuery, checksFail_cons, checksFail_nil, if_false_right, decide_eq_true_eq,
    Bool.and_eq_true, Bool.not_eq_true']
  rfl

/-- ENCODE's mask as a number (spec/43_bitstream.md R214). -/
theorem encodeMask_toNat (f : Valid) :
    f.encodeMask.toNat = (if f.treeV then 0 else 2) + (if f.codeV then 0 else 8) + (if f.treeDec then 16 else 0) := by
  unfold Valid.encodeMask
  cases f.treeV <;> cases f.codeV <;> cases f.treeDec <;> rfl

theorem encodeChecks_fail {s : State} {c : BitVec 8} {i : Word} :
    ChecksFail (encodeChecks s) c i ↔ encodeFailure s c i := by
  have hmask : s.valid.encodeMask ≠ 0 ↔ s.valid.treeV = false ∨ s.valid.codeV = false ∨ s.valid.treeDec = true := by
    rw [ne_eq, encodeMask_eq_zero, not_and_or, not_and_or, Bool.not_eq_true, Bool.not_eq_true, Bool.not_eq_false]
  simp only [encodeChecks, rangeCheck, badSequence, checksFail_cons, checksFail_nil, if_false_right, decide_eq_true_eq,
    bne_iff_ne, hmask, eq_ioSize_info, ← encodeMask_toNat, encodeFailure, BitVec.toNat_inj]
  rfl

theorem reconChecks_fail {s : State} {c : BitVec 8} {i : Word} :
    ChecksFail (reconChecks s) c i ↔ reconstructFailure s c i := by
  simp only [reconChecks, rangeCheck, badSequence, checksFail_cons, checksFail_nil, if_false_right, decide_eq_true_eq,
    Bool.not_eq_true', eq_ioSize_info]
  rfl

/-! ## The statements -/

/-- Settles O29: each list is the failure condition, and the stage's start is what is written besides. -/
theorem buildChecks : Obligations.BuildChecks := by
  intro s c i habort
  refine ⟨fun h => ?_, fun h => ?_, fun h => ?_⟩
  · exact exec_single_checksFail (k := .sat) rfl habort (satChecks_fail.mpr h)
  · exact exec_single_checksFail (k := .regionHomog) rfl habort (regionHomogChecks_fail.mpr h)
  · exact exec_single_checksFail (k := .qt) rfl habort (qtChecks_fail.mpr h)

/-- Settles O30: the query stages clear nothing at their start. -/
theorem queryChecks : Obligations.QueryChecks := by
  intro s c i habort
  refine ⟨fun h => ?_, fun h => ?_, fun h => ?_, fun h => ?_⟩
  · exact exec_single_checksFail (k := .regionAvg) rfl habort (regionAvgChecks_fail.mpr h)
  · exact exec_single_checksFail (k := .inspectSat) rfl habort (inspectSatChecks_fail.mpr h)
  · exact exec_single_checksFail (k := .inspectNode) rfl habort (inspectNodeChecks_fail.mpr h)
  · exact exec_single_checksFail (k := .inspectSym) rfl habort (inspectSymChecks_fail.mpr h)

/-- Settles O31: HUF_BUILD and DECODE have one check each. -/
theorem codecChecks : Obligations.CodecChecks := by
  intro s c i habort
  refine ⟨fun h => ?_, fun h => ?_, fun h => ?_, fun h => ?_⟩
  · have hfail : ChecksFail (hufStage.checks s) 5 0x04 := checksFail_head (congrArg Bool.not h) _ []
    exact exec_single_checksFail (k := .huf) rfl habort hfail
  · exact exec_single_checksFail (k := .enc) rfl habort (encodeChecks_fail.mpr h)
  · have hfail : ChecksFail (decStage.checks s) 1 s.snap.cntBase :=
      checksFail_head (decide_eq_true h) _ []
    exact exec_single_checksFail (k := .dec) rfl habort hfail
  · exact exec_single_checksFail (k := .recon) rfl habort (reconChecks_fail.mpr h)

end Sys2Proof.Machine
end

section
/-! SAT_BUILD's bus error, the exactness of the distance test, and INSPECT_SAT (spec/40_sat_region.md R130, R135, R145,
spec/20_memory.md R66). -/

namespace Sys2Proof.Machine

/-! ## A failing image -/

theorem mem_busErrors {p : Params} {k : AccessKind} {as : List Nat} {a : Nat} :
    a ∈ busErrors p k as ↔ a ∈ as ∧ p.busOK a k = false := by
  simp [busErrors]

/-- The scan of a whole image reads every byte of its buffer (spec/20_memory.md R61). -/
theorem mem_pixelAddrs_image {B W H a : Nat} (hlo : B ≤ a) (hhi : a < B + 3 * (W * H)) :
    a ∈ pixelAddrs B W ⟨0, 0, W, H⟩ := by
  have hpix : (a - B) / 3 < W * H := by omega
  have hW : 0 < W := Nat.pos_of_mul_pos_right ((Nat.zero_le _).trans_lt hpix)
  obtain ⟨px, py, hx, hy, haddr⟩ : ∃ px py, px < W ∧ py < H ∧ py * W + px = (a - B) / 3 :=
    ⟨(a - B) / 3 % W, (a - B) / 3 / W, Nat.mod_lt _ hW, Nat.div_lt_of_lt_mul hpix, Nat.div_add_mod' _ _⟩
  refine mem_pixelAddrs_iff.mpr ⟨px, py, inRect_iff.mpr (by simp only; omega), ?_, ?_⟩ <;> rw [pixAddr, haddr] <;> omega

/-- A failing byte of the image is one of the scan's bus errors (R66). -/
theorem imageErrors_ne_nil {p : Params} {o : Operands}
    (h : ¬busRange p .read o.pixBase.toNat (3 * (o.imgW.toNat * o.imgH.toNat))) :
    ∃ a as, busErrors p .read (imageAddrs o) = a :: as := by
  unfold busRange at h
  push Not at h
  obtain ⟨a, hlo, hhi, hbad⟩ := h
  exact List.exists_cons_of_ne_nil
    (List.ne_nil_of_mem (mem_busErrors.mpr ⟨mem_pixelAddrs_image hlo hhi, Bool.eq_false_iff.mpr hbad⟩))

/-- A bus error of the image's scan is at a byte of its buffer. -/
theorem mem_imageErrors {p : Params} {o : Operands} {a : Nat} (h : a ∈ busErrors p .read (imageAddrs o)) :
    o.pixBase.toNat ≤ a ∧ a < o.pixBase.toNat + 3 * (o.imgW.toNat * o.imgH.toNat) ∧ p.busOK a .read = false := by
  obtain ⟨hmem, hbad⟩ := mem_busErrors.mp h
  obtain ⟨hlo, hhi⟩ := mem_pixelAddrs (inside_rootRect o.imgW o.imgH) hmem
  exact ⟨hlo, hhi, hbad⟩

/-- Settles O34: the error names a candidate of the scan's bus errors, which the address space holds. -/
theorem satBuildBusError : Obligations.SatBuildBusError := by
  intro s habort hw hh hpix hrange hbus
  have hpass : firstFailure (satStage.checks s) = none := satChecks_pass.mpr ⟨⟨hw, hh, hpix⟩, hrange⟩
  obtain ⟨a, as, herr⟩ := imageErrors_ne_nil hbus
  obtain ⟨n, hn⟩ := choose_state a as (startStage .sat s)
  have hchosen := choose_mem a as (startStage .sat s)
  rw [← herr] at hchosen
  obtain ⟨hlo, hhi, hbad⟩ := mem_imageErrors hchosen
  have hbody : StageId.sat.stage.body (startStage .sat s) =
      .err (.io (choose a as (startStage .sat s)).1) { startStage .sat s with freeIx := n } := by
    have hscan : satBody (startStage .sat s) = failBus a as (startStage .sat s) := by
      simp only [satBody, startStage_par, startStage_snap, herr]
    rw [← hn]
    exact hscan
  have hword : (BitVec.ofNat 32 (choose a as (startStage .sat s)).1).toNat = (choose a as (startStage .sat s)).1 :=
    ofNat32_toNat (hhi.trans_le hrange)
  refine ⟨BitVec.ofNat 32 (choose a as (startStage .sat s)).1, n, exec_single_err (k := .sat) rfl habort hpass hbody, ?_⟩
  rw [hword]
  exact ⟨hlo, hhi, hbad⟩

/-! ## The distance test -/

/-- The squared distance over the reals. -/
theorem distSq_cast (p q : Color) :
    (distSq p q : ℝ) = ((p.r.toNat : ℝ) - q.r.toNat) ^ 2 + ((p.g.toNat : ℝ) - q.g.toNat) ^ 2 +
      ((p.b.toNat : ℝ) - q.b.toNat) ^ 2 := by
  simp only [distSq, sqDiff]
  push_cast
  ring

/-- Settles O37: squaring the bound `L·255/100` and multiplying by 10000 gives the integer test. -/
theorem homogDistance : Obligations.HomogDistance := by
  intro L p avg
  have hbound : (0 : ℝ) ≤ (L : ℝ) * 255 / 100 := by positivity
  have hcast : 10000 * distSq p avg ≤ 65025 * L * L ↔ (10000 : ℝ) * (distSq p avg : ℝ) ≤ 65025 * L * L := by
    exact_mod_cast Iff.rfl
  have hsquare : ((L : ℝ) * 255 / 100) ^ 2 = 65025 * L * L / 10000 := by ring
  rw [withinLoss, decide_eq_true_eq, ← distSq_cast, Real.sqrt_le_left hbound, hsquare, le_div_iff₀ (by norm_num), hcast,
    mul_comm (10000 : ℝ)]

/-! ## INSPECT_SAT -/

/-- When the start checks of INSPECT_SAT pass: there is a table and the cell lies in it (R145). -/
theorem inspectSatChecks_pass {s : State} :
    firstFailure (inspectSatChecks s) = none ↔
      s.valid.satV = true ∧ s.snap.qX.toNat < s.cnt.satW.toNat ∧ s.snap.qY.toNat < s.cnt.satH.toNat := by
  rw [firstFailure_eq_none]
  simp only [inspectSatChecks, badSequence, badQuery, List.mem_cons, List.not_mem_nil, or_false, forall_eq_or_imp,
    forall_eq, Bool.not_eq_false', decide_eq_false_iff_not, Nat.not_le]

/-- A word whose signed value is a natural number is that number's word. -/
theorem eq_ofNat_of_toInt {v : Word} {n : Nat} (h : v.toInt = n) : v = BitVec.ofNat 32 n := by
  rw [← BitVec.ofInt_toInt (x := v), h, BitVec.ofInt_natCast]

/-- Over a SAT of the image `f`, the results are the cell's inclusive sums (R131). -/
theorem inspectSatResults_of_satHolds {s : State} {f : Nat → Nat → Color}
    (hsat : SatHolds s.sat s.cnt.satW.toNat s.cnt.satH.toNat f) (hx : s.snap.qX.toNat < s.cnt.satW.toNat)
    (hy : s.snap.qY.toNat < s.cnt.satH.toNat) :
    inspectSatResults s =
      ⟨BitVec.ofNat 32 (prefixSum f (s.snap.qX.toNat + 1) (s.snap.qY.toNat + 1) .r),
       BitVec.ofNat 32 (prefixSum f (s.snap.qX.toNat + 1) (s.snap.qY.toNat + 1) .g),
       BitVec.ofNat 32 (prefixSum f (s.snap.qX.toNat + 1) (s.snap.qY.toNat + 1) .b), 0, 0, 0⟩ := by
  have hcell := fun c => eq_ofNat_of_toInt (hsat _ _ c hx hy)
  rw [← hcell .r, ← hcell .g, ← hcell .b]
  rfl

/-- Settles O38: the stored cell is the image's. -/
theorem inspectSatResult : Obligations.InspectSatResult := by
  intro s f habort hvalid hsat hx hy
  rw [← inspectSatResults_of_satHolds hsat hx hy]
  exact exec_single_ok (k := .inspectSat) rfl habort (inspectSatChecks_pass.mpr ⟨hvalid, hx, hy⟩) rfl

end Sys2Proof.Machine
end

section
/-! QT_BUILD beyond a capacity (spec/41_quadtree.md R167), every schedule of its workers (R170), and INSPECT_NODE (R175). -/

namespace Sys2Proof.Machine

/-! ## Capacity -/

/-- Where the sequential build does not fit, QT_BUILD's body fails with an error that it justifies (R167, R171). -/
theorem qtBody_err {s : State} (h : s.par.maxNodes < (qtBuild s).nodes.length ∨
      s.par.maxSymbols < (symbolTable (leafColors (qtBuild s).nodes)).length) :
    ∃ e p n, qtBody s = .err e { s with pool := p, freeIx := n } ∧ Justified s.par (qtBuild s) e := by
  rcases qtBody_spec s with ⟨_, _, _, _, _, _, _, hnodes, hsyms⟩ | herr
  · exact absurd h (not_or.mpr ⟨hnodes.not_gt, hsyms.not_gt⟩)
  · exact herr

/-- What QT_BUILD leaves when it fails: its tables emptied, its VALID bits cleared (R285). -/
theorem completeWith_qtFailed (s : State) (c : BitVec 8) (i : Word) (p : Option BuildRun) (n : Nat) :
    completeWith c i { startStage .qt s with pool := p, freeIx := n } = ({ s with
      nodes := []
      syms := []
      valid := ⟨s.valid.satV, false, false, false, false⟩
      freeIx := n }.ended 2 c i) := rfl

/-- Settles O40: without a bus error, the justified error is a limit that the policy's tree exceeds. -/
theorem qtBuildCapacity : Obligations.QtBuildCapacity := by
  intro s g ns es habort hdepth hmax hloss hvalid hsat hrange hbus hbuilt hsymbols hover
  have hpass : firstFailure (qtChecks s) = none := qtChecks_pass.mpr ⟨hdepth, hmax, hloss, hvalid, hrange⟩
  have hbad : (qtBuild s).bad = [] := qtBuild_bad_nil hbus
  have htree : (qtBuild s).nodes = ns := qtBuild_nodes_of_built hdepth hsat hbad hbuilt
  have htable : symbolTable (leafColors ns) = es := (symbolTable_spec _).unique hsymbols (List.Perm.refl _)
  have hstart : qtBuild (startStage .qt s) = qtBuild s := rfl
  obtain ⟨e, p, n, hbody, hjust⟩ := qtBody_err (s := startStage .qt s) (by rwa [hstart, htree, htable])
  rw [hstart, startStage_par] at hjust
  have hexec := exec_single_err (i := .qtBuild) (k := .qt) rfl habort hpass hbody
  rw [completeWith_qtFailed, hvalid] at hexec
  rcases hjust with ⟨rfl, hnodes⟩ | ⟨rfl, hsyms⟩ | ⟨a, ha, _⟩
  · exact ⟨1, n, hexec, .inl ⟨rfl, htree ▸ hnodes⟩⟩
  · exact ⟨2, n, hexec, .inr ⟨rfl, by rwa [htree, htable] at hsyms⟩⟩
  · rw [hbad] at ha
    exact absurd ha List.not_mem_nil

/-- Settles O57: a schedule long enough runs out of moves, and what it has come to is the sequential build or an error that
the build justifies. -/
theorem scheduleIndependence : Obligations.ScheduleIndependence := by
  rintro e root sched b o hlen rfl rfl
  obtain ⟨hsound, hmoves⟩ := (BuildRun.Sound.start e e.maxD root).follow sched
  have hended := hmoves ((BuildRun.remaining_start e e.maxD root).trans hlen)
  refine ⟨hended, ?_⟩
  rcases hsound.ended hended with ⟨hnone, hrecords, hbad, hfreq, hcount, hnodes, hsyms⟩ | ⟨err, hsome, hjust⟩
  · refine ⟨iff_of_true hnone ⟨hbad, hnodes, hsyms⟩, fun _ => ⟨hrecords, hfreq, hcount⟩, fun err herr => ?_⟩
    rw [hnone] at herr
    cases herr
  · have hnot : (BuildRun.follow e (BuildRun.start e.maxD root) sched).failure ≠ none := by
      rw [hsome]
      exact Option.some_ne_none err
    refine ⟨iff_of_false hnot fun ⟨hbad, hnodes, hsyms⟩ => not_justified_of_fits hbad hnodes hsyms err hjust,
      fun hnone => absurd hnone hnot, fun err' herr => ?_⟩
    cases hsome.symm.trans herr
    exact hjust

/-! ## Trees -/

/-- Settles O55: the tiling of the root rectangle, whose coordinates are below 2^32. -/
theorem leavesTile : Obligations.LeavesTile := by
  intro f w h ns hpre px py
  have hroot : inside (2 ^ 32 - 1) (2 ^ 32 - 1) (rootRect w h) := by
    have hw := w.isLt
    have hh := h.isLt
    simp only [inside, rootRect]
    omega
  rw [hpre.tiles hroot]
  simp only [inRect_iff, rootRect, Nat.zero_le, Nat.zero_add, true_and]

/-- Settles O56: the depths of the policy's tree, from depth 0. -/
theorem depthBounds : Obligations.DepthBounds := by
  intro minD maxD homog mean r ns hm hbuilt n hn
  exact (hbuilt.depths hm (Nat.zero_le maxD) n hn).2

/-! ## INSPECT_NODE -/

/-- When the start checks of INSPECT_NODE pass: there is a tree and the record is one of its own (R175). -/
theorem inspectNodeChecks_pass {s : State} :
    firstFailure (inspectNodeChecks s) = none ↔
      s.valid.treeV = true ∧ s.snap.qIndex.toNat < s.cnt.nodeCount.toNat := by
  rw [firstFailure_eq_none]
  simp only [inspectNodeChecks, badSequence, badQuery, List.mem_cons, List.not_mem_nil, or_false, forall_eq_or_imp,
    forall_eq, Bool.not_eq_false', decide_eq_false_iff_not, Nat.not_le]

/-- RES0 of INSPECT_NODE as a number: the depth above the kind (R175). -/
theorem nodeResults_res0 {n : NodeRec} (hd : n.depth ≤ 255) :
    (nodeResults n).res0 = BitVec.ofNat 32 (256 * n.depth + if n.leafColor?.isSome then 1 else 0) := by
  have hzero16 : (0 : BitVec 16).toNat = 0 := rfl
  have hzero7 : (0 : BitVec 7).toNat = 0 := rfl
  have hdepth : (BitVec.ofNat 8 n.depth).toNat = n.depth := by rw [BitVec.toNat_ofNat, Nat.mod_eq_of_lt (by omega)]
  have hbit := (BitVec.ofBool n.leafColor?.isSome).isLt
  apply BitVec.eq_of_toNat_eq
  simp only [nodeResults, toNat_append_fields, hzero16, hzero7, hdepth, flag_weight, BitVec.toNat_ofNat]
  omega

/-- The results of INSPECT_NODE, field by field (R175). -/
theorem nodeResults_eq {n : NodeRec} (hd : n.depth ≤ 255) :
    nodeResults n =
      { res0 := BitVec.ofNat 32 (256 * n.depth + if n.leafColor?.isSome then 1 else 0)
        res1 := n.x
        res2 := n.y
        res3 := n.w
        res4 := n.h
        res5 := match n.kind with
          | .leaf c => (c.pack).setWidth 32
          | .internal => 0 } := by
  rw [← nodeResults_res0 hd]
  cases hk : n.kind with
  | leaf c => simp only [nodeResults, hk, packWord_eq_setWidth]
  | internal => simp only [nodeResults, hk]

/-- INSPECT_NODE where its checks pass: it reads the record and writes the results alone (R175). -/
theorem exec_inspectNode_ok {s : State} (habort : s.pendingAbort = false)
    (hpass : firstFailure (inspectNodeChecks s) = none) :
    exec .inspectNode s = .next ({ s with res := nodeResults (s.nodeAt s.snap.qIndex.toNat) }.ended 7 0 0) :=
  exec_single_ok (k := .inspectNode) rfl habort hpass rfl

/-- Settles O41: the record at the index is the one listed there. -/
theorem inspectNodeResult : Obligations.InspectNodeResult := by
  intro s n habort hvalid hindex hnode hd
  have hrec : s.nodeAt s.snap.qIndex.toNat = n := by rw [State.nodeAt, List.getD_eq_getElem?_getD, hnode, Option.getD_some]
  rw [exec_inspectNode_ok habort (inspectNodeChecks_pass.mpr ⟨hvalid, hindex⟩), hrec]
  exact congrArg (fun r => Host.Outcome.next ({ s with res := r }.ended 7 0 0)) (nodeResults_eq hd)

end Sys2Proof.Machine
end

section
/-! HUF_BUILD and INSPECT_SYM (spec/42_huffman.md R190 to R196): the table with its codes, its longest code, and the code
words. -/

namespace Sys2Proof.Machine

/-! ## The table with its codes -/

/-- The codes depend on the frequencies alone, so clearing the old codes first changes nothing (R190). -/
theorem withCodes_of_cleared (es : List SymEntry) : withCodes (es.map fun e => { e with code := [] }) = withCodes es := by
  have hfreqs : symFreqs (es.map fun e => { e with code := [] }) = symFreqs es := List.map_map
  rw [withCodes, withCodes, hfreqs, List.zipWith_map_left]

theorem withCodes_colors (es : List SymEntry) : (withCodes es).map (·.color) = es.map (·.color) := by
  have h := congrArg (List.map SymEntry.color) (withCodes_clear es)
  rw [List.map_map, List.map_map] at h
  exact h

theorem withCodes_freq (es : List SymEntry) : (withCodes es).map (·.freq) = es.map (·.freq) := by
  have h := congrArg (List.map SymEntry.freq) (withCodes_clear es)
  rw [List.map_map, List.map_map] at h
  exact h

/-- The longest code length is 0 or some entry's. -/
theorem maxCodeLen_attained (es : List SymEntry) : maxCodeLen es = 0 ∨ ∃ e ∈ es, e.code.length = maxCodeLen es := by
  have key : ∀ (es : List SymEntry) (m : Nat), es.foldl (fun m e => max m e.code.length) m = m ∨
      ∃ e ∈ es, e.code.length = es.foldl (fun m e => max m e.code.length) m := by
    intro es
    induction es with
    | nil => exact fun m => .inl rfl
    | cons x es ih =>
      intro m
      rw [List.foldl_cons]
      rcases ih (max m x.code.length) with hmax | ⟨e, he, hlen⟩
      · rw [hmax]
        exact (Nat.le_total x.code.length m).imp Nat.max_eq_left fun h => ⟨x, List.mem_cons_self, (Nat.max_eq_right h).symm⟩
      · exact .inr ⟨e, List.mem_cons_of_mem x he, hlen⟩
  exact key es 0

/-- The table's longest code is within a limit exactly where every code is (R194). -/
theorem maxCodeLen_withCodes_le {es : List SymEntry} {n : Nat} :
    maxCodeLen (withCodes es) ≤ n ↔ ∀ c ∈ hufCodes (symFreqs es), c.length ≤ n := by
  rw [← withCodes_codes, List.forall_mem_map]
  refine ⟨fun h e he => (le_maxCodeLen he).trans h, fun h => ?_⟩
  rcases maxCodeLen_attained (withCodes es) with hzero | ⟨e, he, hlen⟩
  · rw [hzero]
    exact Nat.zero_le n
  · rw [← hlen]
    exact h e he

/-! ## HUF_BUILD -/

/-- The check of HUF_BUILD passes with frequencies (R190). -/
theorem hufChecks_pass {s : State} : firstFailure (hufStage.checks s) = none ↔ s.valid.freqV = true := by
  rw [firstFailure_eq_none]
  simp only [hufStage, badSequence, List.forall_mem_singleton, Bool.not_eq_false']

/-- What HUF_BUILD leaves at its success: the table with its codes, the results, CODE_V and the completion (R190). -/
theorem completeWith_hufDone (s : State) :
    completeWith 0 0 (hufDone (startStage .huf s)) = ({ s with
      syms := withCodes s.syms
      res := ⟨BitVec.ofNat 32 (maxCodeLen (withCodes s.syms)), BitVec.ofNat 32 (codeBits (withCodes s.syms)),
        s.cnt.symCount, 0, 0, 0⟩
      valid := { s.valid with codeV := true } }.ended 3 0 0) := by
  simp only [hufDone, startStage_huf_syms, withCodes_of_cleared]
  rfl

/-- HUF_BUILD with frequencies and codes within P_MAX_CODE_LEN (R190). -/
theorem exec_hufBuild_ok {s : State} (habort : s.pendingAbort = false) (hfreq : s.valid.freqV = true)
    (hfit : ∀ c ∈ hufCodes (symFreqs s.syms), c.length ≤ s.par.maxCodeLen) :
    exec .hufBuild s = .next (completeWith 0 0 (hufDone (startStage .huf s))) := by
  refine exec_single_ok (k := .huf) rfl habort (hufChecks_pass.mpr hfreq) (if_neg (Nat.not_lt.mpr ?_))
  rw [startStage_huf_syms, withCodes_of_cleared]
  exact maxCodeLen_withCodes_le.mpr hfit

/-- Settles O42: the table is that of the codes, and its longest code is some entry's. -/
theorem hufBuildResult : Obligations.HufBuildResult := by
  intro s habort hfreq hcount hfit
  have hsyms : BitVec.ofNat 32 s.syms.length = s.cnt.symCount := by
    rw [hcount, BitVec.ofNat_toNat, BitVec.setWidth_eq]
  refine ⟨withCodes s.syms, withCodes_colors _, withCodes_freq _, withCodes_codes _, maxCodeLen (withCodes s.syms),
    fun e he => le_maxCodeLen he, maxCodeLen_attained _, ?_⟩
  rw [exec_hufBuild_ok habort hfreq hfit, completeWith_hufDone, hsyms]
  rfl

/-- Settles O43: the longest code is beyond the limit, and the stage's start has cleared the codes. -/
theorem hufBuildCapacity : Obligations.HufBuildCapacity := by
  intro s habort hfreq hlong
  refine exec_single_err (k := .huf) rfl habort (hufChecks_pass.mpr hfreq) (if_pos ?_)
  rw [startStage_huf_syms, withCodes_of_cleared, ← Nat.not_le]
  intro hle
  obtain ⟨c, hc, hlen⟩ := hlong
  exact absurd (maxCodeLen_withCodes_le.mp hle c hc) hlen.not_ge

/-- Settles O44: the codes are the paths of a work tree that has each symbol at one leaf. -/
theorem huffmanCodes : Obligations.HuffmanCodes := by
  intro fs
  refine ⟨hufCodes_length fs, fun c hc => List.length_pos_of_ne_nil (hufCodes_ne_nil hc), hufCodes_prefixFree fs,
    hufCodes_kraft, fun h => ?_⟩
  rw [hufCodes, if_pos h]

/-! ## INSPECT_SYM -/

/-- The number whose binary digits are `f 0`, `f 1`, …, `f (n − 1)`, the first one the highest. -/
theorem testBit_sum_weights (f : Nat → Bool) (n k : Nat) :
    ((List.range n).map fun j => if f j then 2 ^ (n - 1 - j) else 0).sum.testBit k =
      (decide (k < n) && f (n - 1 - k)) := by
  induction n generalizing k with
  | zero => simp
  | succ n ih =>
    have hdouble : ((List.range n).map fun j => if f j then 2 ^ (n + 1 - 1 - j) else 0).sum =
        2 * ((List.range n).map fun j => if f j then 2 ^ (n - 1 - j) else 0).sum := by
      rw [← List.sum_map_mul_left]
      refine congrArg List.sum (List.map_congr_left fun j hj => ?_)
      have hj : n + 1 - 1 - j = n - 1 - j + 1 := by
        have := List.mem_range.mp hj
        omega
      cases f j
      · rfl
      · rw [if_pos rfl, if_pos rfl, hj, Nat.pow_succ, Nat.mul_comm]
    have hlast : (if f n then 2 ^ (n + 1 - 1 - n) else 0) = (f n).toNat := by
      cases f n <;> simp
    rw [List.range_succ, List.map_append, List.sum_append, hdouble, List.map_singleton, List.sum_singleton, hlast,
      ← Nat.bit_val]
    cases k with
    | zero => simp
    | succ k =>
      rw [Nat.testBit_bit_succ, ih]
      have : n - 1 - k = n + 1 - 1 - (k + 1) := by omega
      simp [this]

/-- Bit `31 − j` of a code word is bit `start + j` of the code (R196). -/
theorem codeWord_getLsbD (code : List Bool) (start : Nat) {j : Nat} (hj : j < 32) :
    (codeWord code start).getLsbD (31 - j) = code.getD (start + j) false := by
  have hbits := testBit_sum_weights (fun j => code.getD (start + j) false) 32 (31 - j)
  have hlt : 31 - j < 32 := by omega
  have hback : 32 - 1 - (31 - j) = j := by omega
  rw [hback, decide_eq_true hlt, Bool.true_and] at hbits
  rw [codeWord, BitVec.getLsbD_ofNat, decide_eq_true hlt, Bool.true_and]
  exact hbits

/-- When the start checks of INSPECT_SYM pass: there is a table and the entry is one of its own (R196). -/
theorem inspectSymChecks_pass {s : State} :
    firstFailure (inspectSymChecks s) = none ↔
      (s.valid.freqV = true ∨ s.valid.codeV = true) ∧ s.snap.qIndex.toNat < s.cnt.symCount.toNat := by
  rw [firstFailure_eq_none]
  simp only [inspectSymChecks, badSequence, badQuery, List.mem_cons, List.not_mem_nil, or_false, forall_eq_or_imp,
    forall_eq, Bool.and_eq_false_iff, Bool.not_eq_false', decide_eq_false_iff_not, Nat.not_le]

/-- INSPECT_SYM where its checks pass: it reads the entry and writes the results alone (R196). -/
theorem exec_inspectSym_ok {s : State} (habort : s.pendingAbort = false)
    (hpass : firstFailure (inspectSymChecks s) = none) :
    exec .inspectSym s = .next ({ s with
      res := symResults s.valid.codeV (s.symAt s.snap.qIndex.toNat) }.ended 7 0 0) :=
  exec_single_ok (k := .inspectSym) rfl habort hpass rfl

/-- Settles O45: the two code words hold the first 64 bits of the code that is shown, which is empty without CODE_V. -/
theorem inspectSymResult : Obligations.InspectSymResult := by
  intro s e habort hvalid hindex hsym
  have hentry : s.symAt s.snap.qIndex.toNat = e := by rw [State.symAt, List.getD_eq_getElem?_getD, hsym, Option.getD_some]
  rw [exec_inspectSym_ok habort (inspectSymChecks_pass.mpr ⟨hvalid, hindex⟩), hentry, symResults, packWord_eq_setWidth]
  cases s.valid.codeV with
  | true =>
    refine ⟨_, _, rfl, fun j hj => ⟨?_, ?_⟩⟩
    · rw [codeWord_getLsbD _ _ hj, Nat.zero_add]
      rfl
    · rw [codeWord_getLsbD _ _ hj]
      rfl
  | false => exact ⟨_, _, rfl, fun j hj => ⟨codeWord_getLsbD [] 0 hj, codeWord_getLsbD [] 32 hj⟩⟩

end Sys2Proof.Machine
end

section
/-! The container's sizes (spec/30_encoding.md R106) and DECODE's success (spec/43_bitstream.md R220, R226). -/

namespace Sys2Proof.Laws.ContainerSize

open Sys2Proof.Machine

/-- The payload has one bit per node, and per leaf its code's bits besides (R106). -/
theorem payload_length_eq (es : List SymEntry) (ns : List NodeRec) :
    (payload es ns).length = ns.length + ((leafColors ns).map fun c => (codeFor es c).length).sum := by
  induction ns with
  | nil => rfl
  | cons n ns ih =>
    rw [payload, List.flatMap_cons, List.length_append, ← payload, ih]
    cases hk : n.kind with
    | internal =>
      have hcolor : n.leafColor? = none := by simp only [NodeRec.leafColor?, hk]
      have hcolors : leafColors (n :: ns) = leafColors ns := List.filterMap_cons_none hcolor
      rw [hcolors, List.length_cons]
      simp only [nodeBits, hk, List.length_singleton]
      omega
    | leaf c =>
      have hcolor : n.leafColor? = some c := by simp only [NodeRec.leafColor?, hk]
      have hcolors : leafColors (n :: ns) = c :: leafColors ns := List.filterMap_cons_some hcolor
      rw [hcolors, List.length_cons, List.map_cons, List.sum_cons]
      simp only [nodeBits, hk, List.length_cons]
      omega

/-- Settles O47: the length is the sum of the fields' lengths. -/
theorem containerSize : Obligations.ContainerSize :=
  fun w h n es ns => ⟨container_length w h n es ns, payload_length_eq es ns⟩

end Sys2Proof.Laws.ContainerSize

namespace Sys2Proof.Machine

/-! ## Reading what stands in memory -/

/-- A byte of the container that answers is read as it stands in memory (spec/43_bitstream.md R211). -/
theorem byteAt_ok {e : DecEnv} {k : Nat} (hk : k < e.len) (hbus : e.par.busOK (e.base + k) .read = true) :
    e.byteAt k = .ok (e.mem.read (e.base + k)) := by
  rw [DecEnv.byteAt, if_neg (Nat.not_le.mpr hk), if_pos hbus]

/-- A byte past the container's end is MALFORMED at its end (R211). -/
theorem byteAt_past {e : DecEnv} {k : Nat} (hk : e.len ≤ k) : e.byteAt k = .error (.malformed e.len) := if_pos hk

/-- Bytes that stand in memory inside the container, and answer, are read from it. -/
theorem reads_of_mem {e : DecEnv} {off : Nat} {bs : List Byte} (hlen : off + bs.length ≤ e.len)
    (hbus : ∀ k, k < bs.length → e.par.busOK (e.base + (off + k)) .read = true)
    (hmem : ∀ k (hk : k < bs.length), e.mem.read (e.base + (off + k)) = bs[k]) : Reads e off bs := by
  intro k hk
  rw [byteAt_ok (by omega) (hbus k hk), hmem k hk]

/-! ## DECODE -/

/-- The check of DECODE passes where the container buffer stays in the address space (R220). -/
theorem decChecks_pass {s : State} :
    firstFailure (decStage.checks s) = none ↔ s.snap.cntBase.toNat + s.snap.cntLen.toNat ≤ addressSpace := by
  rw [firstFailure_eq_none]
  simp only [decStage, rangeCheck, List.forall_mem_singleton, decide_eq_false_iff_not, Nat.not_lt]

theorem decEnv_startStage (s : State) : decEnv (startStage .dec s) = decEnv s := rfl

/-- DECODE where its check passes and the parse succeeds (R220). -/
theorem exec_decode_ok {s : State} {d : Decoded} (habort : s.pendingAbort = false)
    (hrange : s.snap.cntBase.toNat + s.snap.cntLen.toNat ≤ addressSpace) (hd : (decEnv s).decodeAll = .ok d) :
    exec .decode s = .next (completeWith 0 0 (decodeDone d (startStage .dec s))) := by
  have hbody : decodeBody (startStage .dec s) = .ok (decodeDone d (startStage .dec s)) := by
    rw [decodeBody, decEnv_startStage, hd]
  exact exec_single_ok (k := .dec) rfl habort (decChecks_pass.mpr hrange) hbody

/-- What DECODE leaves at its success: the tables, the counts and sizes, its VALID bits and the completion (R226). -/
theorem completeWith_decodeDone (s : State) (d : Decoded) :
    completeWith 0 0 (decodeDone d (startStage .dec s)) = ({ s with
      nodes := d.nodes
      syms := d.syms
      cnt := { s.cnt with
        nodeCount := BitVec.ofNat 32 d.nodes.length
        leafCount := BitVec.ofNat 32 (leafColors d.nodes).length
        symCount := BitVec.ofNat 32 d.syms.length
        treeW := d.w
        treeH := d.h
        outLen := BitVec.ofNat 32 (ceil8 d.pos)
        payloadBits := BitVec.ofNat 32 (d.pos - d.start) }
      valid := ⟨s.valid.satV, true, false, true, true⟩ }.ended 5 0 0) := rfl

/-- The container's size, with its entries' bytes counted together (R106). -/
theorem containerSize_eq (es : List SymEntry) (ns : List NodeRec) :
    containerSize es ns = 12 + (es.flatMap entryBytes).length + ceil8 (payloadLength es ns) := by
  rw [containerSize, List.length_flatMap]
  simp only [entryBytes_length]

/-- A cursor that ends the payload has consumed the whole container (R226). -/
theorem ceil8_payload_end (es : List SymEntry) (ns : List NodeRec) :
    ceil8 (8 * (12 + (es.flatMap entryBytes).length) + payloadLength es ns) = containerSize es ns := by
  rw [containerSize_eq, ceil8, ceil8]
  omega

/-- Settles O48: the container's bytes are read from memory, and parsing them gives the tree and the codes back. -/
theorem decodeResult : Obligations.DecodeResult := by
  intro s w h es ns paths habort hwf hrange hfits hbus hbytes hw hh hsyms htree hnodes hcodes hroot hpaths hfree hcolors
  obtain ⟨_, _, _, hsymbols, hlen, _, _⟩ := Params.bounds hwf
  have hsize := container_length w h (BitVec.ofNat 32 es.length) es ns
  have hreads : Reads (decEnv s) 0 (container w h (BitVec.ofNat 32 es.length) es ns) := by
    refine reads_of_mem (by rwa [Nat.zero_add, hsize]) (fun k hk => ?_) (fun k hk => ?_)
    · rw [Nat.zero_add]
      exact hbus _ (Nat.le_add_right _ k) (Nat.add_lt_add_left (hsize ▸ hk) _)
    · rw [Nat.zero_add]
      exact hbytes k hk
  obtain ⟨trie, hall⟩ := decodeAll_ok hreads hfits hw hh (by omega) hsyms htree hnodes
    (fun x hx => by
      obtain ⟨hpos, hle, hpre⟩ := hcodes x hx
      exact ⟨hpos, hle, by omega, hpre⟩)
    hpaths hroot hfree hcolors
  rw [exec_decode_ok habort hrange hall, completeWith_decodeDone, ceil8_payload_end, payload_length, List.length_map,
    Nat.add_sub_cancel_left]
  rfl

/-! ## DECODE's header -/

/-- A word of a container that answers, whole or cut off by the container's end (R211, R221). -/
theorem wordAt_eq {e : DecEnv} {off : Nat} {v : Word} (hlen : off ≤ e.len)
    (hbus : ∀ k, k < 4 → off + k < e.len → e.par.busOK (e.base + (off + k)) .read = true)
    (hmem : ∀ k, k < 4 → e.mem.read (e.base + (off + k)) = (s32be v).getD k 0) :
    e.wordAt off = if e.len < off + 4 then .error (.malformed e.len) else .ok v := by
  have hok : ∀ k, k < 4 → off + k < e.len → ∃ b, e.byteAt (off + k) = .ok b := fun k hk hin =>
    ⟨_, byteAt_ok hin (hbus k hk hin)⟩
  split_ifs with hshort
  · obtain hcut | hcut | hcut | hcut :
        e.len = off ∨ e.len = off + 1 ∨ e.len = off + 2 ∨ e.len = off + 3 := by omega
    · have hend : e.byteAt off = .error (.malformed e.len) := byteAt_past (by omega)
      simp only [DecEnv.wordAt, hend, bind, Except.bind]
    · obtain ⟨b0, h0⟩ := hok 0 (by decide) (by omega)
      have hend : e.byteAt (off + 1) = .error (.malformed e.len) := byteAt_past (by omega)
      rw [Nat.add_zero] at h0
      simp only [DecEnv.wordAt, h0, hend, bind, Except.bind]
    · obtain ⟨b0, h0⟩ := hok 0 (by decide) (by omega)
      obtain ⟨b1, h1⟩ := hok 1 (by decide) (by omega)
      have hend : e.byteAt (off + 2) = .error (.malformed e.len) := byteAt_past (by omega)
      rw [Nat.add_zero] at h0
      simp only [DecEnv.wordAt, h0, h1, hend, bind, Except.bind]
    · obtain ⟨b0, h0⟩ := hok 0 (by decide) (by omega)
      obtain ⟨b1, h1⟩ := hok 1 (by decide) (by omega)
      obtain ⟨b2, h2⟩ := hok 2 (by decide) (by omega)
      have hend : e.byteAt (off + 3) = .error (.malformed e.len) := byteAt_past (by omega)
      rw [Nat.add_zero] at h0
      simp only [DecEnv.wordAt, h0, h1, h2, hend, bind, Except.bind]
  · refine wordAt_ok (reads_of_mem (by rw [s32be_length]; omega) (fun k hk => ?_) (fun k hk => ?_))
    · rw [s32be_length] at hk
      exact hbus k hk (by omega)
    · rw [hmem k (by rwa [s32be_length] at hk), List.getD_eq_getElem _ _ hk]

/-- The header's checks, in their order, fail with the error of the first clause that holds (R221, R223). -/
theorem parseHeader_fails {s : State} {w h n : Word} {c : BitVec 8} {i : Word}
    (h0 : (decEnv s).wordAt 0 = if s.snap.cntLen.toNat < 4 then .error (.malformed s.snap.cntLen.toNat) else .ok w)
    (h4 : 4 ≤ s.snap.cntLen.toNat →
      (decEnv s).wordAt 4 = if s.snap.cntLen.toNat < 8 then .error (.malformed s.snap.cntLen.toNat) else .ok h)
    (h8 : 8 ≤ s.snap.cntLen.toNat →
      (decEnv s).wordAt 8 = if s.snap.cntLen.toNat < 12 then .error (.malformed s.snap.cntLen.toNat) else .ok n)
    (hfail : headerFailure s w h n c i) :
    ∃ e : Err, (decEnv s).parseHeader = .error (.err e) ∧ c = e.code.code ∧ i = e.info := by
  have hend : s.snap.cntLen = (Err.malformed s.snap.cntLen.toNat).info := by
    rw [Err.malformed, BitVec.ofNat_toNat, BitVec.setWidth_eq]
  have hpar : (decEnv s).par = s.par := rfl
  unfold headerFailure at hfail
  rw [DecEnv.parseHeader, h0]
  by_cases hlen4 : s.snap.cntLen.toNat < 4
  · rw [if_pos hlen4] at hfail
    rw [if_pos hlen4]
    exact ⟨_, rfl, hfail.1, hfail.2.trans hend⟩
  rw [if_neg hlen4] at hfail
  rw [if_neg hlen4, h4 (Nat.not_lt.mp hlen4)]
  simp only [bind, Except.bind]
  by_cases hw : w.toInt ≤ 0
  · rw [if_pos hw] at hfail
    rw [if_pos hw]
    exact ⟨_, rfl, hfail.1, hfail.2⟩
  rw [if_neg hw] at hfail
  rw [if_neg hw]
  by_cases hlen8 : s.snap.cntLen.toNat < 8
  · rw [if_pos hlen8] at hfail
    rw [if_pos hlen8]
    exact ⟨_, rfl, hfail.1, hfail.2.trans hend⟩
  rw [if_neg hlen8] at hfail
  rw [if_neg hlen8, h8 (Nat.not_lt.mp hlen8)]
  simp only
  by_cases hh : h.toInt ≤ 0
  · rw [if_pos hh] at hfail
    rw [if_pos hh]
    exact ⟨_, rfl, hfail.1, hfail.2⟩
  rw [if_neg hh] at hfail
  rw [if_neg hh]
  by_cases hlen12 : s.snap.cntLen.toNat < 12
  · rw [if_pos hlen12] at hfail
    rw [if_pos hlen12]
    exact ⟨_, rfl, hfail.1, hfail.2.trans hend⟩
  rw [if_neg hlen12] at hfail
  rw [if_neg hlen12]
  simp only
  by_cases hn : n.toInt < 0
  · rw [if_pos hn] at hfail
    rw [if_pos hn]
    exact ⟨_, rfl, hfail.1, hfail.2⟩
  rw [if_neg hn] at hfail
  obtain ⟨hmax, hc, hi⟩ := hfail
  rw [if_neg hn, hpar, if_pos hmax]
  exact ⟨_, rfl, hc, hi⟩

/-- DECODE where its check passes and the header's parse fails (R221, R223). -/
theorem exec_decode_headerFails {s : State} {e : Err} (habort : s.pendingAbort = false)
    (hrange : s.snap.cntBase.toNat + s.snap.cntLen.toNat ≤ addressSpace)
    (hfail : (decEnv s).parseHeader = .error (.err e)) :
    exec .decode s = .next (completeWith e.code.code e.info (startStage .dec s)) := by
  have hall : (decEnv s).decodeAll = .error (.err e) := by
    rw [DecEnv.decodeAll, hfail]
    rfl
  have hbody : decodeBody (startStage .dec s) = .err e (startStage .dec s) := by
    rw [decodeBody, decEnv_startStage, hall]
  exact exec_single_err (k := .dec) rfl habort (decChecks_pass.mpr hrange) hbody

/-- Settles O49: the header's three words are read in order, each where the container is long enough for it. -/
theorem decodeHeaderErrors : Obligations.DecodeHeaderErrors := by
  intro s w h n c i habort hrange hbus hmem hfail
  have hanswers : ∀ k, k < 12 → k < s.snap.cntLen.toNat → s.par.busOK (s.snap.cntBase.toNat + k) .read = true := by
    intro k hk hin
    refine hbus _ (Nat.le_add_right _ k) ?_
    omega
  have h0 := wordAt_eq (e := decEnv s) (off := 0) (v := w) (Nat.zero_le _)
    (fun k hk => hanswers (0 + k) (by omega)) (fun k hk => by rw [Nat.zero_add]; exact (hmem k hk).1)
  have h4 := fun hlen => wordAt_eq (e := decEnv s) (off := 4) (v := h) hlen
    (fun k hk => hanswers (4 + k) (by omega)) (fun k hk => by rw [← Nat.add_assoc]; exact (hmem k hk).2.1)
  have h8 := fun hlen => wordAt_eq (e := decEnv s) (off := 8) (v := n) hlen
    (fun k hk => hanswers (8 + k) (by omega)) (fun k hk => by rw [← Nat.add_assoc]; exact (hmem k hk).2.2)
  obtain ⟨e, he, rfl, rfl⟩ := parseHeader_fails h0 h4 h8 hfail
  exact exec_decode_headerFails habort hrange he

end Sys2Proof.Machine
end

section
/-! Commands of several stages, once: such a command is its first stage's command and then the command of the rest
(spec/44_reconstruct_control.md R260, R261). -/

namespace Sys2Proof.Machine

/-! ## One stage after another -/

/-- A command whose first stage fails ends as that stage's command does. -/
theorem runCommand_cons_of_failure {k : StageId} (ks : List StageId) {s : State} (habort : s.pendingAbort = false)
    (herr : (runCommand ([k].map StageId.stage) s).status.errCode ≠ 0) :
    runCommand ((k :: ks).map StageId.stage) s = runCommand ([k].map StageId.stage) s := by
  obtain ⟨e, t, hrun, hstage⟩ := runStages_err_of_failure habort herr
  rw [List.map_singleton, runStages_singleton] at hstage
  rw [hrun]
  refine runCommand_err habort ?_
  rw [List.map_cons, runStages_cons, hstage]

/-- A command whose first stage succeeds goes on as the command of the other stages, from where the first one's ended. -/
theorem runCommand_cons_of_success {k : StageId} (ks : List StageId) {s : State} (habort : s.pendingAbort = false)
    (hok : (runCommand ([k].map StageId.stage) s).status.errCode = 0) :
    runCommand ((k :: ks).map StageId.stage) s =
      runCommand (ks.map StageId.stage) (runCommand ([k].map StageId.stage) s) := by
  obtain ⟨t, hrun, hstage⟩ := runStages_ok_of_success hok
  have hkept := kept_runStages [k] s
  rw [hstage] at hkept
  have ht : t.pendingAbort = false := hkept.pendingAbort.trans habort
  rw [List.map_singleton, runStages_singleton] at hstage
  rw [hrun, runCommand_completeWith ks 0 0 ht, runCommand_of_not_pending habort, runCommand_of_not_pending ht,
    List.map_cons, runStages_cons, hstage]

/-- A command of stages that completes leaves no abort pending (R288). -/
theorem runCommand_pendingAbort (ks : List StageId) (s : State) :
    (runCommand (ks.map StageId.stage) s).pendingAbort = false := by
  obtain ⟨c, i, t, hrun, _⟩ := runCommand_spec ks s
  rw [hrun, completeWith_pendingAbort]

/-- What a command of stages that is no ABORT and no SOFT_RESET ends in. -/
theorem next_eq_runCommand {i : Instr} {ks : List StageId} (hplan : plan i = ks) (habort : i ≠ .abort)
    (hreset : i ≠ .softReset) {s t : State} (h : exec i s = .next t) : t = runCommand (ks.map StageId.stage) s := by
  rw [exec_eq_runCommand habort hreset, hplan] at h
  exact (Host.Outcome.next.inj h).symm

/-! ## COMPRESS and DECOMPRESS -/

/-- Settles O51: each stage's command is peeled off the front in turn. -/
theorem compressIsItsStages : Obligations.CompressIsItsStages := by
  intro s s1 habort h1
  obtain rfl := next_eq_runCommand (ks := [.sat]) rfl (by decide) (by decide) h1
  rw [exec_eq_runCommand (i := .compress) (by decide) (by decide)]
  have hplan : plan .compress = [.sat, .qt, .huf, .enc] := rfl
  rw [hplan]
  refine ⟨fun herr => by rw [runCommand_cons_of_failure _ habort herr], fun s2 hok1 h2 => ?_⟩
  have ha1 := runCommand_pendingAbort [.sat] s
  obtain rfl := next_eq_runCommand (ks := [.qt]) rfl (by decide) (by decide) h2
  rw [runCommand_cons_of_success [.qt, .huf, .enc] habort hok1]
  refine ⟨fun herr => by rw [runCommand_cons_of_failure _ ha1 herr], fun s3 hok2 h3 => ?_⟩
  have ha2 := runCommand_pendingAbort [.qt] (runCommand ([.sat].map StageId.stage) s)
  obtain rfl := next_eq_runCommand (ks := [.huf]) rfl (by decide) (by decide) h3
  rw [runCommand_cons_of_success [.huf, .enc] ha1 hok2]
  refine ⟨fun herr => by rw [runCommand_cons_of_failure _ ha2 herr], fun s4 hok3 h4 => ?_⟩
  obtain rfl := next_eq_runCommand (ks := [.enc]) rfl (by decide) (by decide) h4
  rw [runCommand_cons_of_success [.enc] ha2 hok3]

/-- A DECODE that fails and is not aborted stores nothing (R261). -/
theorem runCommand_dec_mem {s : State} (habort : s.pendingAbort = false)
    (herr : (runCommand ([.dec].map StageId.stage) s).status.errCode ≠ 0) :
    (runCommand ([.dec].map StageId.stage) s).mem = s.mem := by
  obtain ⟨e, t, hrun, hstage⟩ := runStages_err_of_failure habort herr
  rw [List.map_singleton, runStages_singleton] at hstage
  rw [hrun, completeWith_mem]
  rcases runStage_cases .dec s with ⟨e', _, hfail⟩ | ⟨_, hbody⟩
  · cases hfail.symm.trans hstage
    exact startStage_mem .dec s
  · obtain ⟨p, n, rfl⟩ := body_err_state (hbody.symm.trans hstage)
    exact startStage_mem .dec s

/-- Settles O53, as O51; a failing DECODE stores nothing. -/
theorem decompressIsItsStages : Obligations.DecompressIsItsStages := by
  intro s s1 habort h1
  obtain rfl := next_eq_runCommand (ks := [.dec]) rfl (by decide) (by decide) h1
  rw [exec_eq_runCommand (i := .decompress) (by decide) (by decide)]
  have hplan : plan .decompress = [.dec, .recon] := rfl
  rw [hplan]
  refine ⟨fun herr => ⟨by rw [runCommand_cons_of_failure _ habort herr], runCommand_dec_mem habort herr⟩,
    fun s2 hok h2 => ?_⟩
  obtain rfl := next_eq_runCommand (ks := [.recon]) rfl (by decide) (by decide) h2
  rw [runCommand_cons_of_success [.recon] habort hok]

/-! ## What a stage leaves for the next one -/

/-- The state in which DECODE leaves the machine at its success (spec/43_bitstream.md R220, R226). -/
def State.decoded (s : State) (w h : Word) (es : List SymEntry) (ns : List NodeRec) : State :=
  { s with
    nodes := ns
    syms := es.map (fun (e : SymEntry) => { e with freq := 0 })
    cnt := { s.cnt with
      nodeCount := BitVec.ofNat 32 ns.length
      leafCount := BitVec.ofNat 32 (leafColors ns).length
      symCount := BitVec.ofNat 32 es.length
      treeW := w
      treeH := h
      outLen := BitVec.ofNat 32 (containerSize es ns)
      payloadBits := BitVec.ofNat 32 (payload es ns).length }
    valid := ⟨s.valid.satV, true, false, true, true⟩ }.ended 5 0 0

/-- The state in which SAT_BUILD leaves the machine at its success (spec/40_sat_region.md R130). -/
def State.satBuilt (s : State) (st : List SatCell) : State :=
  { s with
    sat := st
    cnt := { s.cnt with satW := s.snap.imgW, satH := s.snap.imgH }
    valid := { s.valid with satV := true } }.ended 1 0 0

/-- The state in which QT_BUILD leaves the machine at its success (spec/41_quadtree.md R161). -/
def State.qtBuilt (s : State) (ns : List NodeRec) (es : List SymEntry) (n : Nat) : State :=
  { s with
    nodes := ns
    syms := es
    cnt := { s.cnt with
      nodeCount := BitVec.ofNat 32 ns.length
      leafCount := BitVec.ofNat 32 (leafColors ns).length
      symCount := BitVec.ofNat 32 es.length
      treeW := s.cnt.satW
      treeH := s.cnt.satH }
    valid := ⟨true, true, true, false, false⟩
    freeIx := n }.ended 2 0 0

/-- The state in which HUF_BUILD leaves the machine at its success (spec/42_huffman.md R190). -/
def State.hufBuilt (s : State) (es : List SymEntry) (r : Results) : State :=
  { s with syms := es, res := r, valid := { s.valid with codeV := true } }.ended 3 0 0

/-- Settles O54: the decoded tree is the one RECONSTRUCT paints. -/
theorem decompressResult : Obligations.DecompressResult := by
  intro s w h es ns paths habort hpar hwf hcnt hfits hbus hbytes hw hh hsyms htree hnodes hcodes hroot hpaths hfree hcolors
    hcap hout hwrite
  have hdec : exec .decode s = .next (s.decoded w h es ns) :=
    decodeResult s w h es ns paths habort hpar hcnt hfits hbus hbytes hw hh hsyms htree hnodes hcodes hroot hpaths hfree
      hcolors
  obtain ⟨m, hrec, hpix, hframe⟩ := reconstructResult (s.decoded w h es ns) rfl hwf rfl htree hcap hout hwrite
  obtain ⟨_, hnext⟩ := decompressIsItsStages s _ habort hdec
  exact ⟨_, hnext _ rfl hrec, rfl, rfl, rfl, rfl, rfl, rfl, rfl, rfl, hpix, hframe⟩

/-- Entries with the same colours, frequencies and codes are the same. -/
theorem SymEntry.ext_of_maps {xs ys : List SymEntry} (hcolors : xs.map (·.color) = ys.map (·.color))
    (hfreqs : xs.map (·.freq) = ys.map (·.freq)) (hcodes : xs.map (·.code) = ys.map (·.code)) : xs = ys := by
  induction xs generalizing ys with
  | nil => exact (List.map_eq_nil_iff.mp hcolors.symm).symm
  | cons x xs ih =>
    cases ys with
    | nil => cases hcolors
    | cons y ys =>
      simp only [List.map_cons, List.cons.injEq] at hcolors hfreqs hcodes
      obtain ⟨hcolor, hcolors⟩ := hcolors
      obtain ⟨hfreq, hfreqs⟩ := hfreqs
      obtain ⟨hcode, hcodes⟩ := hcodes
      rw [ih hcolors hfreqs hcodes]
      cases x; cases y
      simp_all

/-- HUF_BUILD of the table `es` with its codes cleared gives `es` back, where the codes of `es` are its own. -/
theorem exec_hufBuild_of_cleared {s : State} {es : List SymEntry} (habort : s.pendingAbort = false)
    (hfreq : s.valid.freqV = true) (hsyms : s.syms = es.map fun (e : SymEntry) => { e with code := [] })
    (hcount : es.length = s.cnt.symCount.toNat) (hcodes : es.map (·.code) = hufCodes (symFreqs es))
    (hfit : ∀ e ∈ es, e.code.length ≤ s.par.maxCodeLen) : ∃ r, exec .hufBuild s = .next (s.hufBuilt es r) := by
  have hfreqs : symFreqs s.syms = symFreqs es := by
    rw [hsyms]
    exact List.map_map
  have hlength : s.syms.length = s.cnt.symCount.toNat := by rw [hsyms, List.length_map, hcount]
  obtain ⟨xs, hxcolors, hxfreqs, hxcodes, longest, _, _, hexec⟩ := hufBuildResult s habort hfreq hlength
    (by rw [hfreqs, ← hcodes]; exact List.forall_mem_map.mpr hfit)
  have hxs : xs = es := by
    refine SymEntry.ext_of_maps ?_ ?_ ?_
    · rw [hxcolors, hsyms]
      exact List.map_map
    · rw [hxfreqs, hsyms]
      exact List.map_map
    · rw [hxcodes, hfreqs, hcodes]
  exact ⟨_, hxs ▸ hexec⟩

/-- Settles O52: each stage succeeds on what the one before it left. -/
theorem compressResult : Obligations.CompressResult := by
  rintro s f ns es habort hpar hwf hw hh hpixels hpix hread rfl hdepth hmax hloss hbuilt hsymbols hcodes hnodes hsyms hfit
    hcnt hsize hwrite
  obtain ⟨_, _, _, hsymbolsBound, _, _, _⟩ := Params.bounds hpar
  have hcount : es.length = (BitVec.ofNat 32 (es.map fun (e : SymEntry) => { e with code := [] }).length).toNat := by
    rw [List.length_map, BitVec.toNat_ofNat, Nat.mod_eq_of_lt (by omega)]
  obtain ⟨st, hsat, _, hholds⟩ := satBuildResult s habort hpar hw hh hpixels hpix hread
  obtain ⟨n, hqt⟩ := qtBuildResult (s.satBuilt st) (imageAt s.mem s.snap.pixBase.toNat s.snap.imgW.toNat) ns _ rfl hdepth
    hmax hloss rfl hholds hpix hread hbuilt hsymbols hnodes (by rwa [List.length_map])
  obtain ⟨r, hhuf⟩ := exec_hufBuild_of_cleared (s := (s.satBuilt st).qtBuilt ns _ n) rfl rfl rfl hcount hcodes hfit
  obtain ⟨m, henc, hbytes, hframe⟩ := encodeResult (((s.satBuilt st).qtBuilt ns _ n).hufBuilt es r) rfl hwf rfl rfl rfl
    hcnt hsize hwrite
  obtain ⟨_, hafterSat⟩ := compressIsItsStages s _ habort hsat
  obtain ⟨_, hafterQt⟩ := hafterSat _ rfl hqt
  obtain ⟨_, hafterHuf⟩ := hafterQt _ rfl hhuf
  have hsymCount : BitVec.ofNat 32 (es.map fun (e : SymEntry) => { e with code := [] }).length =
      BitVec.ofNat 32 es.length := by rw [List.length_map]
  refine ⟨_, hafterHuf _ rfl henc, rfl, rfl, rfl, rfl, rfl, hholds, ?_, ?_, hframe⟩
  · rw [← hsymCount]
    rfl
  · rw [← hsymCount]
    exact hbytes

end Sys2Proof.Machine
end

section
/-! The round trip (spec/43_bitstream.md R227): what an ENCODE that succeeds has left is a container of a tree within the
capacities whose codes are HUF_BUILD's, and their trie fits, so DECODE reads it back. -/

namespace Sys2Proof.Machine

/-! ## The decoder's trie of a Huffman code -/

/-- The beginnings of the codes, which are the trie's nodes, number at most `2n − 1`, or 2 for one symbol (R225). -/
theorem hufCodes_beginnings (fs : List Nat) :
    ∃ paths : List (List Bool), [] ∈ paths ∧ (∀ c ∈ hufCodes fs, ∀ p, p <+: c → p ∈ paths) ∧
      paths.length ≤ max 2 (2 * fs.length - 1) := by
  rcases Nat.lt_or_ge fs.length 2 with hfew | htwo
  · refine ⟨[[], [false]], List.mem_cons_self, fun c hc p hp => ?_, Nat.le_max_left _ _⟩
    obtain ⟨i, hi, rfl⟩ := List.getElem_of_mem hc
    rw [hufCodes_length] at hi
    have hone : fs.length = 1 := by omega
    have hcode : (hufCodes fs)[i]'(by rwa [hufCodes_length]) = [false] := by
      simp only [hufCodes, if_pos hone, List.getElem_singleton]
    rw [hcode, List.prefix_cons_iff] at hp
    rcases hp with rfl | ⟨q, rfl, hq⟩
    · exact List.mem_cons_self
    · rw [List.prefix_nil.mp hq]
      exact List.mem_cons_of_mem _ List.mem_cons_self
  · have hne : fs ≠ [] := List.ne_nil_of_length_pos (by omega)
    refine ⟨hufPaths (hufTree fs), mem_hufPaths.mpr (by rw [hufAt]; rfl), fun c hc p hp => ?_, ?_⟩
    · obtain ⟨i, hi, rfl⟩ := List.getElem_of_mem hc
      rw [hufCodes_length] at hi
      have hleaf := hufPath_at (hufCodes_path htwo hi)
      exact mem_hufPaths.mpr (hufAt_prefix (by rw [hleaf]; rfl) hp)
    · have hpaths := hufPaths_length (hufTree fs)
      rw [(hufTree_syms fs hne).length_eq, List.length_range] at hpaths
      omega

/-! ## ENCODE's success, read backward -/

/-- Stores that succeed stored all their bytes. -/
theorem storeAll_ok_state {ws : List Host.Cell} {s u : State} {ok : State → State} (h : storeAll ws s ok = .ok u) :
    u = ok { s with mem := s.mem.writeAll ws } := by
  unfold storeAll at h
  split at h
  · cases h
    rfl
  · cases h

/-- The state in which ENCODE leaves the machine at its success (R214). -/
def State.encoded (s : State) : State :=
  { s with
    mem := s.mem.writeAll (encodeWrites s)
    cnt := { s.cnt with
      outLen := BitVec.ofNat 32 (containerSize s.syms s.nodes)
      payloadBits := BitVec.ofNat 32 (payload s.syms s.nodes).length } }.ended 4 0 0

/-- An ENCODE that succeeds passed its checks and left its container and the two sizes (R214). -/
theorem encode_of_success {s t : State} (hexec : exec .encode s = .next t) (hok : t.status.errCode = 0) :
    firstFailure (encodeChecks s) = none ∧ t = s.encoded := by
  obtain rfl := next_eq_runCommand (ks := [.enc]) rfl (by decide) (by decide) hexec
  obtain ⟨u, hrun, hstage⟩ := runStages_ok_of_success hok
  rw [List.map_singleton, runStages_singleton] at hstage
  rcases runStage_cases .enc s with ⟨e, _, hfail⟩ | ⟨hpass, hbody⟩
  · cases hfail.symm.trans hstage
  · obtain rfl := storeAll_ok_state (hbody.symm.trans hstage)
    exact ⟨hpass, hrun.trans (completeWith_encodeDone s _)⟩

/-! ## What the invariant gives DECODE -/

/-- The counters of a valid tree are those of its tables (spec/10_state.md R40). -/
theorem State.TablesOk.counts {s : State} (h : s.TablesOk) (htree : s.valid.treeV = true) :
    BitVec.ofNat 32 s.nodes.length = s.cnt.nodeCount ∧ BitVec.ofNat 32 (leafColors s.nodes).length = s.cnt.leafCount ∧
      BitVec.ofNat 32 s.syms.length = s.cnt.symCount := by
  obtain ⟨_, hnodes, _, hleaves⟩ := h.tree htree
  obtain ⟨hsyms, _⟩ := h.syms htree
  rw [hnodes, hleaves, hsyms]
  simp only [BitVec.ofNat_toNat, BitVec.setWidth_eq, and_self]

/-- Every leaf colour of a tree with frequencies has an entry (spec/41_quadtree.md R165). -/
theorem State.TablesOk.colors {s : State} (h : s.TablesOk) (hfreq : s.valid.freqV = true) :
    ∀ c ∈ leafColors s.nodes, ∃ e ∈ s.syms, e.color = c := by
  intro c hc
  obtain ⟨e, he, hcolor⟩ := (h.freq hfreq).complete c hc
  obtain ⟨x, hx, rfl⟩ := List.mem_map.mp he
  exact ⟨x, hx, hcolor⟩

/-- With codes, every entry's code has a bit and is within P_MAX_CODE_LEN (spec/10_state.md R54). -/
theorem State.TablesOk.codeBounds {s : State} (h : s.TablesOk) (hcode : s.valid.codeV = true) :
    ∀ e ∈ s.syms, 1 ≤ e.code.length ∧ e.code.length ≤ s.par.maxCodeLen := by
  intro e he
  have hbounds := h.codes e he
  rwa [if_pos hcode] at hbounds

/-- The entries of a table with HUF_BUILD's codes fit the decoder's trie, where it holds two nodes (R225). -/
theorem State.TablesOk.trieFits {s : State} (h : s.TablesOk) (hpar : s.par.wellFormed = true)
    (htwo : 2 ≤ s.par.maxTrieNodes) (hfreq : s.valid.freqV = true) (hcode : s.valid.codeV = true) :
    ∃ paths : List (List Bool), [] ∈ paths ∧ (∀ e ∈ s.syms, ∀ p, p <+: e.code → p ∈ paths) ∧
      paths.length ≤ s.par.maxTrieNodes := by
  obtain ⟨_, _, _, _, _, htrie, _⟩ := Params.bounds hpar
  obtain ⟨hfreqTree, _⟩ := h.flags
  obtain ⟨_, hsyms⟩ := h.syms (hfreqTree hfreq)
  obtain ⟨paths, hroot, hpaths, hlength⟩ := hufCodes_beginnings (symFreqs s.syms)
  rw [← h.huf hfreq hcode] at hpaths
  refine ⟨paths, hroot, List.forall_mem_map.mp hpaths, hlength.trans (max_le htwo ?_)⟩
  rw [symFreqs, List.length_map]
  omega

/-- DECODE, in a state `a`, of the container of the tables of a state `s` with a tree, frequencies and codes. -/
theorem exec_decode_of_tables {s a : State} (h : s.TablesOk) (hpar : s.par.wellFormed = true)
    (htwo : 2 ≤ s.par.maxTrieNodes) (htree : s.valid.treeV = true) (hfreq : s.valid.freqV = true)
    (hcode : s.valid.codeV = true) (hap : a.par = s.par) (habort : a.pendingAbort = false)
    (hrange : a.snap.cntBase.toNat + a.snap.cntLen.toNat ≤ addressSpace)
    (hfits : containerSize s.syms s.nodes ≤ a.snap.cntLen.toNat)
    (hbus : busRange s.par .read a.snap.cntBase.toNat (containerSize s.syms s.nodes))
    (hbytes : ∀ k (hk : k < (container s.cnt.treeW s.cnt.treeH s.cnt.symCount s.syms s.nodes).length),
      a.mem.read (a.snap.cntBase.toNat + k) =
        (container s.cnt.treeW s.cnt.treeH s.cnt.symCount s.syms s.nodes)[k]) :
    exec .decode a = .next (a.decoded s.cnt.treeW s.cnt.treeH s.syms s.nodes) := by
  obtain ⟨_, _, hsymCount⟩ := h.counts htree
  obtain ⟨hpre, _, hnodes, _⟩ := h.tree htree
  obtain ⟨hwidth, hheight⟩ := h.root htree
  obtain ⟨_, hsyms⟩ := h.syms htree
  obtain ⟨paths, hroot, hpaths, htrie⟩ := h.trieFits hpar htwo hfreq hcode
  have hcodes : ∀ e ∈ s.syms,
      1 ≤ e.code.length ∧ e.code.length ≤ s.par.maxCodeLen ∧ ∀ p, p <+: e.code → p ∈ paths := fun e he =>
    ⟨(h.codeBounds hcode e he).1, (h.codeBounds hcode e he).2, hpaths e he⟩
  have hfree : PrefixFree (s.syms.map (·.code)) := by
    rw [h.huf hfreq hcode]
    exact hufCodes_prefixFree _
  rw [← hap] at hpar hbus hpre hnodes hsyms htrie hcodes
  rw [← hsymCount] at hbytes
  exact decodeResult a _ _ _ _ paths habort hpar hrange hfits hbus hbytes hwidth hheight hsyms hpre hnodes hcodes hroot
    htrie hfree (h.colors hfreq)

/-! ## The round trip -/

theorem State.decoded_mem (s : State) (w h : Word) (es : List SymEntry) (ns : List NodeRec) :
    (s.decoded w h es ns).mem = s.mem := rfl

/-- Settles O58: what ENCODE stored is the container of tables the invariant speaks of, so DECODE reads it back. -/
theorem roundTrip : Obligations.RoundTrip := by
  intro s t hinv htwo hexec hok hread
  obtain ⟨hpass, rfl⟩ := encode_of_success hexec hok
  obtain ⟨⟨htree, hcode, hdec⟩, hrange, hfits⟩ :
      (s.valid.treeV = true ∧ s.valid.codeV = true ∧ s.valid.treeDec = false) ∧
        s.cfg.cntBase.toNat + s.cfg.cntLen.toNat ≤ addressSpace ∧
        containerSize s.syms s.nodes ≤ s.cfg.cntLen.toNat := encodeChecks_pass.mp hpass
  have hfreq : s.valid.freqV = true := by
    obtain ⟨_, _, _, hsource⟩ := hinv.tables.flags
    rw [hsource htree, Bool.not_eq_false'] at hdec
    exact hdec
  have hsize : (BitVec.ofNat 32 (containerSize s.syms s.nodes)).toNat = containerSize s.syms s.nodes := by
    rw [BitVec.toNat_ofNat, Nat.mod_eq_of_lt (hfits.trans_lt s.cfg.cntLen.isLt)]
  have hbus : busRange s.par .read s.cfg.cntBase.toNat (containerSize s.syms s.nodes) := by
    rw [← hsize]
    exact hread
  have hbytes := Memory.read_writeAll_cellsAt hinv.mem s.cfg.cntBase.toNat
    (container s.cnt.treeW s.cnt.treeH s.cnt.symCount s.syms s.nodes)
  obtain ⟨hnodeCount, hleafCount, hsymCount⟩ := hinv.tables.counts htree
  refine ⟨_, exec_decode_of_tables hinv.tables hinv.par htwo htree hfreq hcode rfl rfl hrange hfits hbus hbytes,
    rfl, rfl, rfl, ?_, rfl, fun a => by rw [State.decoded_mem, accept_mem]⟩
  simp only [State.decoded, hnodeCount, hleafCount, hsymCount]
  rfl

end Sys2Proof.Machine
end
